-- ==== Sys2Proof/Word.lean ====
section
/-! DEFINITION. The word types of the block: 8-bit data, 16-bit addresses and pairs (00_scope.md R7, R14). -/

namespace Sys2Proof

/-- A `u8`: every register but SP and PC, and every bus transfer (00_scope.md R7, R14). -/
abbrev Byte := BitVec 8

/-- A `u16`: an address, SP, PC or a register pair (00_scope.md R7, R14). -/
abbrev Word := BitVec 16

end Sys2Proof
end

