-- ==== Sys2Proof/Config.lean ====
section
/-! DEFINITION. What the spec leaves to the implementation: the free value of the I/O collaborator, and the model's
choice for bytes of memory that nothing has written. -/

namespace Sys2Proof

/-- FREE VALUE (20_memory.md R96, 93_implementation_defined.md row 5; log 5). The byte `P_IO` answers to the `n`-th
unscripted read, at address `a`. No body: a claim that holds of the model holds for every answer. -/
opaque Config.ioByte (n : Nat) (a : Word) : Byte

/-- DESIGN CHOICE (log 3), unsafe: what a byte of VRAM, WRAM, OAM, HRAM, CRAM or ROM that is not listed reads as.
`P_INIT_MEM` is any value (70_reset_and_hazards.md R462); the spec's own vectors take 0x00 (95_test_vectors.md,
conventions). A state that lists every byte covers any other content. -/
def Config.unlistedByte : Byte := 0x00

/-- `P_DIV_INIT` of `State.reset`. DESIGN CHOICE (log 4), unsafe: the parameter is OPEN (70_reset_and_hazards.md R464);
the spec's own vectors take 0x0000. -/
def Config.divInit : Word := 0x0000

/-- `ROM_BYTES` of the cartridge `State.reset` is built with: 32 KiB. DESIGN CHOICE (log 2): the spec's own vectors take
a RomOnly cartridge of 32 KiB (95_test_vectors.md, conventions). -/
def Config.resetRomBytes : Nat := 0x8000

end Sys2Proof
end

