-- ==== Sys2Proof/Syntax.lean ====
section
/-! DEFINITION. The instruction set as syntax: one constructor of `Instr` per row of spec/opcode_table.json. -/

namespace Sys2Proof

/-- The seven 8-bit general registers (10_state.md R30); the values of the r8 field other than 110
(30_encoding.md R157). -/
inductive R8 where
  | b | c | d | e | h | l | a
deriving DecidableEq, Repr

/-- The full r8 field: a register, or 110, the memory-indirect placeholder `(HL)` (30_encoding.md R157). -/
inductive Opnd8 where
  | reg (r : R8)
  | atHl
deriving DecidableEq, Repr

/-- The pair field `pp` (30_encoding.md R158). -/
inductive RR where
  | bc | de | hl | sp
deriving DecidableEq, Repr

/-- The stack-pair field `qq` (30_encoding.md R159). -/
inductive QQ where
  | bc | de | hl | af
deriving DecidableEq, Repr

/-- The condition field `cc` (30_encoding.md R160). -/
inductive Cond where
  | nz | z | nc | c
deriving DecidableEq, Repr

/-- One constructor per row of spec/opcode_table.json, in the table's order. Register fields, conditions, bit numbers and
restart indices are resolved (30_encoding.md R163); immediates are the bytes or the little-endian word (R162). -/
inductive Instr where
  -- 8-bit loads, 41_load8.md
  | ldRR (dst src : R8)
  | ldRHl (dst : R8)
  | ldHlR (src : R8)
  | ldRN (dst : R8) (n : Byte)
  | ldHlN (n : Byte)
  | ldABc
  | ldADe
  | ldBcA
  | ldDeA
  | ldAHli
  | ldAHld
  | ldHliA
  | ldHldA
  | ldANn (nn : Word)
  | ldNnA (nn : Word)
  | ldhAN (n : Byte)
  | ldhNA (n : Byte)
  | ldhAC
  | ldhCA
  -- 16-bit loads and the stack, 42_load16.md
  | ldRrNn (p : RR) (nn : Word)
  | ldNnSp (nn : Word)
  | ldSpHl
  | push (q : QQ)
  | pop (q : QQ)
  | ldHlSpE (e : Byte)
  -- 8-bit arithmetic and logic, 43_alu8.md
  | addR (src : R8)
  | addHl
  | addN (n : Byte)
  | adcR (src : R8)
  | adcHl
  | adcN (n : Byte)
  | subR (src : R8)
  | subHl
  | subN (n : Byte)
  | sbcR (src : R8)
  | sbcHl
  | sbcN (n : Byte)
  | andR (src : R8)
  | andHl
  | andN (n : Byte)
  | xorR (src : R8)
  | xorHl
  | xorN (n : Byte)
  | orR (src : R8)
  | orHl
  | orN (n : Byte)
  | cpR (src : R8)
  | cpHl
  | cpN (n : Byte)
  | incR (dst : R8)
  | incHl
  | decR (dst : R8)
  | decHl
  | daa
  | cpl
  | scf
  | ccf
  -- 16-bit arithmetic, 44_alu16.md
  | addHlRr (p : RR)
  | incRr (p : RR)
  | decRr (p : RR)
  | addSpE (e : Byte)
  -- accumulator rotates, 45_rotate_shift.md
  | rlca
  | rrca
  | rla
  | rra
  -- jumps, calls, returns, restarts, 47_control.md
  | jpNn (nn : Word)
  | jpCcNn (cc : Cond) (nn : Word)
  | jpHl
  | jrE (e : Byte)
  | jrCcE (cc : Cond) (e : Byte)
  | callNn (nn : Word)
  | callCcNn (cc : Cond) (nn : Word)
  | ret
  | retCc (cc : Cond)
  | reti
  | rst (t : BitVec 3)
  -- control of the CPU, 48_misc.md
  | nop
  | halt
  | stop (x : Byte)
  | di
  | ei
  | prefixCb (c : Byte)
  -- the CB rows, 45_rotate_shift.md and 46_bit.md
  | rlc (o : Opnd8)
  | rrc (o : Opnd8)
  | rl (o : Opnd8)
  | rr (o : Opnd8)
  | sla (o : Opnd8)
  | sra (o : Opnd8)
  | swap (o : Opnd8)
  | srl (o : Opnd8)
  | bitB (b : BitVec 3) (o : Opnd8)
  | resB (b : BitVec 3) (o : Opnd8)
  | setB (b : BitVec 3) (o : Opnd8)
  -- the row (illegal), 48_misc.md R376
  | illegal (op : Byte)
deriving DecidableEq, Repr

end Sys2Proof
end

