-- ==== Sys2Proof/WellFormed.lean ====
section
/-! DEFINITION. Which terms of `Instr` are instructions of the block. The operand types leave two checks: the byte of
the row (illegal), and the row PREFIX_CB. -/

namespace Sys2Proof

/-- The 11 illegal first bytes (30_encoding.md R170, 48_misc.md R376). -/
def illegalOpcodes : List Byte :=
  [0xD3, 0xDB, 0xDD, 0xE3, 0xE4, 0xEB, 0xEC, 0xED, 0xF4, 0xFC, 0xFD]

/-- The term is an instruction as a step executes it. `illegal op` needs one of the 11 bytes (R170). `prefixCb c` is the
entry 0xCB of the first-byte table (R173): the pair's instruction is the CB row of `c` (R375), so the decoder never
answers it (log 11). -/
def Instr.wellFormed : Instr → Bool
  | .ldRR _ _ => true
  | .ldRHl _ => true
  | .ldHlR _ => true
  | .ldRN _ _ => true
  | .ldHlN _ => true
  | .ldABc => true
  | .ldADe => true
  | .ldBcA => true
  | .ldDeA => true
  | .ldAHli => true
  | .ldAHld => true
  | .ldHliA => true
  | .ldHldA => true
  | .ldANn _ => true
  | .ldNnA _ => true
  | .ldhAN _ => true
  | .ldhNA _ => true
  | .ldhAC => true
  | .ldhCA => true
  | .ldRrNn _ _ => true
  | .ldNnSp _ => true
  | .ldSpHl => true
  | .push _ => true
  | .pop _ => true
  | .ldHlSpE _ => true
  | .addR _ => true
  | .addHl => true
  | .addN _ => true
  | .adcR _ => true
  | .adcHl => true
  | .adcN _ => true
  | .subR _ => true
  | .subHl => true
  | .subN _ => true
  | .sbcR _ => true
  | .sbcHl => true
  | .sbcN _ => true
  | .andR _ => true
  | .andHl => true
  | .andN _ => true
  | .xorR _ => true
  | .xorHl => true
  | .xorN _ => true
  | .orR _ => true
  | .orHl => true
  | .orN _ => true
  | .cpR _ => true
  | .cpHl => true
  | .cpN _ => true
  | .incR _ => true
  | .incHl => true
  | .decR _ => true
  | .decHl => true
  | .daa => true
  | .cpl => true
  | .scf => true
  | .ccf => true
  | .addHlRr _ => true
  | .incRr _ => true
  | .decRr _ => true
  | .addSpE _ => true
  | .rlca => true
  | .rrca => true
  | .rla => true
  | .rra => true
  | .jpNn _ => true
  | .jpCcNn _ _ => true
  | .jpHl => true
  | .jrE _ => true
  | .jrCcE _ _ => true
  | .callNn _ => true
  | .callCcNn _ _ => true
  | .ret => true
  | .retCc _ => true
  | .reti => true
  | .rst _ => true
  | .nop => true
  | .halt => true
  | .stop _ => true
  | .di => true
  | .ei => true
  | .prefixCb _ => false
  | .rlc _ => true
  | .rrc _ => true
  | .rl _ => true
  | .rr _ => true
  | .sla _ => true
  | .sra _ => true
  | .swap _ => true
  | .srl _ => true
  | .bitB _ _ => true
  | .resB _ _ => true
  | .setB _ _ => true
  | .illegal op => illegalOpcodes.contains op

/-- The Prop form of `Instr.wellFormed`, for statements. -/
abbrev Instr.WellFormed (i : Instr) : Prop := i.wellFormed = true

end Sys2Proof
end

