-- ==== Sys2Proof/Decode.lean ====
section
/-! DEFINITION. Bytes to instructions and back: the byte-order helpers, the field tables (30_encoding.md R157 to R161),
the first-byte map (R165), the CB map (R166), the decoder, and after it the encoder, the opcode-table rows and
`decodeTableWord`. -/

namespace Sys2Proof

/-! ## Byte order and bit fields -/

/-- `hi8 : lo8`, concatenation with the first operand in the high bits (00_scope.md R13). -/
def wordOf (hi lo : Byte) : Word := hi ++ lo

/-- `v[15:8]` of a word (00_scope.md R13). -/
def hiByte (w : Word) : Byte := w.extractLsb' 8 8

/-- `v[7:0]` of a word (00_scope.md R13). -/
def loByte (w : Word) : Byte := w.extractLsb' 0 8

/-- `sext_16(v)`: the byte as a two's-complement value, added modulo 65536 (00_scope.md R14, 30_encoding.md R153). -/
def sext16 (v : Byte) : Word := v.signExtend 16

/-- `zext_16(v)` (00_scope.md R14, 30_encoding.md R162). -/
def zext16 (v : Byte) : Word := v.setWidth 16

/-- The quadrant bits `o[7:6]` (30_encoding.md R165). -/
def fieldX (o : Byte) : BitVec 2 := o.extractLsb' 6 2

/-- The field `y = o[5:3]` (30_encoding.md R165). -/
def fieldY (o : Byte) : BitVec 3 := o.extractLsb' 3 3

/-- The field `z = o[2:0]` (30_encoding.md R165). -/
def fieldZ (o : Byte) : BitVec 3 := o.extractLsb' 0 3

/-- The two-bit field `o[5:4]` of `pp` and `qq` (30_encoding.md R158, R159). -/
def fieldP (o : Byte) : BitVec 2 := o.extractLsb' 4 2

/-- The two-bit field `o[4:3]` of `cc` (30_encoding.md R160). -/
def fieldCc (o : Byte) : BitVec 2 := o.extractLsb' 3 2

/-- The r8 field table (30_encoding.md R157). -/
def opnd8Of (f : BitVec 3) : Opnd8 :=
  if f = 0b000#3 then .reg .b
  else if f = 0b001#3 then .reg .c
  else if f = 0b010#3 then .reg .d
  else if f = 0b011#3 then .reg .e
  else if f = 0b100#3 then .reg .h
  else if f = 0b101#3 then .reg .l
  else if f = 0b110#3 then .atHl
  else .reg .a

/-- The pp field table (30_encoding.md R158). -/
def rrOf (f : BitVec 2) : RR :=
  if f = 0b00#2 then .bc
  else if f = 0b01#2 then .de
  else if f = 0b10#2 then .hl
  else .sp

/-- The qq field table (30_encoding.md R159). -/
def qqOf (f : BitVec 2) : QQ :=
  if f = 0b00#2 then .bc
  else if f = 0b01#2 then .de
  else if f = 0b10#2 then .hl
  else .af

/-- The cc field table (30_encoding.md R160). -/
def condOf (f : BitVec 2) : Cond :=
  if f = 0b00#2 then .nz
  else if f = 0b01#2 then .z
  else if f = 0b10#2 then .nc
  else .c

/-! ## The first-byte map -/

/-- Quadrant 00, `z` = 000 (30_encoding.md R165): NOP, LD (nn),SP, STOP, JR e, JR cc,e. -/
def decodeQ0Z0 (o b1 b2 : Byte) : Instr :=
  if o = 0x00 then .nop
  else if o = 0x08 then .ldNnSp (wordOf b2 b1)
  else if o = 0x10 then .stop b1
  else if o = 0x18 then .jrE b1
  else .jrCcE (condOf (fieldCc o)) b1

/-- Quadrant 00, `z` = 010 (30_encoding.md R165): the accumulator loads and stores through a pair. -/
def decodeQ0Z2 (o : Byte) : Instr :=
  if o = 0x02 then .ldBcA
  else if o = 0x12 then .ldDeA
  else if o = 0x22 then .ldHliA
  else if o = 0x32 then .ldHldA
  else if o = 0x0A then .ldABc
  else if o = 0x1A then .ldADe
  else if o = 0x2A then .ldAHli
  else .ldAHld

/-- Quadrant 00, `z` = 111 (30_encoding.md R165): the accumulator and flag operations. -/
def decodeQ0Z7 (o : Byte) : Instr :=
  if o = 0x07 then .rlca
  else if o = 0x0F then .rrca
  else if o = 0x17 then .rla
  else if o = 0x1F then .rra
  else if o = 0x27 then .daa
  else if o = 0x2F then .cpl
  else if o = 0x37 then .scf
  else .ccf

/-- Quadrant 00 (30_encoding.md R165). -/
def decodeQ0 (o b1 b2 : Byte) : Instr :=
  let z := fieldZ o
  if z = 0b000#3 then decodeQ0Z0 o b1 b2
  else if z = 0b001#3 then
    if o.getLsbD 3 then .addHlRr (rrOf (fieldP o)) else .ldRrNn (rrOf (fieldP o)) (wordOf b2 b1)
  else if z = 0b010#3 then decodeQ0Z2 o
  else if z = 0b011#3 then
    if o.getLsbD 3 then .decRr (rrOf (fieldP o)) else .incRr (rrOf (fieldP o))
  else if z = 0b100#3 then
    match opnd8Of (fieldY o) with
    | .reg dst => .incR dst
    | .atHl => .incHl
  else if z = 0b101#3 then
    match opnd8Of (fieldY o) with
    | .reg dst => .decR dst
    | .atHl => .decHl
  else if z = 0b110#3 then
    match opnd8Of (fieldY o) with
    | .reg dst => .ldRN dst b1
    | .atHl => .ldHlN b1
  else decodeQ0Z7 o

/-- Quadrant 01 (30_encoding.md R165): the `01dddsss` family, with HALT in the slot of two placeholders. -/
def decodeQ1 (o : Byte) : Instr :=
  match opnd8Of (fieldY o), opnd8Of (fieldZ o) with
  | .reg dst, .reg src => .ldRR dst src
  | .reg dst, .atHl => .ldRHl dst
  | .atHl, .reg src => .ldHlR src
  | .atHl, .atHl => .halt

/-- Quadrant 10 (30_encoding.md R165, 43_alu8.md R280): `ALU A,operand`, the operation by `y`. -/
def decodeQ2 (o : Byte) : Instr :=
  let y := fieldY o
  match opnd8Of (fieldZ o) with
  | .reg src =>
    if y = 0b000#3 then .addR src
    else if y = 0b001#3 then .adcR src
    else if y = 0b010#3 then .subR src
    else if y = 0b011#3 then .sbcR src
    else if y = 0b100#3 then .andR src
    else if y = 0b101#3 then .xorR src
    else if y = 0b110#3 then .orR src
    else .cpR src
  | .atHl =>
    if y = 0b000#3 then .addHl
    else if y = 0b001#3 then .adcHl
    else if y = 0b010#3 then .subHl
    else if y = 0b011#3 then .sbcHl
    else if y = 0b100#3 then .andHl
    else if y = 0b101#3 then .xorHl
    else if y = 0b110#3 then .orHl
    else .cpHl

/-- Quadrant 11, `z` = 000 (30_encoding.md R165). -/
def decodeQ3Z0 (o b1 : Byte) : Instr :=
  if o = 0xE0 then .ldhNA b1
  else if o = 0xE8 then .addSpE b1
  else if o = 0xF0 then .ldhAN b1
  else if o = 0xF8 then .ldHlSpE b1
  else .retCc (condOf (fieldCc o))

/-- Quadrant 11, `z` = 001 (30_encoding.md R165). -/
def decodeQ3Z1 (o : Byte) : Instr :=
  if o = 0xC9 then .ret
  else if o = 0xD9 then .reti
  else if o = 0xE9 then .jpHl
  else if o = 0xF9 then .ldSpHl
  else .pop (qqOf (fieldP o))

/-- Quadrant 11, `z` = 010 (30_encoding.md R165). -/
def decodeQ3Z2 (o b1 b2 : Byte) : Instr :=
  if o = 0xE2 then .ldhCA
  else if o = 0xEA then .ldNnA (wordOf b2 b1)
  else if o = 0xF2 then .ldhAC
  else if o = 0xFA then .ldANn (wordOf b2 b1)
  else .jpCcNn (condOf (fieldCc o)) (wordOf b2 b1)

/-- Quadrant 11, `z` = 011 (30_encoding.md R165): JP nn, the escape byte, DI, EI; the rest is illegal (R170). -/
def decodeQ3Z3 (o b1 b2 : Byte) : Instr :=
  if o = 0xC3 then .jpNn (wordOf b2 b1)
  else if o = 0xCB then .prefixCb b1
  else if o = 0xF3 then .di
  else if o = 0xFB then .ei
  else .illegal o

/-- Quadrant 11, `z` = 110 (30_encoding.md R165): `ALU A,n`. -/
def decodeQ3Z6 (o b1 : Byte) : Instr :=
  let y := fieldY o
  if y = 0b000#3 then .addN b1
  else if y = 0b001#3 then .adcN b1
  else if y = 0b010#3 then .subN b1
  else if y = 0b011#3 then .sbcN b1
  else if y = 0b100#3 then .andN b1
  else if y = 0b101#3 then .xorN b1
  else if y = 0b110#3 then .orN b1
  else .cpN b1

/-- Quadrant 11 (30_encoding.md R165). -/
def decodeQ3 (o b1 b2 : Byte) : Instr :=
  let z := fieldZ o
  if z = 0b000#3 then decodeQ3Z0 o b1
  else if z = 0b001#3 then decodeQ3Z1 o
  else if z = 0b010#3 then decodeQ3Z2 o b1 b2
  else if z = 0b011#3 then decodeQ3Z3 o b1 b2
  else if z = 0b100#3 then
    if o.getLsbD 5 then .illegal o else .callCcNn (condOf (fieldCc o)) (wordOf b2 b1)
  else if z = 0b101#3 then
    if o = 0xCD then .callNn (wordOf b2 b1)
    else if o.getLsbD 3 then .illegal o
    else .push (qqOf (fieldP o))
  else if z = 0b110#3 then decodeQ3Z6 o b1
  else .rst (fieldY o)

/-- The first-byte table (30_encoding.md R165, R173): the entry of first byte `o`, with `b1` and `b2` the bytes after it
(a form shorter than that does not use them). The entry 0xCB is `prefixCb`, which `decodeWords` resolves. -/
def decodeFirst (o b1 b2 : Byte) : Instr :=
  let x := fieldX o
  if x = 0b00#2 then decodeQ0 o b1 b2
  else if x = 0b01#2 then decodeQ1 o
  else if x = 0b10#2 then decodeQ2 o
  else decodeQ3 o b1 b2

/-- The CB map (30_encoding.md R166): every value of the second byte has a row. -/
def decodeCb (c : Byte) : Instr :=
  let x := fieldX c
  let y := fieldY c
  let o := opnd8Of (fieldZ c)
  if x = 0b01#2 then .bitB y o
  else if x = 0b10#2 then .resB y o
  else if x = 0b11#2 then .setB y o
  else if y = 0b000#3 then .rlc o
  else if y = 0b001#3 then .rrc o
  else if y = 0b010#3 then .rl o
  else if y = 0b011#3 then .rr o
  else if y = 0b100#3 then .sla o
  else if y = 0b101#3 then .sra o
  else if y = 0b110#3 then .swap o
  else .srl o

/-- The instruction of the bytes `o b1 b2`, the escape byte resolved (30_encoding.md R155, R172, 48_misc.md R375). -/
def decodeWords (o b1 b2 : Byte) : Instr :=
  if o = 0xCB then decodeCb b1 else decodeFirst o b1 b2

/-! ## Lengths -/

/-- The length of a form in bytes (30_encoding.md R150, R164; column `length` of opcode_table.json). -/
def Instr.length : Instr → Nat
  | .ldRR _ _ => 1
  | .ldRHl _ => 1
  | .ldHlR _ => 1
  | .ldRN _ _ => 2
  | .ldHlN _ => 2
  | .ldABc => 1
  | .ldADe => 1
  | .ldBcA => 1
  | .ldDeA => 1
  | .ldAHli => 1
  | .ldAHld => 1
  | .ldHliA => 1
  | .ldHldA => 1
  | .ldANn _ => 3
  | .ldNnA _ => 3
  | .ldhAN _ => 2
  | .ldhNA _ => 2
  | .ldhAC => 1
  | .ldhCA => 1
  | .ldRrNn _ _ => 3
  | .ldNnSp _ => 3
  | .ldSpHl => 1
  | .push _ => 1
  | .pop _ => 1
  | .ldHlSpE _ => 2
  | .addR _ => 1
  | .addHl => 1
  | .addN _ => 2
  | .adcR _ => 1
  | .adcHl => 1
  | .adcN _ => 2
  | .subR _ => 1
  | .subHl => 1
  | .subN _ => 2
  | .sbcR _ => 1
  | .sbcHl => 1
  | .sbcN _ => 2
  | .andR _ => 1
  | .andHl => 1
  | .andN _ => 2
  | .xorR _ => 1
  | .xorHl => 1
  | .xorN _ => 2
  | .orR _ => 1
  | .orHl => 1
  | .orN _ => 2
  | .cpR _ => 1
  | .cpHl => 1
  | .cpN _ => 2
  | .incR _ => 1
  | .incHl => 1
  | .decR _ => 1
  | .decHl => 1
  | .daa => 1
  | .cpl => 1
  | .scf => 1
  | .ccf => 1
  | .addHlRr _ => 1
  | .incRr _ => 1
  | .decRr _ => 1
  | .addSpE _ => 2
  | .rlca => 1
  | .rrca => 1
  | .rla => 1
  | .rra => 1
  | .jpNn _ => 3
  | .jpCcNn _ _ => 3
  | .jpHl => 1
  | .jrE _ => 2
  | .jrCcE _ _ => 2
  | .callNn _ => 3
  | .callCcNn _ _ => 3
  | .ret => 1
  | .retCc _ => 1
  | .reti => 1
  | .rst _ => 1
  | .nop => 1
  | .halt => 1
  | .stop _ => 2
  | .di => 1
  | .ei => 1
  | .prefixCb _ => 2
  | .rlc _ => 2
  | .rrc _ => 2
  | .rl _ => 2
  | .rr _ => 2
  | .sla _ => 2
  | .sra _ => 2
  | .swap _ => 2
  | .srl _ => 2
  | .bitB _ _ => 2
  | .resB _ _ => 2
  | .setB _ _ => 2
  | .illegal _ => 1

/-- The length told by the first byte alone (30_encoding.md R164). -/
def firstLength (o : Byte) : Nat := (decodeFirst o 0 0).length

/-! ## Decoding a list of bytes -/

/-- Why a list of bytes is no instruction. Every first byte has an entry, so only a truncated list is rejected; an
illegal first byte is the row (illegal), which has a meaning of its own (48_misc.md R376). -/
inductive DecodeError where
  | noBytes
  | truncated (o : Byte)
deriving DecidableEq, Repr

/-- The decoder: the instruction at the head of a list of bytes and the bytes after it (30_encoding.md R164, R172). -/
def decode : List Byte → Except DecodeError (Instr × List Byte)
  | [] => .error .noBytes
  | o :: rest =>
    if rest.length + 1 < firstLength o then .error (.truncated o)
    else .ok (decodeWords o (rest.getD 0 0) (rest.getD 1 0), rest.drop (firstLength o - 1))

/-! ## Encoding -/

/-- The r8 field value of a register (30_encoding.md R157). -/
def R8.field : R8 → BitVec 3
  | .b => 0b000
  | .c => 0b001
  | .d => 0b010
  | .e => 0b011
  | .h => 0b100
  | .l => 0b101
  | .a => 0b111

/-- The r8 field value of an operand (30_encoding.md R157). -/
def Opnd8.field : Opnd8 → BitVec 3
  | .reg r => r.field
  | .atHl => 0b110

/-- The pp field value (30_encoding.md R158). -/
def RR.field : RR → BitVec 2
  | .bc => 0b00
  | .de => 0b01
  | .hl => 0b10
  | .sp => 0b11

/-- The qq field value (30_encoding.md R159). -/
def QQ.field : QQ → BitVec 2
  | .bc => 0b00
  | .de => 0b01
  | .hl => 0b10
  | .af => 0b11

/-- The cc field value (30_encoding.md R160). -/
def Cond.field : Cond → BitVec 2
  | .nz => 0b00
  | .z => 0b01
  | .nc => 0b10
  | .c => 0b11

/-- A byte written as its fields `x : y : z` (30_encoding.md R165, R166). -/
def byteXyz (x : BitVec 2) (y z : BitVec 3) : Byte := x ++ y ++ z

/-- The encoder: column `encoding` of opcode_table.json, then the immediate bytes, low byte first
(30_encoding.md R150 to R156). -/
def encode : Instr → List Byte
  | .ldRR dst src => [(0b01#2 ++ dst.field ++ src.field : BitVec 8)]
  | .ldRHl dst => [(0b01#2 ++ dst.field ++ 0b110#3 : BitVec 8)]
  | .ldHlR src => [(0b01110#5 ++ src.field : BitVec 8)]
  | .ldRN dst n => [(0b00#2 ++ dst.field ++ 0b110#3 : BitVec 8), n]
  | .ldHlN n => [0b00110110, n]
  | .ldABc => [0b00001010]
  | .ldADe => [0b00011010]
  | .ldBcA => [0b00000010]
  | .ldDeA => [0b00010010]
  | .ldAHli => [0b00101010]
  | .ldAHld => [0b00111010]
  | .ldHliA => [0b00100010]
  | .ldHldA => [0b00110010]
  | .ldANn nn => [0b11111010, loByte nn, hiByte nn]
  | .ldNnA nn => [0b11101010, loByte nn, hiByte nn]
  | .ldhAN n => [0b11110000, n]
  | .ldhNA n => [0b11100000, n]
  | .ldhAC => [0b11110010]
  | .ldhCA => [0b11100010]
  | .ldRrNn p nn => [(0b00#2 ++ p.field ++ 0b0001#4 : BitVec 8), loByte nn, hiByte nn]
  | .ldNnSp nn => [0b00001000, loByte nn, hiByte nn]
  | .ldSpHl => [0b11111001]
  | .push q => [(0b11#2 ++ q.field ++ 0b0101#4 : BitVec 8)]
  | .pop q => [(0b11#2 ++ q.field ++ 0b0001#4 : BitVec 8)]
  | .ldHlSpE e => [0b11111000, e]
  | .addR src => [(0b10000#5 ++ src.field : BitVec 8)]
  | .addHl => [0b10000110]
  | .addN n => [0b11000110, n]
  | .adcR src => [(0b10001#5 ++ src.field : BitVec 8)]
  | .adcHl => [0b10001110]
  | .adcN n => [0b11001110, n]
  | .subR src => [(0b10010#5 ++ src.field : BitVec 8)]
  | .subHl => [0b10010110]
  | .subN n => [0b11010110, n]
  | .sbcR src => [(0b10011#5 ++ src.field : BitVec 8)]
  | .sbcHl => [0b10011110]
  | .sbcN n => [0b11011110, n]
  | .andR src => [(0b10100#5 ++ src.field : BitVec 8)]
  | .andHl => [0b10100110]
  | .andN n => [0b11100110, n]
  | .xorR src => [(0b10101#5 ++ src.field : BitVec 8)]
  | .xorHl => [0b10101110]
  | .xorN n => [0b11101110, n]
  | .orR src => [(0b10110#5 ++ src.field : BitVec 8)]
  | .orHl => [0b10110110]
  | .orN n => [0b11110110, n]
  | .cpR src => [(0b10111#5 ++ src.field : BitVec 8)]
  | .cpHl => [0b10111110]
  | .cpN n => [0b11111110, n]
  | .incR dst => [(0b00#2 ++ dst.field ++ 0b100#3 : BitVec 8)]
  | .incHl => [0b00110100]
  | .decR dst => [(0b00#2 ++ dst.field ++ 0b101#3 : BitVec 8)]
  | .decHl => [0b00110101]
  | .daa => [0b00100111]
  | .cpl => [0b00101111]
  | .scf => [0b00110111]
  | .ccf => [0b00111111]
  | .addHlRr p => [(0b00#2 ++ p.field ++ 0b1001#4 : BitVec 8)]
  | .incRr p => [(0b00#2 ++ p.field ++ 0b0011#4 : BitVec 8)]
  | .decRr p => [(0b00#2 ++ p.field ++ 0b1011#4 : BitVec 8)]
  | .addSpE e => [0b11101000, e]
  | .rlca => [0b00000111]
  | .rrca => [0b00001111]
  | .rla => [0b00010111]
  | .rra => [0b00011111]
  | .jpNn nn => [0b11000011, loByte nn, hiByte nn]
  | .jpCcNn cc nn => [(0b110#3 ++ cc.field ++ 0b010#3 : BitVec 8), loByte nn, hiByte nn]
  | .jpHl => [0b11101001]
  | .jrE e => [0b00011000, e]
  | .jrCcE cc e => [(0b001#3 ++ cc.field ++ 0b000#3 : BitVec 8), e]
  | .callNn nn => [0b11001101, loByte nn, hiByte nn]
  | .callCcNn cc nn => [(0b110#3 ++ cc.field ++ 0b100#3 : BitVec 8), loByte nn, hiByte nn]
  | .ret => [0b11001001]
  | .retCc cc => [(0b110#3 ++ cc.field ++ 0b000#3 : BitVec 8)]
  | .reti => [0b11011001]
  | .rst t => [(0b11#2 ++ t ++ 0b111#3 : BitVec 8)]
  | .nop => [0b00000000]
  | .halt => [0b01110110]
  | .stop x => [0x10, x]
  | .di => [0b11110011]
  | .ei => [0b11111011]
  | .prefixCb c => [0xCB, c]
  | .rlc o => [0xCB, (0b00000#5 ++ o.field : BitVec 8)]
  | .rrc o => [0xCB, (0b00001#5 ++ o.field : BitVec 8)]
  | .rl o => [0xCB, (0b00010#5 ++ o.field : BitVec 8)]
  | .rr o => [0xCB, (0b00011#5 ++ o.field : BitVec 8)]
  | .sla o => [0xCB, (0b00100#5 ++ o.field : BitVec 8)]
  | .sra o => [0xCB, (0b00101#5 ++ o.field : BitVec 8)]
  | .swap o => [0xCB, (0b00110#5 ++ o.field : BitVec 8)]
  | .srl o => [0xCB, (0b00111#5 ++ o.field : BitVec 8)]
  | .bitB b o => [0xCB, (0b01#2 ++ b ++ o.field : BitVec 8)]
  | .resB b o => [0xCB, (0b10#2 ++ b ++ o.field : BitVec 8)]
  | .setB b o => [0xCB, (0b11#2 ++ b ++ o.field : BitVec 8)]
  | .illegal op => [op]

/-! ## The opcode table's rows -/

/-- The row of spec/opcode_table.json a term stands for, counted from 0. -/
def Instr.row : Instr → Nat
  | .ldRR _ _ => 0
  | .ldRHl _ => 1
  | .ldHlR _ => 2
  | .ldRN _ _ => 3
  | .ldHlN _ => 4
  | .ldABc => 5
  | .ldADe => 6
  | .ldBcA => 7
  | .ldDeA => 8
  | .ldAHli => 9
  | .ldAHld => 10
  | .ldHliA => 11
  | .ldHldA => 12
  | .ldANn _ => 13
  | .ldNnA _ => 14
  | .ldhAN _ => 15
  | .ldhNA _ => 16
  | .ldhAC => 17
  | .ldhCA => 18
  | .ldRrNn _ _ => 19
  | .ldNnSp _ => 20
  | .ldSpHl => 21
  | .push _ => 22
  | .pop _ => 23
  | .ldHlSpE _ => 24
  | .addR _ => 25
  | .addHl => 26
  | .addN _ => 27
  | .adcR _ => 28
  | .adcHl => 29
  | .adcN _ => 30
  | .subR _ => 31
  | .subHl => 32
  | .subN _ => 33
  | .sbcR _ => 34
  | .sbcHl => 35
  | .sbcN _ => 36
  | .andR _ => 37
  | .andHl => 38
  | .andN _ => 39
  | .xorR _ => 40
  | .xorHl => 41
  | .xorN _ => 42
  | .orR _ => 43
  | .orHl => 44
  | .orN _ => 45
  | .cpR _ => 46
  | .cpHl => 47
  | .cpN _ => 48
  | .incR _ => 49
  | .incHl => 50
  | .decR _ => 51
  | .decHl => 52
  | .daa => 53
  | .cpl => 54
  | .scf => 55
  | .ccf => 56
  | .addHlRr _ => 57
  | .incRr _ => 58
  | .decRr _ => 59
  | .addSpE _ => 60
  | .rlca => 61
  | .rrca => 62
  | .rla => 63
  | .rra => 64
  | .jpNn _ => 65
  | .jpCcNn _ _ => 66
  | .jpHl => 67
  | .jrE _ => 68
  | .jrCcE _ _ => 69
  | .callNn _ => 70
  | .callCcNn _ _ => 71
  | .ret => 72
  | .retCc _ => 73
  | .reti => 74
  | .rst _ => 75
  | .nop => 76
  | .halt => 77
  | .stop _ => 78
  | .di => 79
  | .ei => 80
  | .prefixCb _ => 81
  | .rlc _ => 82
  | .rrc _ => 83
  | .rl _ => 84
  | .rr _ => 85
  | .sla _ => 86
  | .sra _ => 87
  | .swap _ => 88
  | .srl _ => 89
  | .bitB _ _ => 90
  | .resB _ _ => 91
  | .setB _ _ => 92
  | .illegal _ => 93

/-- A row's columns `mask`, `match` and `excludes` (30_encoding.md R172). -/
structure TableRow where
  row : Nat
  mask : Byte
  pattern : Byte
  excludes : List Byte
deriving DecidableEq, Repr

/-- The byte selects the row (30_encoding.md R172). -/
def TableRow.selects (r : TableRow) (o : Byte) : Bool :=
  (o &&& r.mask == r.pattern) && !r.excludes.contains o

/-- The rows of opcode_table.json whose `prefix` is null, but for (illegal), which lists its bytes, part 1. -/
def firstRows1 : List TableRow :=
  [⟨0, 0xC0, 0x40, [0x46, 0x4E, 0x56, 0x5E, 0x66, 0x6E, 0x70, 0x71, 0x72, 0x73, 0x74, 0x75, 0x76, 0x77, 0x7E]⟩,
   ⟨1, 0xC7, 0x46, [0x76]⟩,
   ⟨2, 0xF8, 0x70, [0x76]⟩,
   ⟨3, 0xC7, 0x06, [0x36]⟩,
   ⟨4, 0xFF, 0x36, []⟩,
   ⟨5, 0xFF, 0x0A, []⟩,
   ⟨6, 0xFF, 0x1A, []⟩,
   ⟨7, 0xFF, 0x02, []⟩,
   ⟨8, 0xFF, 0x12, []⟩,
   ⟨9, 0xFF, 0x2A, []⟩,
   ⟨10, 0xFF, 0x3A, []⟩,
   ⟨11, 0xFF, 0x22, []⟩,
   ⟨12, 0xFF, 0x32, []⟩,
   ⟨13, 0xFF, 0xFA, []⟩,
   ⟨14, 0xFF, 0xEA, []⟩,
   ⟨15, 0xFF, 0xF0, []⟩,
   ⟨16, 0xFF, 0xE0, []⟩,
   ⟨17, 0xFF, 0xF2, []⟩,
   ⟨18, 0xFF, 0xE2, []⟩,
   ⟨19, 0xCF, 0x01, []⟩,
   ⟨20, 0xFF, 0x08, []⟩]

/-- The rows of opcode_table.json whose `prefix` is null, but for (illegal), which lists its bytes, part 2. -/
def firstRows2 : List TableRow :=
  [⟨21, 0xFF, 0xF9, []⟩,
   ⟨22, 0xCF, 0xC5, []⟩,
   ⟨23, 0xCF, 0xC1, []⟩,
   ⟨24, 0xFF, 0xF8, []⟩,
   ⟨25, 0xF8, 0x80, [0x86]⟩,
   ⟨26, 0xFF, 0x86, []⟩,
   ⟨27, 0xFF, 0xC6, []⟩,
   ⟨28, 0xF8, 0x88, [0x8E]⟩,
   ⟨29, 0xFF, 0x8E, []⟩,
   ⟨30, 0xFF, 0xCE, []⟩,
   ⟨31, 0xF8, 0x90, [0x96]⟩,
   ⟨32, 0xFF, 0x96, []⟩,
   ⟨33, 0xFF, 0xD6, []⟩,
   ⟨34, 0xF8, 0x98, [0x9E]⟩,
   ⟨35, 0xFF, 0x9E, []⟩,
   ⟨36, 0xFF, 0xDE, []⟩,
   ⟨37, 0xF8, 0xA0, [0xA6]⟩,
   ⟨38, 0xFF, 0xA6, []⟩,
   ⟨39, 0xFF, 0xE6, []⟩,
   ⟨40, 0xF8, 0xA8, [0xAE]⟩,
   ⟨41, 0xFF, 0xAE, []⟩]

/-- The rows of opcode_table.json whose `prefix` is null, but for (illegal), which lists its bytes, part 3. -/
def firstRows3 : List TableRow :=
  [⟨42, 0xFF, 0xEE, []⟩,
   ⟨43, 0xF8, 0xB0, [0xB6]⟩,
   ⟨44, 0xFF, 0xB6, []⟩,
   ⟨45, 0xFF, 0xF6, []⟩,
   ⟨46, 0xF8, 0xB8, [0xBE]⟩,
   ⟨47, 0xFF, 0xBE, []⟩,
   ⟨48, 0xFF, 0xFE, []⟩,
   ⟨49, 0xC7, 0x04, [0x34]⟩,
   ⟨50, 0xFF, 0x34, []⟩,
   ⟨51, 0xC7, 0x05, [0x35]⟩,
   ⟨52, 0xFF, 0x35, []⟩,
   ⟨53, 0xFF, 0x27, []⟩,
   ⟨54, 0xFF, 0x2F, []⟩,
   ⟨55, 0xFF, 0x37, []⟩,
   ⟨56, 0xFF, 0x3F, []⟩,
   ⟨57, 0xCF, 0x09, []⟩,
   ⟨58, 0xCF, 0x03, []⟩,
   ⟨59, 0xCF, 0x0B, []⟩,
   ⟨60, 0xFF, 0xE8, []⟩,
   ⟨61, 0xFF, 0x07, []⟩,
   ⟨62, 0xFF, 0x0F, []⟩]

/-- The rows of opcode_table.json whose `prefix` is null, but for (illegal), which lists its bytes, part 4. -/
def firstRows4 : List TableRow :=
  [⟨63, 0xFF, 0x17, []⟩,
   ⟨64, 0xFF, 0x1F, []⟩,
   ⟨65, 0xFF, 0xC3, []⟩,
   ⟨66, 0xE7, 0xC2, []⟩,
   ⟨67, 0xFF, 0xE9, []⟩,
   ⟨68, 0xFF, 0x18, []⟩,
   ⟨69, 0xE7, 0x20, []⟩,
   ⟨70, 0xFF, 0xCD, []⟩,
   ⟨71, 0xE7, 0xC4, []⟩,
   ⟨72, 0xFF, 0xC9, []⟩,
   ⟨73, 0xE7, 0xC0, []⟩,
   ⟨74, 0xFF, 0xD9, []⟩,
   ⟨75, 0xC7, 0xC7, []⟩,
   ⟨76, 0xFF, 0x00, []⟩,
   ⟨77, 0xFF, 0x76, []⟩,
   ⟨78, 0xFF, 0x10, []⟩,
   ⟨79, 0xFF, 0xF3, []⟩,
   ⟨80, 0xFF, 0xFB, []⟩,
   ⟨81, 0xFF, 0xCB, []⟩]

/-- The first-byte rows, with (illegal) as one row per listed byte (30_encoding.md R172). -/
def firstRows : List TableRow :=
  firstRows1 ++ firstRows2 ++ firstRows3 ++ firstRows4 ++ illegalOpcodes.map (fun o => ⟨93, 0xFF, o, []⟩)

/-- The rows of opcode_table.json whose `prefix` is 0xCB. -/
def cbRows : List TableRow :=
  [⟨82, 0xF8, 0x00, []⟩,
   ⟨83, 0xF8, 0x08, []⟩,
   ⟨84, 0xF8, 0x10, []⟩,
   ⟨85, 0xF8, 0x18, []⟩,
   ⟨86, 0xF8, 0x20, []⟩,
   ⟨87, 0xF8, 0x28, []⟩,
   ⟨88, 0xF8, 0x30, []⟩,
   ⟨89, 0xF8, 0x38, []⟩,
   ⟨90, 0xC0, 0x40, []⟩,
   ⟨91, 0xC0, 0x80, []⟩,
   ⟨92, 0xC0, 0xC0, []⟩]

/-! ## The host's view of a table word -/

/-- Byte `k` of the number `w` cut to `nbits` bits: the first byte is the least significant one. -/
def wordByte (nbits w k : Nat) : Byte := BitVec.ofNat 8 ((w % 2 ^ nbits) >>> (8 * k))

/-- The instruction the decoder reads from the bits `w`, numbered as spec/opcode_table.json numbers them, every bit above
`nbits` zero. -/
def decodeTableWord (nbits w : Nat) : Option Instr :=
  match decode [wordByte nbits w 0, wordByte nbits w 1, wordByte nbits w 2] with
  | .ok r => some r.1
  | .error _ => none

end Sys2Proof
end

