-- ==== Sys2Proof/Machine/State.lean ====
section
/-! DEFINITION. The state of the block as plain data, the reasons a step stops, and the state after reset. -/

namespace Sys2Proof.Machine

/-- The four flags of `F`: bits 7 to 4 are Z, N, H, C, and bits 3:0 always read 0 (10_state.md R32, R36), so the four
bits are the whole register. The byte is the view `Flags.toByte` (Machine/Ops.lean). -/
structure Flags where
  z : Bool
  n : Bool
  h : Bool
  c : Bool
deriving DecidableEq, Repr

/-- The register file but for IME (10_state.md R30). -/
structure Regs where
  a : Byte
  f : Flags
  b : Byte
  c : Byte
  d : Byte
  e : Byte
  h : Byte
  l : Byte
  sp : Word
  pc : Word
deriving DecidableEq, Repr

/-- The kind of a bus access, recorded in a fatal (20_memory.md R90, R98). -/
inductive Access where
  | read
  | write
  | fetch
deriving DecidableEq, Repr

/-- The fatal record `(kind, info)` (10_state.md R42, 60_exceptions.md R402). -/
inductive FatalRecord where
  /-- Kind 1: an illegal first byte, or a form outside `P_IMPLEMENTED` (then `cb` holds the second byte of a CB form);
  the opcode byte or bytes and the origin. -/
  | unknownOpcode (op : Byte) (cb : Option Byte) (origin : Word)
  /-- Kind 2: an access in a forbidden zone; the address and the access kind. -/
  | forbiddenAddress (addr : Word) (kind : Access)
  /-- Kind 3: a RomOnly read at an address not below `ROM_BYTES`; the address. -/
  | romOutOfBounds (addr : Word)
  /-- Kind 4: `STOP`; the origin. -/
  | unsupportedStop (origin : Word)
  /-- Kind 5: `HALT` with IME = 0 and an enabled request pending; the origin. -/
  | haltBug (origin : Word)
  /-- Kind 6: the I/O collaborator refused an access; the address. -/
  | io (addr : Word)
deriving DecidableEq, Repr

/-- The timer (10_state.md R45). `DIV` is the high byte of `div`, no storage of its own (R46). -/
structure Timer where
  /-- `DIVCNT`. -/
  div : Word
  tima : Byte
  tma : Byte
  tac : BitVec 3
deriving DecidableEq, Repr

/-- The registers of an MBC1 controller (10_state.md R47). -/
structure Mbc1 where
  ramEn : Bool
  romb : BitVec 5
  bank2 : BitVec 2
  mode : BitVec 1
deriving DecidableEq, Repr

/-- The bank controller, fixed at construction (20_memory.md R110). RomOnly holds no register (10_state.md R48). -/
inductive Controller where
  | romOnly
  | mbc1 (m : Mbc1)
deriving DecidableEq, Repr

/-- The cartridge: the controller, the ROM (`P_ROM`, `ROM_BYTES`) and the cartridge RAM (`CRAM`, `P_RAM_BYTES`), each a
list of cells keyed by the offset into the array (10_state.md R49, R51; 00_scope.md R8). -/
structure Cart where
  ctl : Controller
  romBytes : Nat
  rom : List Host.Cell
  ramBytes : Nat
  ram : List Host.Cell
deriving DecidableEq, Repr

/-- What the I/O collaborator `P_IO` does with one access (20_memory.md R96): it answers (a write takes any answer as
acceptance), or it refuses. -/
inductive IoAnswer where
  | answer (v : Byte)
  | refuse
deriving DecidableEq, Repr

/-- What the external agents choose in one iteration of the step loop, within the frame condition of 60_exceptions.md
R442: the bytes DMA writes to OAM, the interrupt bits each agent sets, and the frame-ready signal. -/
structure AgentTurn where
  dmaOam : List (Fin 160 × Byte)
  dmaIrq : BitVec 5
  audioIrq : BitVec 5
  videoIrq : BitVec 5
  frameReady : Bool
  /-- The serial and joypad collaborators, which act after the timer (R442). -/
  collabIrq : BitVec 5
deriving DecidableEq, Repr

/-- An entry of the construction log (60_exceptions.md R404). -/
inductive Warning where
  | saveRamSize
deriving DecidableEq, Repr

/-- The state of the block: everything 10_state.md gives it, the parameters of R51 as fields no step writes (log 15), and
the model's own fields for the external agents (log 5, 7). -/
structure State where
  /-- The register file (10_state.md R30 to R38). -/
  regs : Regs
  /-- Interrupt master enable (10_state.md R39). -/
  ime : Bool
  /-- Set by EI until it commits (10_state.md R40). -/
  imePending : Bool
  /-- While set, no instruction is fetched (10_state.md R41). -/
  halted : Bool
  /-- The fatal state (10_state.md R42, 60_exceptions.md R400). -/
  fatal : Option FatalRecord
  /-- The enable bits IE (10_state.md R44). -/
  ie : BitVec 5
  /-- The request bits IF (10_state.md R44). -/
  ifl : BitVec 5
  /-- The timer (10_state.md R45). -/
  timer : Timer
  /-- VRAM, WRAM, OAM and HRAM, keyed by CPU address (10_state.md R49, 20_memory.md R81; log 16). -/
  mem : List Host.Cell
  /-- The cartridge (10_state.md R47 to R49). -/
  cart : Cart
  /-- The M-cycles the last step returned; none where it returned no count (40_engine.md R190, R195, R198; log 14). -/
  elapsed : Option Nat
  /-- The last iteration of the loop ended its Tick (40_engine.md R208; log 20). -/
  tickEnded : Bool
  /-- The construction log (60_exceptions.md R404). -/
  log : List Warning
  /-- The opcode-table rows outside `P_IMPLEMENTED` (00_scope.md R12; log 10). -/
  unimplemented : List Nat
  /-- What `P_IO` does with the coming unowned accesses, oldest first (the model's own; log 5). -/
  ioScript : List IoAnswer
  /-- How many free values of `P_IO` have been drawn (the model's own; log 5). -/
  draws : Nat
  /-- What the external agents choose in the coming iterations, oldest first (the model's own; log 7). -/
  agents : List AgentTurn
deriving DecidableEq, Repr

/-- Why the machine makes no step. -/
inductive Fault where
  /-- Raised by `step`, in a state whose FATAL is set: the state is terminal and no step exists
  (60_exceptions.md R400, 40_engine.md R191). Safe: the block itself goes no further. -/
  | terminal (f : FatalRecord)
deriving DecidableEq, Repr

/-- Why an instruction has no meaning in the model. -/
inductive Refusal where
  /-- For an arm of `exec` without a meaning yet. No arm raises it: every instruction has its meaning. Safe. -/
  | notModelled (mnemonic : String)
deriving DecidableEq, Repr

/-- What an instruction's meaning, and a step, answers. -/
abbrev Result := Host.Outcome State Fault Refusal

/-- The block after construction (70_reset_and_hazards.md R460 to R466). Registers, interrupt controller, timer and
hidden state hold the spec's values. The spec takes the cartridge, `P_INIT_MEM` and `P_DIV_INIT` as parameters: here a
RomOnly cartridge of 32 KiB of 0x00 (log 2), memory with nothing listed (log 3) and 0x0000 (log 4).
`Sys2Proof.Machine.construct` gives the state for every other choice. -/
def State.reset : State where
  regs :=
    { a := 0x01, f := { z := true, n := false, h := true, c := true }, b := 0x00, c := 0x13, d := 0x00, e := 0xD8,
      h := 0x01, l := 0x4D, sp := 0xFFFE, pc := 0x0100 }
  ime := false
  imePending := false
  halted := false
  fatal := none
  ie := 0x00
  ifl := 0x01
  timer := { div := Config.divInit, tima := 0x00, tma := 0x00, tac := 0b000 }
  mem := []
  cart := { ctl := .romOnly, romBytes := Config.resetRomBytes, rom := [], ramBytes := 0, ram := [] }
  elapsed := none
  tickEnded := false
  log := []
  unimplemented := []
  ioScript := []
  draws := 0
  agents := []

end Sys2Proof.Machine
end

