-- ==== Sys2Proof/Machine/Memory.lean ====
section
/-! DEFINITION. Byte arrays as sorted lists of cells: reading, writing, and the canonical form (log 16). -/

namespace Sys2Proof.Machine

/-- The byte at key `a`; an unlisted key reads as `Config.unlistedByte` (log 3). -/
def memRead : List Host.Cell → Nat → Byte
  | [], _ => Config.unlistedByte
  | c :: m, a => if c.1 = a then c.2 else memRead m a

/-- The list without the key `a`. -/
def memErase (m : List Host.Cell) (a : Nat) : List Host.Cell := m.filter (fun c => c.1 != a)

/-- Put a cell before the first greater key. -/
def memInsert : List Host.Cell → Nat → Byte → List Host.Cell
  | [], a, v => [(a, v)]
  | c :: m, a, v => if a < c.1 then (a, v) :: c :: m else c :: memInsert m a v

/-- Store `v` at key `a`, keeping the canonical form: the unlisted value is not listed. -/
def memWrite (m : List Host.Cell) (a : Nat) (v : Byte) : List Host.Cell :=
  if v = Config.unlistedByte then memErase m a else memInsert (memErase m a) a v

/-- The canonical form: keys strictly rising, and no cell equal to what an unlisted key reads as. -/
def memWf : List Host.Cell → Bool
  | [] => true
  | c :: m => c.2 != Config.unlistedByte && m.all (fun x => c.1 < x.1) && memWf m

/-- Every key satisfies `p`. -/
def memKeys (p : Nat → Bool) (m : List Host.Cell) : Bool := m.all (fun c => p c.1)

/-- Store a list of cells, in order. -/
def memWriteAll (m : List Host.Cell) : List Host.Cell → List Host.Cell
  | [] => m
  | c :: cs => memWriteAll (memWrite m c.1 c.2) cs

end Sys2Proof.Machine
end

