-- ==== Sys2Proof/Machine/Cartridge.lean ====
section
/-! DEFINITION. The bank controllers RomOnly and MBC1 (20_memory.md R110 to R120). -/

namespace Sys2Proof.Machine

/-- The offset into ROM that the low window 0x0000 to 0x3FFF reads under MBC1 (20_memory.md R117). -/
def Mbc1.lowOffset (m : Mbc1) (romBytes a : Nat) : Nat :=
  let bank := if m.mode = 1 then m.bank2.toNat <<< 5 else 0
  (bank * 0x4000 + a) % romBytes

/-- The ROM bank of the switchable window: `BANK2` in both modes, and a stored 0 acts as 1 (20_memory.md R118, R47). -/
def Mbc1.highBank (m : Mbc1) : Nat :=
  let lo5 := if m.romb = 0 then 1 else m.romb.toNat
  (m.bank2.toNat <<< 5) ||| lo5

/-- The offset into ROM that the switchable window 0x4000 to 0x7FFF reads (20_memory.md R118). -/
def Mbc1.highOffset (m : Mbc1) (romBytes a : Nat) : Nat :=
  (m.highBank * 0x4000 + a % 0x4000) % romBytes

/-- The offset into CRAM of the window 0xA000 to 0xBFFF; RAM bank 0 in MODE 0 (20_memory.md R119, R120). -/
def Mbc1.ramOffset (m : Mbc1) (ramBytes a : Nat) : Nat :=
  let rb := if m.mode = 1 then m.bank2.toNat else 0
  (rb * 0x2000 + a % 0x2000) % ramBytes

/-- The value a disabled or absent cartridge RAM reads as (00_scope.md glossary, 20_memory.md R119). -/
def openBus : Byte := 0xFF

/-- `Cart.read(a)` for `a` in 0x0000 to 0x7FFF or 0xA000 to 0xBFFF (20_memory.md R110): the byte, or the fatal of a RomOnly
read out of bounds (R111). -/
def Cart.read (k : Cart) (a : Word) : Except FatalRecord Byte :=
  match k.ctl with
  | .romOnly =>
    if a.toNat < k.romBytes then .ok (memRead k.rom a.toNat) else .error (.romOutOfBounds a)
  | .mbc1 m =>
    if a.toNat ≤ 0x3FFF then .ok (memRead k.rom (m.lowOffset k.romBytes a.toNat))
    else if a.toNat ≤ 0x7FFF then .ok (memRead k.rom (m.highOffset k.romBytes a.toNat))
    else if m.ramEn = false ∨ k.ramBytes = 0 then .ok openBus
    else .ok (memRead k.ram (m.ramOffset k.ramBytes a.toNat))

/-- The MBC1 registers after a write of `v` at a ROM address (20_memory.md R113 to R116). -/
def Mbc1.writeReg (m : Mbc1) (a : Word) (v : Byte) : Mbc1 :=
  if a.toNat ≤ 0x1FFF then { m with ramEn := v.setWidth 4 == 0xA#4 }
  else if a.toNat ≤ 0x3FFF then { m with romb := v.setWidth 5 }
  else if a.toNat ≤ 0x5FFF then { m with bank2 := v.setWidth 2 }
  else { m with mode := v.setWidth 1 }

/-- `Cart.write(a, v)` (20_memory.md R110): nothing under RomOnly (R112); under MBC1 a register (R113 to R116) or a byte of
CRAM, dropped when the RAM is disabled or absent (R120). -/
def Cart.write (k : Cart) (a : Word) (v : Byte) : Cart :=
  match k.ctl with
  | .romOnly => k
  | .mbc1 m =>
    if a.toNat ≤ 0x7FFF then { k with ctl := .mbc1 (m.writeReg a v) }
    else if m.ramEn = false ∨ k.ramBytes = 0 then k
    else { k with ram := memWrite k.ram (m.ramOffset k.ramBytes a.toNat) v }

/-- Put a byte of the program where the CPU fetches `a`: the ROM or CRAM cell the controller maps there, the RAM enabled for
it. It is no access of the block: it stands for loading the cartridge from outside (log 21). -/
def Cart.place (k : Cart) (a : Word) (v : Byte) : Cart :=
  match k.ctl with
  | .romOnly => { k with rom := memWrite k.rom a.toNat v }
  | .mbc1 m =>
    if a.toNat ≤ 0x3FFF then { k with rom := memWrite k.rom (m.lowOffset k.romBytes a.toNat) v }
    else if a.toNat ≤ 0x7FFF then { k with rom := memWrite k.rom (m.highOffset k.romBytes a.toNat) v }
    else
      { k with
        ctl := .mbc1 { m with ramEn := true }
        ram := memWrite k.ram (m.ramOffset k.ramBytes a.toNat) v }

end Sys2Proof.Machine
end

