-- ==== Sys2Proof/Machine/Ops.lean ====
section
/-! DEFINITION. The named operations over the state: registers and pairs, raising a fatal, the bus router, 16-bit accesses
and the stack, the interrupt controller, taking an interrupt and returning from one. -/

namespace Sys2Proof.Machine

/-! ## Registers -/

/-- `F` as a byte: Z N H C in bits 7:4, bits 3:0 zero (10_state.md R32, R36). -/
def Flags.toByte (f : Flags) : Byte :=
  BitVec.ofBool f.z ++ BitVec.ofBool f.n ++ BitVec.ofBool f.h ++ BitVec.ofBool f.c ++ 0b0000#4

/-- What a write of `v` to `F` stores: `v & 0xF0` (10_state.md R32). -/
def Flags.ofByte (v : Byte) : Flags where
  z := v.getLsbD 7
  n := v.getLsbD 6
  h := v.getLsbD 5
  c := v.getLsbD 4

/-- `x[r]` (00_scope.md R15, 10_state.md R31). -/
def Regs.get (g : Regs) : R8 → Byte
  | .b => g.b
  | .c => g.c
  | .d => g.d
  | .e => g.e
  | .h => g.h
  | .l => g.l
  | .a => g.a

/-- `x[r] <- v` (00_scope.md R15, 10_state.md R31). -/
def Regs.set (g : Regs) (r : R8) (v : Byte) : Regs :=
  match r with
  | .b => { g with b := v }
  | .c => { g with c := v }
  | .d => { g with d := v }
  | .e => { g with e := v }
  | .h => { g with h := v }
  | .l => { g with l := v }
  | .a => { g with a := v }

/-- `x[pp]`, with `SP` for 11 (10_state.md R33, 30_encoding.md R158). -/
def Regs.getRR (g : Regs) : RR → Word
  | .bc => wordOf g.b g.c
  | .de => wordOf g.d g.e
  | .hl => wordOf g.h g.l
  | .sp => g.sp

/-- `x[pp] <- v`: both halves in one update (10_state.md R34). -/
def Regs.setRR (g : Regs) (p : RR) (v : Word) : Regs :=
  match p with
  | .bc => { g with b := hiByte v, c := loByte v }
  | .de => { g with d := hiByte v, e := loByte v }
  | .hl => { g with h := hiByte v, l := loByte v }
  | .sp => { g with sp := v }

/-- `x[qq]`, with `AF` for 11 (10_state.md R33, 30_encoding.md R159). -/
def Regs.getQQ (g : Regs) : QQ → Word
  | .bc => wordOf g.b g.c
  | .de => wordOf g.d g.e
  | .hl => wordOf g.h g.l
  | .af => wordOf g.a g.f.toByte

/-- `x[qq] <- v`; for `AF` the low byte is masked (10_state.md R34). -/
def Regs.setQQ (g : Regs) (q : QQ) (v : Word) : Regs :=
  match q with
  | .bc => { g with b := hiByte v, c := loByte v }
  | .de => { g with d := hiByte v, e := loByte v }
  | .hl => { g with h := hiByte v, l := loByte v }
  | .af => { g with a := hiByte v, f := Flags.ofByte (loByte v) }

/-- `x[r]` of a state. -/
def State.getR8 (s : State) (r : R8) : Byte := s.regs.get r

/-- `x[r] <- v` on a state. -/
def State.setR8 (s : State) (r : R8) (v : Byte) : State := { s with regs := s.regs.set r v }

/-- `x[pp]` of a state. -/
def State.getRR (s : State) (p : RR) : Word := s.regs.getRR p

/-- `x[pp] <- v` on a state. -/
def State.setRR (s : State) (p : RR) (v : Word) : State := { s with regs := s.regs.setRR p v }

/-- `x[qq]` of a state. -/
def State.getQQ (s : State) (q : QQ) : Word := s.regs.getQQ q

/-- `x[qq] <- v` on a state. -/
def State.setQQ (s : State) (q : QQ) (v : Word) : State := { s with regs := s.regs.setQQ q v }

/-- `x[HL]`, the address of the `(HL)` operand (30_encoding.md R163). -/
def State.hl (s : State) : Word := s.regs.getRR .hl

/-- A write of the flags (10_state.md R37). -/
def State.setF (s : State) (f : Flags) : State := { s with regs := { s.regs with f := f } }

/-- `sp <- v` (00_scope.md R15). -/
def State.setSp (s : State) (v : Word) : State := { s with regs := { s.regs with sp := v } }

/-- `pc <- v` (00_scope.md R15). -/
def State.setPc (s : State) (v : Word) : State := { s with regs := { s.regs with pc := v } }

/-- `pc <- origin +16 length`: PC holds `next` before the operation runs (40_engine.md R194). -/
def State.advance (s : State) (n : Word) : State := s.setPc (s.regs.pc + n)

/-! ## Results of operations, and raising a fatal -/

/-- What an operation of a step answers: a value and the state, or the fatal state (00_scope.md R17). -/
inductive Res (α : Type) where
  | ok (v : α) (s : State)
  | fatal (s : State)
deriving Repr

/-- The state of a result, whichever it is: the writes made before a raise stay (60_exceptions.md R401). -/
def Res.state {α : Type} : Res α → State
  | .ok _ s => s
  | .fatal s => s

/-- Go on from a result; after a fatal nothing more is done (00_scope.md R17). -/
def Res.bind {α β : Type} (r : Res α) (k : α → State → Res β) : Res β :=
  match r with
  | .ok v s => k v s
  | .fatal s => .fatal s

/-- `raise Fatal(kind, info)`: the one entry into the fatal state (60_exceptions.md R400). FATAL is set, the step returns no
cycle count, and everything else stays as the step had it, PC included (R401). -/
def State.raise (s : State) (f : FatalRecord) : State := { s with fatal := some f, elapsed := none }

/-- `cycles <- m`: the step returns `m` (00_scope.md R18, 40_engine.md R195). -/
def State.setElapsed (s : State) (m : Nat) : State := { s with elapsed := some m }

/-- The end of a meaning that raised nothing. -/
def State.done (s : State) (m : Nat) : Result := .next (s.setElapsed m)

/-- The state an operation leaves, with the cost set where nothing was raised (40_engine.md R195, R198). -/
def Res.settle {α : Type} (m : Nat) : Res α → State
  | .ok _ s => s.setElapsed m
  | .fatal s => s

/-- The end of a meaning that may have raised a fatal: both ways the block is in a next state (60_exceptions.md R400;
log 1). -/
def Res.done {α : Type} (r : Res α) (m : Nat) : Result := .next (r.settle m)

/-! ## The address map and the I/O zone -/

/-- The zones of the address map (20_memory.md R81). -/
inductive Zone where
  | rom | vram | cartRam | wram | forbidden | oam | io | hram | ie
deriving DecidableEq, Repr

/-- The zone of an address (20_memory.md R81, R82). -/
def zoneOf (a : Word) : Zone :=
  let n := a.toNat
  if n ≤ 0x7FFF then .rom
  else if n ≤ 0x9FFF then .vram
  else if n ≤ 0xBFFF then .cartRam
  else if n ≤ 0xDFFF then .wram
  else if n ≤ 0xFDFF then .forbidden
  else if n ≤ 0xFE9F then .oam
  else if n ≤ 0xFEFF then .forbidden
  else if n ≤ 0xFF7F then .io
  else if n ≤ 0xFFFE then .hram
  else .ie

/-- An address of VRAM, WRAM, OAM or HRAM (20_memory.md R81, 10_state.md R49). -/
def isArrayKey (a : Nat) : Bool :=
  decide (0x8000 ≤ a ∧ a ≤ 0x9FFF) || decide (0xC000 ≤ a ∧ a ≤ 0xDFFF) || decide (0xFE00 ≤ a ∧ a ≤ 0xFE9F) ||
    decide (0xFF80 ≤ a ∧ a ≤ 0xFFFE)

/-- The five I/O addresses the block owns (20_memory.md R96). -/
inductive IoReg where
  | div | tima | tma | tac | ifl
deriving DecidableEq, Repr

/-- Which register the block owns at an I/O address; none: the address is `P_IO`'s (20_memory.md R96). -/
def ioRegOf (a : Word) : Option IoReg :=
  if a = 0xFF04#16 then some .div
  else if a = 0xFF05#16 then some .tima
  else if a = 0xFF06#16 then some .tma
  else if a = 0xFF07#16 then some .tac
  else if a = 0xFF0F#16 then some .ifl
  else none

/-- A read of an owned I/O register; bits not stored read 0 (20_memory.md R96; 60_exceptions.md R413, R434, R437). -/
def State.readIoReg (s : State) : IoReg → Byte
  | .div => hiByte s.timer.div
  | .tima => s.timer.tima
  | .tma => s.timer.tma
  | .tac => s.timer.tac.setWidth 8
  | .ifl => s.ifl.setWidth 8

/-- A write of an owned I/O register (20_memory.md R96; 60_exceptions.md R413, R435, R436). -/
def State.writeIoReg (s : State) (r : IoReg) (v : Byte) : State :=
  match r with
  | .div => { s with timer := { s.timer with div := 0x0000 } }
  | .tima => { s with timer := { s.timer with tima := v } }
  | .tma => { s with timer := { s.timer with tma := v } }
  | .tac => { s with timer := { s.timer with tac := v.setWidth 3 } }
  | .ifl => { s with ifl := v.setWidth 5 }

/-- `P_IO.read(a)` (20_memory.md R96): the script's next answer or refusal; where the script is empty, a free value
(log 5, 6). -/
def State.pIoRead (s : State) (a : Word) : Res Byte :=
  match s.ioScript with
  | .answer v :: rest => .ok v { s with ioScript := rest }
  | .refuse :: rest => .fatal ({ s with ioScript := rest }.raise (.io a))
  | [] => .ok (Config.ioByte s.draws a) { s with draws := s.draws + 1 }

/-- `P_IO.write(a, v)` (20_memory.md R96): accepted or refused by the script's next entry; where the script is empty,
accepted (log 6). The block's own state is unchanged (93_implementation_defined.md row 6). -/
def State.pIoWrite (s : State) (a : Word) : Res Unit :=
  match s.ioScript with
  | .answer _ :: rest => .ok () { s with ioScript := rest }
  | .refuse :: rest => .fatal ({ s with ioScript := rest }.raise (.io a))
  | [] => .ok () s

/-- `IoRead(a)` (20_memory.md R96). -/
def State.ioRead (s : State) (a : Word) : Res Byte :=
  match ioRegOf a with
  | some r => .ok (s.readIoReg r) s
  | none => s.pIoRead a

/-- `IoWrite(a, v)` (20_memory.md R96). -/
def State.ioWrite (s : State) (a : Word) (v : Byte) : Res Unit :=
  match ioRegOf a with
  | some r => .ok () (s.writeIoReg r v)
  | none => s.pIoWrite a

/-! ## The bus -/

/-- A read of the cartridge on the bus (20_memory.md R90, R111). -/
def State.cartRead (s : State) (a : Word) : Res Byte :=
  match s.cart.read a with
  | .ok v => .ok v s
  | .error f => .fatal (s.raise f)

/-- `BusRead(a, kind)` (20_memory.md R90), no DMA transfer being active (R134; log 8). -/
def State.busRead (s : State) (a : Word) (kind : Access) : Res Byte :=
  match zoneOf a with
  | .rom => s.cartRead a
  | .vram => .ok (memRead s.mem a.toNat) s
  | .cartRam => s.cartRead a
  | .wram => .ok (memRead s.mem a.toNat) s
  | .forbidden => .fatal (s.raise (.forbiddenAddress a kind))
  | .oam => .ok (memRead s.mem a.toNat) s
  | .io => s.ioRead a
  | .hram => .ok (memRead s.mem a.toNat) s
  | .ie => .ok (s.ie.setWidth 8) s

/-- A store into the block's own arrays VRAM, WRAM, OAM and HRAM (20_memory.md R92 to R95). -/
def State.storeMem (s : State) (a : Word) (v : Byte) : State := { s with mem := memWrite s.mem a.toNat v }

/-- A write of the cartridge on the bus (20_memory.md R91). -/
def State.cartWrite (s : State) (a : Word) (v : Byte) : State := { s with cart := s.cart.write a v }

/-- `IE <- v & 0x1F` (20_memory.md R97). -/
def State.writeIe (s : State) (v : Byte) : State := { s with ie := v.setWidth 5 }

/-- `BusWrite(a, v)` (20_memory.md R91), no DMA transfer being active (R134; log 8). -/
def State.busWrite (s : State) (a : Word) (v : Byte) : Res Unit :=
  match zoneOf a with
  | .rom => .ok () (s.cartWrite a v)
  | .vram => .ok () (s.storeMem a v)
  | .cartRam => .ok () (s.cartWrite a v)
  | .wram => .ok () (s.storeMem a v)
  | .forbidden => .fatal (s.raise (.forbiddenAddress a .write))
  | .oam => .ok () (s.storeMem a v)
  | .io => s.ioWrite a v
  | .hram => .ok () (s.storeMem a v)
  | .ie => .ok () (s.writeIe v)

/-- `MemRead(a, 1)` (20_memory.md R90). -/
def State.read8 (s : State) (a : Word) : Res Byte := s.busRead a .read

/-- `MemWrite(a, 1, v)` (20_memory.md R91). -/
def State.write8 (s : State) (a : Word) (v : Byte) : Res Unit := s.busWrite a v

/-- `MemRead(a, 2)`: little-endian, the byte at `a` first, the second address wrapping (20_memory.md R100). -/
def State.read16 (s : State) (a : Word) : Res Word :=
  (s.read8 a).bind fun lo s1 => (s1.read8 (a + 1)).bind fun hi s2 => .ok (wordOf hi lo) s2

/-- `MemWrite(a, 2, v)`: the low byte at `a` first (20_memory.md R100). -/
def State.write16 (s : State) (a : Word) (v : Word) : Res Unit :=
  (s.write8 a (loByte v)).bind fun _ s1 => s1.write8 (a + 1) (hiByte v)

/-- What a read of `a` gives, where the read is the block's own and cannot be refused; none: a fatal zone, a RomOnly read out
of bounds, or an address of `P_IO`. It changes nothing (20_memory.md R99). -/
def State.peek (s : State) (a : Word) : Option Byte :=
  match zoneOf a with
  | .rom => (s.cart.read a).toOption
  | .vram => some (memRead s.mem a.toNat)
  | .cartRam => (s.cart.read a).toOption
  | .wram => some (memRead s.mem a.toNat)
  | .forbidden => none
  | .oam => some (memRead s.mem a.toNat)
  | .io => (ioRegOf a).map s.readIoReg
  | .hram => some (memRead s.mem a.toNat)
  | .ie => some (s.ie.setWidth 8)

/-! ## The stack -/

/-- `Push16(v)`: decrement, write the high byte; decrement, write the low byte (20_memory.md R103). -/
def State.push16 (s : State) (v : Word) : Res Unit :=
  let s1 := s.setSp (s.regs.sp - 1)
  (s1.write8 s1.regs.sp (hiByte v)).bind fun _ s2 =>
    let s3 := s2.setSp (s2.regs.sp - 1)
    s3.write8 s3.regs.sp (loByte v)

/-- `Pop16()`: read the low byte, increment; read the high byte, increment (20_memory.md R104). -/
def State.pop16 (s : State) : Res Word :=
  (s.read8 s.regs.sp).bind fun lo s1 =>
    let s2 := s1.setSp (s1.regs.sp + 1)
    (s2.read8 s2.regs.sp).bind fun hi s3 => .ok (wordOf hi lo) (s3.setSp (s3.regs.sp + 1))

/-! ## The interrupt controller -/

/-- The five sources in their fixed priority (60_exceptions.md R410). -/
inductive Source where
  | vblank | lcdStat | timer | serial | joypad
deriving DecidableEq, Repr

/-- The bit of a source in IF and IE (60_exceptions.md R410). -/
def Source.bit : Source → Nat
  | .vblank => 0
  | .lcdStat => 1
  | .timer => 2
  | .serial => 3
  | .joypad => 4

/-- The mask `1 << i` of a source (60_exceptions.md R411). -/
def Source.mask (i : Source) : BitVec 5 := 1#5 <<< i.bit

/-- The vector `0x0040 + 8 * i` (60_exceptions.md R410, R420). -/
def Source.vector (i : Source) : Word := 0x0040#16 + 8#16 * BitVec.ofNat 16 i.bit

/-- `SetIfBit(i)` (60_exceptions.md R411). -/
def State.setIfBit (s : State) (i : Source) : State := { s with ifl := s.ifl ||| i.mask }

/-- `ResetIfBit(i)` (60_exceptions.md R411). -/
def State.resetIfBit (s : State) (i : Source) : State := { s with ifl := s.ifl &&& ~~~i.mask }

/-- `SetIeBit(i)` (60_exceptions.md R411). -/
def State.setIeBit (s : State) (i : Source) : State := { s with ie := s.ie ||| i.mask }

/-- `ResetIeBit(i)` (60_exceptions.md R411). -/
def State.resetIeBit (s : State) (i : Source) : State := { s with ie := s.ie &&& ~~~i.mask }

/-- `IE & IF & 0x1F` (40_engine.md R191, 60_exceptions.md R416). -/
def State.pendingBits (s : State) : BitVec 5 := s.ie &&& s.ifl

/-- An interrupt is pending (60_exceptions.md R416). -/
def State.pending (s : State) : Bool := s.pendingBits != 0

/-- `GetRequestedInterrupt()`: the least bit of `IE & IF` (60_exceptions.md R415). -/
def State.requested (s : State) : Option Source :=
  if s.pendingBits.getLsbD 0 then some .vblank
  else if s.pendingBits.getLsbD 1 then some .lcdStat
  else if s.pendingBits.getLsbD 2 then some .timer
  else if s.pendingBits.getLsbD 3 then some .serial
  else if s.pendingBits.getLsbD 4 then some .joypad
  else none

/-! ## Taking an interrupt and returning from one -/

/-- `Dispatch()` for the source `i` chosen before any write (60_exceptions.md R420, R422): acknowledge the request, clear IME
and IME_PENDING, push PC, go to the vector; 5 M-cycles. A fatal of the push leaves PC as it was. -/
def State.takeInterrupt (s : State) (i : Source) : State :=
  let s1 := { s.resetIfBit i with ime := false, imePending := false }
  ((s1.push16 s1.regs.pc).bind fun _ s2 => .ok () (s2.setPc i.vector)).settle 5

/-- Return through the stack: `pc <- Pop16()` (47_control.md R358). -/
def State.popPc (s : State) : Res Unit := s.pop16.bind fun v s1 => .ok () (s1.setPc v)

/-- Return from an interrupt: `pc <- Pop16(); IME <- 1; IME_PENDING <- 0`, at once (47_control.md R360, 60_exceptions.md
R424). -/
def State.returnFromInterrupt (s : State) : Res Unit :=
  s.popPc.bind fun _ s1 => .ok () { s1 with ime := true, imePending := false }

end Sys2Proof.Machine
end

