-- ==== Sys2Proof/Machine/Timer.lean ====
section
/-! DEFINITION. The timer: one T-cycle, and a number of them (60_exceptions.md R430 to R433). -/

namespace Sys2Proof.Machine

/-- `SEL(TAC[1:0])`: the bit of DIVCNT whose falling edge counts (60_exceptions.md R431). -/
def timerBit (sel : BitVec 2) : Nat :=
  if sel = 0b00#2 then 9
  else if sel = 0b01#2 then 3
  else if sel = 0b10#2 then 5
  else 7

/-- `TAC[2]` (10_state.md R45). -/
def Timer.enabled (t : Timer) : Bool := t.tac.getLsbD 2

/-- The bit selected by `TAC[1:0]` (60_exceptions.md R431). -/
def Timer.selected (t : Timer) : Nat := timerBit (t.tac.setWidth 2)

/-- The selected bit falls when DIVCNT goes on by one (60_exceptions.md R430). -/
def Timer.edge (t : Timer) : Bool :=
  t.enabled && t.div.getLsbD t.selected && !(t.div + 1).getLsbD t.selected

/-- This tick wraps TIMA (60_exceptions.md R432). -/
def Timer.overflows (t : Timer) : Bool := t.edge && (t.tima + 1 == 0)

/-- The timer after one T-cycle: DIVCNT counts always; TIMA on a falling edge, reloaded from TMA in the same tick when it
wraps (60_exceptions.md R430, R432, R433). -/
def Timer.tick (t : Timer) : Timer :=
  { t with
    div := t.div + 1
    tima := if t.edge then (if t.tima + 1 == 0 then t.tma else t.tima + 1) else t.tima }

/-- `TimerTick()`: the timer, and the TIMER request on a wrap (60_exceptions.md R430, R432). -/
def State.timerTick (s : State) : State :=
  { s with
    timer := s.timer.tick
    ifl := if s.timer.overflows then s.ifl ||| Source.timer.mask else s.ifl }

/-- `for i in 1 .. t: TimerTick()` (40_engine.md R205, R207). -/
def State.timerTicks : Nat → State → State
  | 0, s => s
  | t + 1, s => State.timerTicks t s.timerTick

end Sys2Proof.Machine
end

