-- ==== Sys2Proof/Machine/Agents.lean ====
section
/-! DEFINITION. The external agents as the block sees them, each step of theirs within the frame condition of
60_exceptions.md R442; what they choose is the script held in State (log 7). -/

namespace Sys2Proof.Machine

/-- An iteration in which no agent acts, taken where the script is empty (log 7). -/
def AgentTurn.quiet : AgentTurn where
  dmaOam := []
  dmaIrq := 0
  audioIrq := 0
  videoIrq := 0
  frameReady := false
  collabIrq := 0

/-- The agents' choices for this iteration: the head of the script. -/
def State.agentTurn (s : State) : AgentTurn :=
  match s.agents with
  | [] => .quiet
  | t :: _ => t

/-- The bits of IF an external agent may set: 0, 1, 3 and 4 (60_exceptions.md R442). -/
def agentIrqMask : BitVec 5 := 0b11011#5

/-- An agent sets, never clears, bits of IF (60_exceptions.md R412, R442). -/
def State.agentIrq (s : State) (irq : BitVec 5) : State := { s with ifl := s.ifl ||| (irq &&& agentIrqMask) }

/-- The bytes DMA writes to OAM (60_exceptions.md R441, R442). -/
def oamWrites (m : List Host.Cell) : List (Fin 160 × Byte) → List Host.Cell
  | [] => m
  | w :: ws => oamWrites (memWrite m (0xFE00 + w.1.val) w.2) ws

/-- `P_PERIPH.dma.advance(t)` (40_engine.md R205, 60_exceptions.md R441). -/
def State.dmaAdvance (s : State) (t : AgentTurn) : State :=
  { s with mem := oamWrites s.mem t.dmaOam }.agentIrq t.dmaIrq

/-- `P_PERIPH.audio.advance(t)` (40_engine.md R205, 60_exceptions.md R440). -/
def State.audioAdvance (s : State) (t : AgentTurn) : State := s.agentIrq t.audioIrq

/-- `P_PERIPH.video.advance(t)`, but for its frame-ready signal (40_engine.md R205, 60_exceptions.md R440). -/
def State.videoAdvance (s : State) (t : AgentTurn) : State := s.agentIrq t.videoIrq

/-- The serial and joypad collaborators, at the peripherals' point (60_exceptions.md R442, R443). -/
def State.collabAdvance (s : State) (t : AgentTurn) : State := s.agentIrq t.collabIrq

/-- The loop reads the frame-ready signal, clears it, and ends the Tick when it was set (40_engine.md R205, R208). The signal
lives only from the video advance to this test, so the state keeps whether the Tick ended (log 20). -/
def State.frameTest (s : State) (t : AgentTurn) : State :=
  { s with tickEnded := t.frameReady, agents := s.agents.tail }

end Sys2Proof.Machine
end

