-- ==== Sys2Proof/Machine/Flags.lean ====
section
/-! DEFINITION. Every result and flag computation of the spec, as functions of operand values: exact sums in Nat, then
narrowed (43_alu8.md to 46_bit.md; 92 D43). -/

namespace Sys2Proof.Machine

/-- A flag or carry as 0 or 1. -/
def bit01 (c : Bool) : Nat := if c then 1 else 0

/-! ## 8-bit arithmetic and logic -/

/-- `A + x + c`: ADD has `c` = 0, ADC has the carry (43_alu8.md R281, R282). -/
def addWith (c : Nat) (a x : Byte) : Byte × Flags :=
  let s := a.toNat + x.toNat + c
  let r := BitVec.ofNat 8 s
  (r, { z := r == 0, n := false, h := decide (a.toNat % 16 + x.toNat % 16 + c > 0xF), c := decide (s > 0xFF) })

/-- `A - x - c`: SUB and CP have `c` = 0, SBC has the borrow (43_alu8.md R283, R284, R288). -/
def subWith (c : Nat) (a x : Byte) : Byte × Flags :=
  let r := a - x - BitVec.ofNat 8 c
  (r, { z := r == 0, n := true, h := decide (a.toNat % 16 < x.toNat % 16 + c), c := decide (a.toNat < x.toNat + c) })

/-- `ADD A,x` (43_alu8.md R281). -/
def aluAdd (a x : Byte) (_ : Flags) : Byte × Flags := addWith 0 a x

/-- `ADC A,x` (43_alu8.md R282). -/
def aluAdc (a x : Byte) (f : Flags) : Byte × Flags := addWith (bit01 f.c) a x

/-- `SUB x` (43_alu8.md R283). -/
def aluSub (a x : Byte) (_ : Flags) : Byte × Flags := subWith 0 a x

/-- `SBC A,x` (43_alu8.md R284). -/
def aluSbc (a x : Byte) (f : Flags) : Byte × Flags := subWith (bit01 f.c) a x

/-- `AND x` (43_alu8.md R285). -/
def aluAnd (a x : Byte) (_ : Flags) : Byte × Flags :=
  let r := a &&& x
  (r, { z := r == 0, n := false, h := true, c := false })

/-- `XOR x` (43_alu8.md R286). -/
def aluXor (a x : Byte) (_ : Flags) : Byte × Flags :=
  let r := a ^^^ x
  (r, { z := r == 0, n := false, h := false, c := false })

/-- `OR x` (43_alu8.md R287). -/
def aluOr (a x : Byte) (_ : Flags) : Byte × Flags :=
  let r := a ||| x
  (r, { z := r == 0, n := false, h := false, c := false })

/-- `CP x`: the flags of `SUB x`, A unchanged (43_alu8.md R288). -/
def aluCp (a x : Byte) (_ : Flags) : Byte × Flags := (a, (subWith 0 a x).2)

/-- `INC`: C unchanged (43_alu8.md R289). -/
def inc8 (v : Byte) (f : Flags) : Byte × Flags :=
  let r := v + 1
  (r, { z := r == 0, n := false, h := decide (v.toNat % 16 = 0xF), c := f.c })

/-- `DEC`: C unchanged (43_alu8.md R291). -/
def dec8 (v : Byte) (f : Flags) : Byte × Flags :=
  let r := v - 1
  (r, { z := r == 0, n := true, h := decide (v.toNat % 16 = 0), c := f.c })

/-- `DAA` (43_alu8.md R293): the correction by N, H, C and the value of A. -/
def daa8 (a : Byte) (f : Flags) : Byte × Flags :=
  if f.n = false then
    let high := f.c || decide (a.toNat > 0x99)
    let a1 := if high then a + 0x60 else a
    let a2 := if f.h || decide (a1.toNat % 16 > 9) then a1 + 0x06 else a1
    (a2, { z := a2 == 0, n := false, h := false, c := high })
  else
    let a1 := if f.c then a - 0x60 else a
    let a2 := if f.h then a1 - 0x06 else a1
    (a2, { z := a2 == 0, n := true, h := false, c := f.c })

/-- `CPL` (43_alu8.md R294). -/
def cpl8 (a : Byte) (f : Flags) : Byte × Flags := (~~~a, { f with n := true, h := true })

/-- `SCF` (43_alu8.md R295). -/
def scfFlags (f : Flags) : Flags := { f with n := false, h := false, c := true }

/-- `CCF` (43_alu8.md R296). -/
def ccfFlags (f : Flags) : Flags := { f with n := false, h := false, c := !f.c }

/-! ## 16-bit arithmetic -/

/-- `ADD HL,rr`: carries out of bits 11 and 15, Z unchanged (44_alu16.md R310). -/
def addHl16 (hl v : Word) (f : Flags) : Word × Flags :=
  let s := hl.toNat + v.toNat
  (BitVec.ofNat 16 s,
    { z := f.z, n := false, h := decide (hl.toNat % 0x1000 + v.toNat % 0x1000 > 0x0FFF), c := decide (s > 0xFFFF) })

/-- `SP + e`: the signed displacement, with the carries of the unsigned addition of the low bytes (42_load16.md R265,
44_alu16.md R313). -/
def addSpE16 (sp : Word) (e : Byte) : Word × Flags :=
  (sp + sext16 e,
    { z := false, n := false, h := decide (sp.toNat % 16 + e.toNat % 16 > 0xF),
      c := decide (sp.toNat % 256 + e.toNat > 0xFF) })

/-! ## Rotates, shifts and SWAP -/

/-- The flags of a CB rotate or shift: Z from the result, N = H = 0, C the bit shifted out (45_rotate_shift.md R324). -/
def shiftFlags (r : Byte) (co : Bool) : Flags := { z := r == 0, n := false, h := false, c := co }

/-- `RLC` (45_rotate_shift.md R325). -/
def rlc8 (v : Byte) (_ : Flags) : Byte × Flags :=
  let r := (v <<< 1) ||| BitVec.setWidth 8 (BitVec.ofBool (v.getLsbD 7))
  (r, shiftFlags r (v.getLsbD 7))

/-- `RRC` (45_rotate_shift.md R326). -/
def rrc8 (v : Byte) (_ : Flags) : Byte × Flags :=
  let r := (v >>> 1) ||| (BitVec.setWidth 8 (BitVec.ofBool (v.getLsbD 0)) <<< 7)
  (r, shiftFlags r (v.getLsbD 0))

/-- `RL` (45_rotate_shift.md R327). -/
def rl8 (v : Byte) (f : Flags) : Byte × Flags :=
  let r := (v <<< 1) ||| BitVec.setWidth 8 (BitVec.ofBool f.c)
  (r, shiftFlags r (v.getLsbD 7))

/-- `RR` (45_rotate_shift.md R328). -/
def rr8 (v : Byte) (f : Flags) : Byte × Flags :=
  let r := (v >>> 1) ||| (BitVec.setWidth 8 (BitVec.ofBool f.c) <<< 7)
  (r, shiftFlags r (v.getLsbD 0))

/-- `SLA` (45_rotate_shift.md R329). -/
def sla8 (v : Byte) (_ : Flags) : Byte × Flags :=
  let r := v <<< 1
  (r, shiftFlags r (v.getLsbD 7))

/-- `SRA`: bit 7 is kept (45_rotate_shift.md R330). -/
def sra8 (v : Byte) (_ : Flags) : Byte × Flags :=
  let r := (v >>> 1) ||| (v &&& 0x80)
  (r, shiftFlags r (v.getLsbD 0))

/-- `SWAP`: the nibbles exchanged, C = 0 (45_rotate_shift.md R331). -/
def swap8 (v : Byte) (_ : Flags) : Byte × Flags :=
  let r := (v <<< 4) ||| (v >>> 4)
  (r, shiftFlags r false)

/-- `SRL` (45_rotate_shift.md R332). -/
def srl8 (v : Byte) (_ : Flags) : Byte × Flags :=
  let r := v >>> 1
  (r, shiftFlags r (v.getLsbD 0))

/-- The four accumulator rotates clear Z whatever the result (45_rotate_shift.md R320 to R323). -/
def clearZ (r : Byte × Flags) : Byte × Flags := (r.1, { r.2 with z := false })

/-! ## Single bits -/

/-- `BIT b`: Z = the complement of the bit, N = 0, H = 1, C unchanged (46_bit.md R340). -/
def bitFlags (b : BitVec 3) (v : Byte) (f : Flags) : Flags :=
  { z := !v.getLsbD b.toNat, n := false, h := true, c := f.c }

/-- `RES b` (46_bit.md R341). -/
def res8 (b : BitVec 3) (v : Byte) : Byte := v &&& ~~~(1#8 <<< b.toNat)

/-- `SET b` (46_bit.md R342). -/
def set8 (b : BitVec 3) (v : Byte) : Byte := v ||| (1#8 <<< b.toNat)

/-! ## Conditions -/

/-- `cond(cc)` (47_control.md R350). -/
def condHolds (cc : Cond) (f : Flags) : Bool :=
  match cc with
  | .nz => !f.z
  | .z => f.z
  | .nc => !f.c
  | .c => f.c

end Sys2Proof.Machine
end

