-- ==== Sys2Proof/Machine/Operands.lean ====
section
/-! DEFINITION. The operand forms: registers, `(HL)` and the other memory operands, the top page, and the shapes of meaning
that the families share. -/

namespace Sys2Proof.Machine

/-- The address of the top-page forms, `0xFF00 + n` (30_encoding.md R152, R162). -/
def topPage (n : Byte) : Word := 0xFF00#16 + zext16 n

/-- The value of a full r8 operand: a register, or memory at `x[HL]` (30_encoding.md R157, 45_rotate_shift.md R324). -/
def State.readOpnd (s : State) (o : Opnd8) : Res Byte :=
  match o with
  | .reg r => .ok (s.getR8 r) s
  | .atHl => s.read8 s.hl

/-- Write a full r8 operand back (45_rotate_shift.md R324). -/
def State.writeOpnd (s : State) (o : Opnd8) (v : Byte) : Res Unit :=
  match o with
  | .reg r => .ok () (s.setR8 r v)
  | .atHl => s.write8 s.hl v

/-- The cost of an r8 form: `m` on a register, `k` on `(HL)` (40_engine.md R195, 45_rotate_shift.md R324). -/
def opndCost (o : Opnd8) (m k : Nat) : Nat :=
  match o with
  | .reg _ => m
  | .atHl => k

/-- An operation of the ALU on A and `x` (43_alu8.md R280): A and the flags are written. -/
def State.alu (s : State) (op : Byte → Byte → Flags → Byte × Flags) (x : Byte) : State :=
  let r := op s.regs.a x s.regs.f
  (s.setR8 .a r.1).setF r.2

/-- `ALU r`: 1 M (43_alu8.md R280). -/
def aluReg (op : Byte → Byte → Flags → Byte × Flags) (src : R8) (s : State) : Result :=
  let s1 := s.advance 1
  (s1.alu op (s1.getR8 src)).done 1

/-- `ALU (HL)`: 2 M (43_alu8.md R280). -/
def aluHl (op : Byte → Byte → Flags → Byte × Flags) (s : State) : Result :=
  let s1 := s.advance 1
  ((s1.read8 s1.hl).bind fun x s2 => .ok () (s2.alu op x)).done 2

/-- `ALU n`: 2 M (43_alu8.md R280). -/
def aluImm (op : Byte → Byte → Flags → Byte × Flags) (n : Byte) (s : State) : Result :=
  ((s.advance 2).alu op n).done 2

/-- Read an operand, compute, write it back, then write the flags (45_rotate_shift.md R324, 43_alu8.md R290; log 13). -/
def State.modify (s : State) (op : Byte → Flags → Byte × Flags) (o : Opnd8) : Res Unit :=
  (s.readOpnd o).bind fun v s1 =>
    let r := op v s1.regs.f
    (s1.writeOpnd o r.1).bind fun _ s2 => .ok () (s2.setF r.2)

/-- A CB form that writes its operand back: 2 M on a register, 4 M on `(HL)` (45_rotate_shift.md R324). -/
def cbModify (op : Byte → Flags → Byte × Flags) (o : Opnd8) (s : State) : Result :=
  ((s.advance 2).modify op o).done (opndCost o 2 4)

/-- An operation on A alone: 1 M (43_alu8.md R293, R294, 45_rotate_shift.md R320 to R323). -/
def accOp (op : Byte → Flags → Byte × Flags) (s : State) : Result :=
  let s1 := s.advance 1
  let r := op s1.regs.a s1.regs.f
  ((s1.setR8 .a r.1).setF r.2).done 1

/-- Load a register from memory, after PC was advanced by `n`; `m` M-cycles (41_load8.md). -/
def loadTo (dst : R8) (n : Word) (m : Nat) (addr : State → Word) (s : State) : Result :=
  let s1 := s.advance n
  ((s1.read8 (addr s1)).bind fun v s2 => .ok () (s2.setR8 dst v)).done m

/-- Store a byte to memory, after PC was advanced by `n`; `m` M-cycles (41_load8.md). -/
def storeAt (n : Word) (m : Nat) (addr : State → Word) (val : State → Byte) (s : State) : Result :=
  let s1 := s.advance n
  (s1.write8 (addr s1) (val s1)).done m

/-- `LD A,(HL±)`: load, then move HL; on a fatal HL stays (41_load8.md R239, R240). -/
def loadStep (delta : Word) (s : State) : Result :=
  let s1 := s.advance 1
  ((s1.read8 s1.hl).bind fun v s2 =>
    let s3 := s2.setR8 .a v
    .ok () (s3.setRR .hl (s3.hl + delta))).done 2

/-- `LD (HL±),A`: store, then move HL; on a fatal HL stays (41_load8.md R241, R242). -/
def storeStep (delta : Word) (s : State) : Result :=
  let s1 := s.advance 1
  ((s1.write8 s1.hl (s1.getR8 .a)).bind fun _ s2 => .ok () (s2.setRR .hl (s2.hl + delta))).done 2

/-- Push `next` and go to a target (47_control.md R356, R361). -/
def State.callTo (s : State) (target : Word) : Res Unit :=
  (s.push16 s.regs.pc).bind fun _ s1 => .ok () (s1.setPc target)

end Sys2Proof.Machine
end

