-- ==== Sys2Proof/Machine/Alu16.lean ====
section
/-! DEFINITION. The 16-bit arithmetic (44_alu16.md R310 to R313). -/

namespace Sys2Proof.Machine

/-- `ADD HL,rr` (R310). -/
def execAddHlRr (p : RR) (s : State) : Result :=
  let s1 := s.advance 1
  let r := addHl16 s1.hl (s1.getRR p) s1.regs.f
  ((s1.setRR .hl r.1).setF r.2).done 2

/-- `INC rr` (R311). -/
def execIncRr (p : RR) (s : State) : Result :=
  let s1 := s.advance 1
  (s1.setRR p (s1.getRR p + 1)).done 2

/-- `DEC rr` (R312). -/
def execDecRr (p : RR) (s : State) : Result :=
  let s1 := s.advance 1
  (s1.setRR p (s1.getRR p - 1)).done 2

/-- `ADD SP,e` (R313). -/
def execAddSpE (e : Byte) (s : State) : Result :=
  let s1 := s.advance 2
  let r := addSpE16 s1.regs.sp e
  ((s1.setSp r.1).setF r.2).done 4

end Sys2Proof.Machine
end

