-- ==== Sys2Proof/Machine/Alu8.lean ====
section
/-! DEFINITION. The 8-bit arithmetic and logic (43_alu8.md R280 to R296). -/

namespace Sys2Proof.Machine

/-- `ADD A,r` (R281). -/
def execAddR (src : R8) (s : State) : Result := aluReg aluAdd src s

/-- `ADD A,(HL)` (R281). -/
def execAddHl (s : State) : Result := aluHl aluAdd s

/-- `ADD A,n` (R281). -/
def execAddN (n : Byte) (s : State) : Result := aluImm aluAdd n s

/-- `ADC A,r` (R282). -/
def execAdcR (src : R8) (s : State) : Result := aluReg aluAdc src s

/-- `ADC A,(HL)` (R282). -/
def execAdcHl (s : State) : Result := aluHl aluAdc s

/-- `ADC A,n` (R282). -/
def execAdcN (n : Byte) (s : State) : Result := aluImm aluAdc n s

/-- `SUB r` (R283). -/
def execSubR (src : R8) (s : State) : Result := aluReg aluSub src s

/-- `SUB (HL)` (R283). -/
def execSubHl (s : State) : Result := aluHl aluSub s

/-- `SUB n` (R283). -/
def execSubN (n : Byte) (s : State) : Result := aluImm aluSub n s

/-- `SBC A,r` (R284). -/
def execSbcR (src : R8) (s : State) : Result := aluReg aluSbc src s

/-- `SBC A,(HL)` (R284). -/
def execSbcHl (s : State) : Result := aluHl aluSbc s

/-- `SBC A,n` (R284). -/
def execSbcN (n : Byte) (s : State) : Result := aluImm aluSbc n s

/-- `AND r` (R285). -/
def execAndR (src : R8) (s : State) : Result := aluReg aluAnd src s

/-- `AND (HL)` (R285). -/
def execAndHl (s : State) : Result := aluHl aluAnd s

/-- `AND n` (R285). -/
def execAndN (n : Byte) (s : State) : Result := aluImm aluAnd n s

/-- `XOR r` (R286). -/
def execXorR (src : R8) (s : State) : Result := aluReg aluXor src s

/-- `XOR (HL)` (R286). -/
def execXorHl (s : State) : Result := aluHl aluXor s

/-- `XOR n` (R286). -/
def execXorN (n : Byte) (s : State) : Result := aluImm aluXor n s

/-- `OR r` (R287). -/
def execOrR (src : R8) (s : State) : Result := aluReg aluOr src s

/-- `OR (HL)` (R287). -/
def execOrHl (s : State) : Result := aluHl aluOr s

/-- `OR n` (R287). -/
def execOrN (n : Byte) (s : State) : Result := aluImm aluOr n s

/-- `CP r` (R288). -/
def execCpR (src : R8) (s : State) : Result := aluReg aluCp src s

/-- `CP (HL)` (R288). -/
def execCpHl (s : State) : Result := aluHl aluCp s

/-- `CP n` (R288). -/
def execCpN (n : Byte) (s : State) : Result := aluImm aluCp n s

/-- `INC r` (R289). -/
def execIncR (dst : R8) (s : State) : Result := ((s.advance 1).modify inc8 (.reg dst)).done 1

/-- `INC (HL)` (R290). -/
def execIncHl (s : State) : Result := ((s.advance 1).modify inc8 .atHl).done 3

/-- `DEC r` (R291). -/
def execDecR (dst : R8) (s : State) : Result := ((s.advance 1).modify dec8 (.reg dst)).done 1

/-- `DEC (HL)` (R292). -/
def execDecHl (s : State) : Result := ((s.advance 1).modify dec8 .atHl).done 3

/-- `DAA` (R293). -/
def execDaa (s : State) : Result := accOp daa8 s

/-- `CPL` (R294). -/
def execCpl (s : State) : Result := accOp cpl8 s

/-- `SCF` (R295). -/
def execScf (s : State) : Result :=
  let s1 := s.advance 1
  (s1.setF (scfFlags s1.regs.f)).done 1

/-- `CCF` (R296). -/
def execCcf (s : State) : Result :=
  let s1 := s.advance 1
  (s1.setF (ccfFlags s1.regs.f)).done 1

end Sys2Proof.Machine
end

