-- ==== Sys2Proof/Machine/Control.lean ====
section
/-! DEFINITION. Jumps, calls, returns and restarts (47_control.md R350 to R361). -/

namespace Sys2Proof.Machine

/-- `JP nn` (R351). -/
def execJpNn (nn : Word) (s : State) : Result := ((s.advance 3).setPc nn).done 4

/-- `JP cc,nn` (R352). -/
def execJpCcNn (cc : Cond) (nn : Word) (s : State) : Result :=
  let s1 := s.advance 3
  if condHolds cc s1.regs.f then (s1.setPc nn).done 4 else s1.done 3

/-- `JP HL`: a register jump (R353). -/
def execJpHl (s : State) : Result :=
  let s1 := s.advance 1
  (s1.setPc s1.hl).done 1

/-- `JR e`: relative to `next` (R354). -/
def execJrE (e : Byte) (s : State) : Result :=
  let s1 := s.advance 2
  (s1.setPc (s1.regs.pc + sext16 e)).done 3

/-- `JR cc,e` (R355). -/
def execJrCcE (cc : Cond) (e : Byte) (s : State) : Result :=
  let s1 := s.advance 2
  if condHolds cc s1.regs.f then (s1.setPc (s1.regs.pc + sext16 e)).done 3 else s1.done 2

/-- `CALL nn` (R356). -/
def execCallNn (nn : Word) (s : State) : Result := ((s.advance 3).callTo nn).done 6

/-- `CALL cc,nn` (R357): a call not taken touches no stack memory. -/
def execCallCcNn (cc : Cond) (nn : Word) (s : State) : Result :=
  let s1 := s.advance 3
  if condHolds cc s1.regs.f then (s1.callTo nn).done 6 else s1.done 3

/-- `RET` (R358). -/
def execRet (s : State) : Result := (s.advance 1).popPc.done 4

/-- `RET cc` (R359). -/
def execRetCc (cc : Cond) (s : State) : Result :=
  let s1 := s.advance 1
  if condHolds cc s1.regs.f then s1.popPc.done 5 else s1.done 2

/-- `RETI` (R360). -/
def execReti (s : State) : Result := (s.advance 1).returnFromInterrupt.done 4

/-- The restart target `ttt * 8` (30_encoding.md R161, 47_control.md R361). -/
def rstTarget (t : BitVec 3) : Word := t.setWidth 16 * 8

/-- `RST t` (R361). -/
def execRst (t : BitVec 3) (s : State) : Result := ((s.advance 1).callTo (rstTarget t)).done 4

end Sys2Proof.Machine
end

