-- ==== Sys2Proof/Machine/Load16.lean ====
section
/-! DEFINITION. The 16-bit loads and the stack (42_load16.md R260 to R265). -/

namespace Sys2Proof.Machine

/-- `LD rr,nn` (R260). -/
def execLdRrNn (p : RR) (nn : Word) (s : State) : Result := ((s.advance 3).setRR p nn).done 3

/-- `LD (nn),SP` (R261). -/
def execLdNnSp (nn : Word) (s : State) : Result :=
  let s1 := s.advance 3
  (s1.write16 nn s1.regs.sp).done 5

/-- `LD SP,HL` (R262). -/
def execLdSpHl (s : State) : Result :=
  let s1 := s.advance 1
  (s1.setSp s1.hl).done 2

/-- `PUSH qq` (R263). -/
def execPush (q : QQ) (s : State) : Result :=
  let s1 := s.advance 1
  (s1.push16 (s1.getQQ q)).done 4

/-- `POP qq` (R264). -/
def execPop (q : QQ) (s : State) : Result :=
  ((s.advance 1).pop16.bind fun v s1 => .ok () (s1.setQQ q v)).done 3

/-- `LD HL,SP+e` (R265). -/
def execLdHlSpE (e : Byte) (s : State) : Result :=
  let s1 := s.advance 2
  let r := addSpE16 s1.regs.sp e
  ((s1.setRR .hl r.1).setF r.2).done 3

end Sys2Proof.Machine
end

