-- ==== Sys2Proof/Machine/Load8.lean ====
section
/-! DEFINITION. The 8-bit loads (41_load8.md R230 to R248). No form writes a flag. -/

namespace Sys2Proof.Machine

/-- `LD r,r'` (R230). -/
def execLdRR (dst src : R8) (s : State) : Result :=
  let s1 := s.advance 1
  (s1.setR8 dst (s1.getR8 src)).done 1

/-- `LD r,(HL)` (R231): the address is from before the write. -/
def execLdRHl (dst : R8) (s : State) : Result := loadTo dst 1 2 State.hl s

/-- `LD (HL),r` (R232). -/
def execLdHlR (src : R8) (s : State) : Result := storeAt 1 2 State.hl (fun t => t.getR8 src) s

/-- `LD r,n` (R233). -/
def execLdRN (dst : R8) (n : Byte) (s : State) : Result := ((s.advance 2).setR8 dst n).done 2

/-- `LD (HL),n` (R234). -/
def execLdHlN (n : Byte) (s : State) : Result := storeAt 2 3 State.hl (fun _ => n) s

/-- `LD A,(BC)` (R235). -/
def execLdABc (s : State) : Result := loadTo .a 1 2 (fun t => t.getRR .bc) s

/-- `LD A,(DE)` (R236). -/
def execLdADe (s : State) : Result := loadTo .a 1 2 (fun t => t.getRR .de) s

/-- `LD (BC),A` (R237). -/
def execLdBcA (s : State) : Result := storeAt 1 2 (fun t => t.getRR .bc) (fun t => t.getR8 .a) s

/-- `LD (DE),A` (R238). -/
def execLdDeA (s : State) : Result := storeAt 1 2 (fun t => t.getRR .de) (fun t => t.getR8 .a) s

/-- `LD A,(HL+)` (R239). -/
def execLdAHli (s : State) : Result := loadStep 1 s

/-- `LD A,(HL-)` (R240). -/
def execLdAHld (s : State) : Result := loadStep (-1) s

/-- `LD (HL+),A` (R241). -/
def execLdHliA (s : State) : Result := storeStep 1 s

/-- `LD (HL-),A` (R242). -/
def execLdHldA (s : State) : Result := storeStep (-1) s

/-- `LD A,(nn)` (R243). -/
def execLdANn (nn : Word) (s : State) : Result := loadTo .a 3 4 (fun _ => nn) s

/-- `LD (nn),A` (R244). -/
def execLdNnA (nn : Word) (s : State) : Result := storeAt 3 4 (fun _ => nn) (fun t => t.getR8 .a) s

/-- `LDH A,(n)` (R245). -/
def execLdhAN (n : Byte) (s : State) : Result := loadTo .a 2 3 (fun _ => topPage n) s

/-- `LDH (n),A` (R246). -/
def execLdhNA (n : Byte) (s : State) : Result := storeAt 2 3 (fun _ => topPage n) (fun t => t.getR8 .a) s

/-- `LDH A,(C)` (R247). -/
def execLdhAC (s : State) : Result := loadTo .a 1 2 (fun t => topPage (t.getR8 .c)) s

/-- `LDH (C),A` (R248). -/
def execLdhCA (s : State) : Result := storeAt 1 2 (fun t => topPage (t.getR8 .c)) (fun t => t.getR8 .a) s

end Sys2Proof.Machine
end

