-- ==== Sys2Proof/Machine/Bit.lean ====
section
/-! DEFINITION. Single-bit test, reset and set (46_bit.md R340 to R342). -/

namespace Sys2Proof.Machine

/-- `BIT b,r` (R340): read only, 2 M on a register, 3 M on `(HL)`. -/
def execBitB (b : BitVec 3) (o : Opnd8) (s : State) : Result :=
  (((s.advance 2).readOpnd o).bind fun v s1 => .ok () (s1.setF (bitFlags b v s1.regs.f))).done (opndCost o 2 3)

/-- `RES b,r` (R341): no flag changes. -/
def execResB (b : BitVec 3) (o : Opnd8) (s : State) : Result := cbModify (fun v f => (res8 b v, f)) o s

/-- `SET b,r` (R342): no flag changes. -/
def execSetB (b : BitVec 3) (o : Opnd8) (s : State) : Result := cbModify (fun v f => (set8 b v, f)) o s

end Sys2Proof.Machine
end

