-- ==== Sys2Proof/Machine/Rotate.lean ====
section
/-! DEFINITION. The rotates, shifts and SWAP (45_rotate_shift.md R320 to R332). -/

namespace Sys2Proof.Machine

/-- `RLCA`: the rotate of A with Z cleared (R320). -/
def execRlca (s : State) : Result := accOp (fun v f => clearZ (rlc8 v f)) s

/-- `RRCA`: the rotate of A with Z cleared (R321). -/
def execRrca (s : State) : Result := accOp (fun v f => clearZ (rrc8 v f)) s

/-- `RLA`: the rotate of A with Z cleared (R322). -/
def execRla (s : State) : Result := accOp (fun v f => clearZ (rl8 v f)) s

/-- `RRA`: the rotate of A with Z cleared (R323). -/
def execRra (s : State) : Result := accOp (fun v f => clearZ (rr8 v f)) s

/-- `RLC r` (R325). -/
def execRlc (o : Opnd8) (s : State) : Result := cbModify rlc8 o s

/-- `RRC r` (R326). -/
def execRrc (o : Opnd8) (s : State) : Result := cbModify rrc8 o s

/-- `RL r` (R327). -/
def execRl (o : Opnd8) (s : State) : Result := cbModify rl8 o s

/-- `RR r` (R328). -/
def execRr (o : Opnd8) (s : State) : Result := cbModify rr8 o s

/-- `SLA r` (R329). -/
def execSla (o : Opnd8) (s : State) : Result := cbModify sla8 o s

/-- `SRA r` (R330). -/
def execSra (o : Opnd8) (s : State) : Result := cbModify sra8 o s

/-- `SWAP r` (R331). -/
def execSwap (o : Opnd8) (s : State) : Result := cbModify swap8 o s

/-- `SRL r` (R332). -/
def execSrl (o : Opnd8) (s : State) : Result := cbModify srl8 o s

end Sys2Proof.Machine
end

