-- ==== Sys2Proof/Machine/Misc.lean ====
section
/-! DEFINITION. Control of the CPU, the escape byte and the illegal first bytes (48_misc.md R370 to R376). -/

namespace Sys2Proof.Machine

/-- `NOP` (R370). -/
def execNop (s : State) : Result := (s.advance 1).done 1

/-- `HALT` (R371): with IME = 0 and an enabled request pending the spec's refusal is taken, PC being `next`. -/
def execHalt (s : State) : Result :=
  let s1 := s.advance 1
  if s1.ime = false ∧ s1.pending = true then .next (s1.raise (.haltBug s.regs.pc))
  else { s1 with halted := true }.done 1

/-- `STOP` (R372): the fatal is always taken, PC being `next`; the second byte is ignored. -/
def execStop (_x : Byte) (s : State) : Result := .next ((s.advance 2).raise (.unsupportedStop s.regs.pc))

/-- `DI` (R373). -/
def execDi (s : State) : Result := { s.advance 1 with ime := false, imePending := false }.done 1

/-- `EI` (R374): IME itself is set at the end of the next instruction (40_engine.md R197). -/
def execEi (s : State) : Result := { s.advance 1 with imePending := true }.done 1

/-- `PREFIX CB` (R375): the pair executes the rule of the CB row that `c` selects (30_encoding.md R166). -/
def execPrefixCb (c : Byte) (s : State) : Result :=
  let y := fieldY c
  let o := opnd8Of (fieldZ c)
  if fieldX c = 0b01#2 then execBitB y o s
  else if fieldX c = 0b10#2 then execResB y o s
  else if fieldX c = 0b11#2 then execSetB y o s
  else if y = 0b000#3 then execRlc o s
  else if y = 0b001#3 then execRrc o s
  else if y = 0b010#3 then execRl o s
  else if y = 0b011#3 then execRr o s
  else if y = 0b100#3 then execSla o s
  else if y = 0b101#3 then execSra o s
  else if y = 0b110#3 then execSwap o s
  else execSrl o s

/-- An illegal first byte (R376): the fatal is taken while decoding, so PC stays at the origin (60_exceptions.md R401). -/
def execIllegal (op : Byte) (s : State) : Result := .next (s.raise (.unknownOpcode op none s.regs.pc))

end Sys2Proof.Machine
end

