-- ==== Sys2Proof/Machine/Engine.lean ====
section
/-! DEFINITION. The parts of a step: fetching and decoding (40_engine.md R192), the commit of EI (R197), the iteration of
the master step loop after the CPU's step (R205), and the four outcomes (R190, R191). -/

namespace Sys2Proof.Machine

/-- The form is outside `P_IMPLEMENTED` (00_scope.md R12; log 10). -/
def State.excludes (s : State) (i : Instr) : Bool := s.unimplemented.contains i.row

/-- The bytes after the first, and the instruction (40_engine.md R192, 20_memory.md R101). -/
def State.fetchRest (s : State) (o : Byte) (len : Nat) : Res Instr :=
  let pc := s.regs.pc
  if len = 1 then .ok (decodeWords o 0 0) s
  else
    (s.busRead (pc + 1) .fetch).bind fun b1 s1 =>
      if len = 2 then .ok (decodeWords o b1 0) s1
      else (s1.busRead (pc + 2) .fetch).bind fun b2 s2 => .ok (decodeWords o b1 b2) s2

/-- The check of a CB row against `P_IMPLEMENTED`, after both bytes were read (40_engine.md R192). -/
def State.checkCb (s : State) (i : Instr) (o c : Byte) : Res Instr :=
  if s.excludes i then .fatal (s.raise (.unknownOpcode o (some c) s.regs.pc)) else .ok i s

/-- The bytes after a first byte whose row is in `P_IMPLEMENTED`: the escape byte's second and the check of its CB row, or
the immediates (40_engine.md R192). -/
def State.fetchMore (s : State) (o : Byte) : Res Instr :=
  if o = 0xCB then (s.busRead (s.regs.pc + 1) .fetch).bind fun c t => t.checkCb (decodeCb c) o c
  else s.fetchRest o (firstLength o)

/-- `Decode(pc)`: the bytes of the instruction at PC, one at a time through the bus, and the instruction they are. Every first
byte whose row is outside `P_IMPLEMENTED` raises the fatal before a further byte is read (48_misc.md R376, 00_scope.md R12,
40_engine.md R192), 0xCB among them, whose row is PREFIX_CB (DEDUCED, log 24, safe); a CB row does so after its second byte
(R192, R375); an illegal first byte is the row (illegal), whose meaning raises it (R376, 60_exceptions.md R406). -/
def State.fetch (s : State) : Res Instr :=
  (s.busRead s.regs.pc .fetch).bind fun o s1 =>
    if s1.excludes (decodeFirst o 0 0) then .fatal (s1.raise (.unknownOpcode o none s1.regs.pc))
    else s1.fetchMore o

/-- The delayed enable: pending at the start (`armed`) and still pending after the operation (40_engine.md R197). -/
def State.commitIme (s : State) (armed : Bool) : State :=
  if armed && s.imePending then { s with ime := true, imePending := false } else s

/-- T-cycles of a step: four per M-cycle it returned (40_engine.md R206). -/
def State.tCycles (s : State) : Nat := 4 * s.elapsed.getD 0

/-- One iteration of the master step loop after the CPU's step: DMA, the timer, audio, video, the collaborators, the frame
test, in this order (40_engine.md R205, R207, R208; 60_exceptions.md R442; log 18). -/
def State.iterate (s : State) : State :=
  let t := s.agentTurn
  let s1 := s.dmaAdvance t
  let s2 := State.timerTicks s.tCycles s1
  let s3 := s2.audioAdvance t
  let s4 := s3.videoAdvance t
  let s5 := s4.collabAdvance t
  s5.frameTest t

/-- The end of a step: after a fatal nothing is advanced (40_engine.md R198), else the enable commits and the loop goes on
(R197, R205). -/
def State.endStep (s : State) (armed : Bool) : State :=
  match s.fatal with
  | some _ => s
  | none => (s.commitIme armed).iterate

/-- Run the instruction at PC (40_engine.md R191). -/
def State.runNext (s : State) : Result :=
  match s.fetch with
  | .fatal t => .next t
  | .ok i t =>
    match exec i t with
    | .next u => .next (u.endStep s.imePending)
    | .fault r => .fault r
    | .refused r => .refused r

/-- A halted step: fetches nothing, changes no state, returns 1 (40_engine.md R199). -/
def State.haltedStep (s : State) : Result := .next ((s.setElapsed 1).endStep false)

/-- The step of an awake CPU: a dispatch where IME = 1 and an interrupt is pending, else the instruction at PC
(40_engine.md R191, 60_exceptions.md R426). -/
def State.awakeStep (s : State) : Result :=
  match s.ime, s.requested with
  | true, some i => .next ((s.takeInterrupt i).endStep false)
  | _, _ => s.runNext

/-- A step of a CPU that is in no fatal state: halted and nothing pending, or wake and go on (40_engine.md R191, R199). -/
def State.liveStep (s : State) : Result :=
  if s.halted = true ∧ s.pending = false then s.haltedStep
  else State.awakeStep { s with halted := false }

/-! ## Placing a program, for the host -/

/-- Put a byte where the CPU fetches address `a`: the cell of the array or of the cartridge behind it. Nothing can be
placed in a forbidden zone; an I/O register or IE takes what it can hold (log 21). -/
def State.place (s : State) (a : Word) (v : Byte) : State :=
  match zoneOf a with
  | .rom => { s with cart := s.cart.place a v }
  | .vram => s.storeMem a v
  | .cartRam => { s with cart := s.cart.place a v }
  | .wram => s.storeMem a v
  | .forbidden => s
  | .oam => s.storeMem a v
  | .io =>
    match ioRegOf a with
    | some .div => { s with timer := { s.timer with div := wordOf v (loByte s.timer.div) } }
    | some r => s.writeIoReg r v
    | none => { s with ioScript := s.ioScript ++ [.answer v] }
  | .hram => s.storeMem a v
  | .ie => s.writeIe v

/-- The CPU in a condition to fetch: no fatal, awake, and no interrupt taken first (log 21). -/
def State.readyToFetch (s : State) : State :=
  { s with fatal := none, halted := false, ime := s.ime && !s.pending }

/-- The state with the instruction of the bits `w` stored where the next step fetches (log 21). -/
def State.placeWord (s : State) (nbits w : Nat) : State :=
  let pc := s.regs.pc
  (((s.place pc (wordByte nbits w 0)).place (pc + 1) (wordByte nbits w 1)).place (pc + 2) (wordByte nbits w 2)).readyToFetch

end Sys2Proof.Machine
end

