-- ==== Sys2Proof/Machine/Step.lean ====
section
/-! DEFINITION. One step of the machine: the CPU's step and the iteration of the master step loop around it (40_engine.md
R191, R205; log 9). -/

namespace Sys2Proof.Machine

/-- One step. In the fatal state there is none (40_engine.md R191, 60_exceptions.md R400). -/
def step (s : State) : Host.Outcome State Fault Refusal :=
  match s.fatal with
  | some f => .fault (.terminal f)
  | none => s.liveStep

/-- The state with the table word `w` of `nbits` bits stored where the next step fetches it. -/
def State.withFetchWord (s : State) (nbits w : Nat) : State := s.placeWord nbits w

end Sys2Proof.Machine
end

