-- ==== Sys2Proof/Machine/Construct.lean ====
section
/-! DEFINITION. Construction of the block: the cartridge header, the checks in their order, the reset state for every choice
of the parameters, and the save buffer handed back (20_memory.md R121 to R128, 60_exceptions.md R403, R404, R444,
70_reset_and_hazards.md R460 to R466). -/

namespace Sys2Proof.Machine

/-- A byte sequence handed to construction: its length and its bytes by offset, an unlisted one being
`Config.unlistedByte` (log 22). -/
structure Image where
  size : Nat
  bytes : List Host.Cell
deriving DecidableEq, Repr

/-- The byte at an offset. -/
def Image.at (i : Image) (k : Nat) : Byte := memRead i.bytes k

/-- The configuration fatals (60_exceptions.md R403). -/
inductive ConfigFatal where
  /-- `CFG_BAD_HEADER`. -/
  | badHeader
  /-- `CFG_UNKNOWN_CART_TYPE`. -/
  | unknownCartType
  /-- `CFG_ROM_SIZE_MISMATCH`. -/
  | romSizeMismatch
deriving DecidableEq, Repr

/-- The codes 16, 17 and 18 (60_exceptions.md R403). -/
def ConfigFatal.code : ConfigFatal → Nat
  | .badHeader => 16
  | .unknownCartType => 17
  | .romSizeMismatch => 18

/-- The codes 1 to 6 of the runtime fatals (60_exceptions.md R402). -/
def FatalRecord.code : FatalRecord → Nat
  | .unknownOpcode _ _ _ => 1
  | .forbiddenAddress _ _ => 2
  | .romOutOfBounds _ => 3
  | .unsupportedStop _ => 4
  | .haltBug _ => 5
  | .io _ => 6

/-- What the target byte accepts (20_memory.md R122). -/
inductive Target where
  | gbEnhanced
  | enhancedOnly
  | baseOnly
deriving DecidableEq, Repr

/-- The target byte `P_ROM[0x143]` (20_memory.md R122). -/
def targetOf (v : Byte) : Option Target :=
  if v = 0x80 then some .gbEnhanced
  else if v = 0xC0 then some .enhancedOnly
  else if v = 0x00 ∨ (0x20 ≤ v.toNat ∧ v.toNat ≤ 0x7E) then some .baseOnly
  else none

/-- The title: 16 bytes at 0x134, or 15 where the target byte indicates dual-mode (20_memory.md R123). It affects no
behaviour. -/
def Image.title (i : Image) : List Byte :=
  let dual := i.at 0x143 = 0x80 ∨ i.at 0x143 = 0xC0
  (List.range (if dual then 15 else 16)).map (fun k => i.at (0x134 + k))

/-- The controller a cartridge-type byte selects, with the MBC1 registers after construction (20_memory.md R124,
70_reset_and_hazards.md R465). -/
def controllerOf (v : Byte) : Option Controller :=
  if v = 0x00 then some .romOnly
  else if v = 0x01 ∨ v = 0x02 ∨ v = 0x03 then some (.mbc1 { ramEn := false, romb := 0, bank2 := 0, mode := 0 })
  else none

/-- `ROM_BYTES` of a ROM-size byte (20_memory.md R125). -/
def romBytesOf (v : Byte) : Option Nat := if v.toNat ≤ 8 then some (0x8000 <<< v.toNat) else none

/-- `P_RAM_BYTES` of a RAM-size byte (20_memory.md R126). -/
def ramBytesOf (v : Byte) : Option Nat :=
  if v = 0x00 then some 0
  else if v = 0x02 then some 0x2000
  else if v = 0x03 then some 0x8000
  else if v = 0x04 then some 0x20000
  else if v = 0x05 then some 0x10000
  else none

/-- The cells of an image inside a size, in canonical form. -/
def Image.cells (i : Image) (size : Nat) : List Host.Cell :=
  memWriteAll [] ((i.bytes.filter (fun c => c.1 < size)).reverse)

/-- The header's checks in their order and the cartridge (20_memory.md R121, R122, R124 to R128). -/
def buildCart (rom save : Image) : Except ConfigFatal (Cart × List Warning) :=
  if rom.size < 0x150 then .error .badHeader
  else
    match targetOf (rom.at 0x143), controllerOf (rom.at 0x147), romBytesOf (rom.at 0x148), ramBytesOf (rom.at 0x149) with
    | none, _, _, _ => .error .badHeader
    | some _, none, _, _ => .error .unknownCartType
    | some _, some _, none, _ => .error .badHeader
    | some _, some _, some _, none => .error .badHeader
    | some _, some ctl, some romBytes, some ramBytes =>
      if rom.size ≠ romBytes then .error .romSizeMismatch
      else if save.size = ramBytes then
        .ok ({ ctl := ctl, romBytes := romBytes, rom := rom.cells romBytes, ramBytes := ramBytes,
               ram := save.cells ramBytes }, [])
      else
        .ok ({ ctl := ctl, romBytes := romBytes, rom := rom.cells romBytes, ramBytes := ramBytes, ram := [] },
             [.saveRamSize])

/-- The parameters the host hands to construction (60_exceptions.md R444, 00_scope.md R8 to R12). -/
structure Params where
  /-- `P_ROM`. -/
  rom : Image
  /-- `P_SAVE_RAM`. -/
  save : Image
  /-- `P_INIT_MEM`, by CPU address. -/
  initMem : List Host.Cell
  /-- `P_DIV_INIT`. -/
  divInit : Word
  /-- The rows outside `P_IMPLEMENTED`. -/
  unimplemented : List Nat
  /-- `P_IO`. -/
  ioScript : List IoAnswer
  /-- `P_PERIPH`. -/
  agents : List AgentTurn
deriving DecidableEq, Repr

/-- Construction, the block's only reset (70_reset_and_hazards.md R460): the reset state for these parameters, or a
configuration fatal and no block. -/
def construct (p : Params) : Except ConfigFatal State :=
  match buildCart p.rom p.save with
  | .error f => .error f
  | .ok (cart, log) =>
    .ok { State.reset with
          timer := { State.reset.timer with div := p.divInit }
          mem := memWriteAll [] ((p.initMem.filter (fun c => isArrayKey c.1)).reverse)
          cart := cart
          log := log
          unimplemented := p.unimplemented
          ioScript := p.ioScript
          agents := p.agents }

/-- The battery-RAM buffer handed back to the host: the current CRAM (20_memory.md R128, 60_exceptions.md R444). -/
def State.saveBuffer (s : State) : Image := { size := s.cart.ramBytes, bytes := s.cart.ram }

end Sys2Proof.Machine
end

