-- ==== Sys2Proof/Machine/Tick.lean ====
section
/-! DEFINITION. `Tick()`, one call of the master step loop (40_engine.md R205, R208, R210). -/

namespace Sys2Proof.Machine

/-- `Tick()` cut to at most `n` iterations: it returns at the first iteration that ends the Tick (frame ready) or raises a
fatal. `none`: the Tick has not returned within `n` iterations; the spec bounds no Tick (40_engine.md R210). -/
def tick : Nat → State → Option Result
  | 0, _ => none
  | n + 1, s =>
    match step s with
    | .next t => if t.tickEnded = true ∨ t.fatal.isSome = true then some (.next t) else tick n t
    | .fault r => some (.fault r)
    | .refused r => some (.refused r)

end Sys2Proof.Machine
end

