-- ==== Sys2Proof/Safety.lean ====
section
/-! DEFINITION. The terms claims are stated in: the invariant of the state, the frames of instructions, and what an address
needs to be readable or writable. -/

namespace Sys2Proof

/-! ## Halves of pairs -/

/-- The two 8-bit registers of a pair (10_state.md R33). -/
def RR.halves : RR → List R8
  | .bc => [.b, .c]
  | .de => [.d, .e]
  | .hl => [.h, .l]
  | .sp => []

/-- The 8-bit general registers of a stack pair (10_state.md R33). -/
def QQ.halves : QQ → List R8
  | .bc => [.b, .c]
  | .de => [.d, .e]
  | .hl => [.h, .l]
  | .af => [.a]

end Sys2Proof

namespace Sys2Proof.Machine

/-! ## The invariant -/

/-- The sizes construction accepts: `0x8000 << s` for s in 0 to 8, and {0, 8, 32, 64, 128} KiB of RAM (20_memory.md R125,
R126). -/
def Cart.sizesLegal (k : Cart) : Bool :=
  [0x8000, 0x10000, 0x20000, 0x40000, 0x80000, 0x100000, 0x200000, 0x400000, 0x800000].contains k.romBytes &&
    [0, 0x2000, 0x8000, 0x10000, 0x20000].contains k.ramBytes

/-- The cartridge's arrays are in canonical form, inside their sizes, and the sizes are legal (10_state.md R49). -/
def Cart.wf (k : Cart) : Bool :=
  memWf k.rom && memKeys (fun a => decide (a < k.romBytes)) k.rom && memWf k.ram &&
    memKeys (fun a => decide (a < k.ramBytes)) k.ram && k.sizesLegal

/-- The block's arrays are in canonical form and hold only addresses of VRAM, WRAM, OAM and HRAM (10_state.md R49), and the
cartridge is well formed. -/
def State.wf (s : State) : Bool := memWf s.mem && memKeys isArrayKey s.mem && s.cart.wf

/-- The invariant that construction establishes and every step keeps. -/
abbrev State.Inv (s : State) : Prop := s.wf = true

/-! ## Frames -/

/-- Everything but the register file and the returned cost is as in `s`: IME, IME_PENDING, HALTED, FATAL, IE, IF, the timer,
every array and bank register, the parameters and the collaborators. -/
def OnlyRegs (s t : State) : Prop := { t with regs := s.regs, elapsed := s.elapsed } = s

/-- Every byte outside the stored ones reads as before, and the cartridge's arrays are unchanged outside a store to the
window 0xA000 to 0xBFFF. The cartridge windows are left out of the first clause only where a stored address is a bank
register's (0x0000 to 0x7FFF): the register then selects other bytes of the same arrays (20_memory.md R99). -/
def BytesKept (s t : State) (stored : List Word) : Prop :=
  (∀ b, b ∉ stored →
    ((zoneOf b = .rom ∨ zoneOf b = .cartRam) → ∀ a ∈ stored, zoneOf a ≠ .rom) → t.peek b = s.peek b) ∧
  t.cart.rom = s.cart.rom ∧
  ((∀ a ∈ stored, zoneOf a ≠ .cartRam) → t.cart.ram = s.cart.ram)

/-- What an answered instruction leaves: the 8-bit registers it may change, `F`, SP and PC after it, its M-cycles, and the
addresses it stores to. -/
structure Effect where
  regs : List R8
  f : Flags
  sp : Word
  pc : Word
  cycles : Nat
  stored : List Word
deriving DecidableEq, Repr

/-- The effect of an instruction of `n` bytes and `m` M-cycles that changes nothing else (40_engine.md R194, R195). -/
def State.retires (s : State) (n : Word) (m : Nat) : Effect where
  regs := []
  f := s.regs.f
  sp := s.regs.sp
  pc := s.regs.pc + n
  cycles := m
  stored := []

/-- `i` answers the next state `t` with the effect `e`. Outside the register file and the returned cost `t` is the state `u`,
which the bus accesses of `i` leave; every other register, flag and byte is as in `s`. -/
def Answers (i : Instr) (s u t : State) (e : Effect) : Prop :=
  exec i s = .next t ∧ (∀ r, r ∉ e.regs → t.getR8 r = s.getR8 r) ∧ t.regs.f = e.f ∧ t.regs.sp = e.sp ∧ t.regs.pc = e.pc ∧
    t.elapsed = some e.cycles ∧ OnlyRegs u t ∧ BytesKept s t e.stored

/-- The bytes decode to `i` wherever they stand, and `i` is an instruction (30_encoding.md R172). -/
def Spells (bytes : List Byte) (i : Instr) : Prop :=
  i.WellFormed ∧ ∀ rest, decode (bytes ++ rest) = .ok (i, rest)

/-- `i` enters the fatal state with record `f`: PC is `pc`, no cost is returned, and every other register, flag, byte and
field is as before (60_exceptions.md R400, R401). -/
def EntersFatal (i : Instr) (s : State) (f : FatalRecord) (pc : Word) : Prop :=
  exec i s = .next { s with regs := { s.regs with pc := pc }, fatal := some f, elapsed := none }

/-! ## The addresses stored to -/

/-- The address an r8 operand that is written back stores to (45_rotate_shift.md R324). -/
def opndStores (o : Opnd8) (s : State) : List Word :=
  match o with
  | .reg _ => []
  | .atHl => [s.hl]

/-- The two bytes a push stores, the high one first (20_memory.md R103). -/
def State.pushSlots (s : State) : List Word := [s.regs.sp - 1, s.regs.sp - 2]

/-- The addresses an instruction stores to from the state `s`, in order: those of its rule in 41 to 48. Nothing but a bus
access writes memory or an I/O register (20_memory.md R80). -/
def instrStores (i : Instr) (s : State) : List Word :=
  match i with
  | .ldHlR _ | .ldHlN _ | .ldHliA | .ldHldA | .incHl | .decHl => [s.hl]
  | .ldBcA => [s.getRR .bc]
  | .ldDeA => [s.getRR .de]
  | .ldNnA nn => [nn]
  | .ldhNA n => [topPage n]
  | .ldhCA => [topPage (s.getR8 .c)]
  | .ldNnSp nn => [nn, nn + 1]
  | .push _ | .callNn _ | .rst _ => s.pushSlots
  | .callCcNn cc _ => if condHolds cc s.regs.f then s.pushSlots else []
  | .rlc o | .rrc o | .rl o | .rr o | .sla o | .sra o | .swap o | .srl o | .resB _ o | .setB _ o => opndStores o s
  | .prefixCb c => if fieldX c = 0b01#2 then [] else opndStores (opnd8Of (fieldZ c)) s
  | .ldRR _ _ | .ldRHl _ | .ldRN _ _ | .ldABc | .ldADe | .ldAHli | .ldAHld | .ldANn _ | .ldhAN _ | .ldhAC => []
  | .ldRrNn _ _ | .ldSpHl | .pop _ | .ldHlSpE _ => []
  | .addR _ | .addHl | .addN _ | .adcR _ | .adcHl | .adcN _ | .subR _ | .subHl | .subN _ | .sbcR _ | .sbcHl | .sbcN _ => []
  | .andR _ | .andHl | .andN _ | .xorR _ | .xorHl | .xorN _ | .orR _ | .orHl | .orN _ | .cpR _ | .cpHl | .cpN _ => []
  | .incR _ | .decR _ | .daa | .cpl | .scf | .ccf | .addHlRr _ | .incRr _ | .decRr _ | .addSpE _ => []
  | .rlca | .rrca | .rla | .rra | .jpNn _ | .jpCcNn _ _ | .jpHl | .jrE _ | .jrCcE _ _ | .ret | .retCc _ | .reti => []
  | .nop | .halt | .stop _ | .di | .ei | .bitB _ _ | .illegal _ => []

/-- The addresses the CPU's step stores to from the state `s`: none halted, the two stack bytes in a dispatch, else those of
the instruction at PC (40_engine.md R191, 60_exceptions.md R420). -/
def State.stepStores (s : State) : List Word :=
  if s.halted = true ∧ s.pending = false then []
  else if s.ime = true ∧ s.pending = true then s.pushSlots
  else
    match State.fetch { s with halted := false } with
    | .ok i u => instrStores i u
    | .fatal _ => []

/-! ## Readable and writable addresses -/

/-- An I/O address the block does not own (20_memory.md R96). -/
def IsPIo (a : Word) : Prop := zoneOf a = .io ∧ ioRegOf a = none

/-- A zone whose bytes are the block's own plain arrays (20_memory.md R92 to R95). -/
def IsArray (a : Word) : Prop := zoneOf a = .vram ∨ zoneOf a = .wram ∨ zoneOf a = .oam ∨ zoneOf a = .hram

/-- A read of `a` is answered: not forbidden (20_memory.md R98), not out of RomOnly's bounds (R111), not refused by `P_IO`
(R96). -/
def Readable (s : State) (a : Word) : Prop :=
  zoneOf a ≠ .forbidden ∧
  ((zoneOf a = .rom ∨ zoneOf a = .cartRam) → s.cart.ctl = .romOnly → a.toNat < s.cart.romBytes) ∧
  (IsPIo a → s.ioScript.head? ≠ some .refuse)

/-- A write at `a` is accepted: not forbidden (20_memory.md R98), not refused by `P_IO` (R96). -/
def Writable (s : State) (a : Word) : Prop :=
  zoneOf a ≠ .forbidden ∧ (IsPIo a → s.ioScript.head? ≠ some .refuse)

/-- Both reads of a 16-bit read at `a` and `b`, in this order, are answered (20_memory.md R100, R104). -/
def Readable2 (s : State) (a b : Word) : Prop :=
  Readable s a ∧ ∀ v u, s.read8 a = .ok v u → Readable u b

/-- Both writes of a 16-bit write, `v` at `a` and then a byte at `b`, are accepted (20_memory.md R100, R103). -/
def Writable2 (s : State) (a : Word) (v : Byte) (b : Word) : Prop :=
  Writable s a ∧ ∀ u, s.write8 a v = .ok () u → Writable u b

/-! ## The forms of the instructions that access memory

Each says where the instruction completes and what it then leaves, and that a refused access enters the fatal state with the
accesses before it kept (60_exceptions.md R401). -/

/-- Load the byte at `a` into `dst`; `n` bytes, `m` M-cycles (41_load8.md). -/
def LoadForm (i : Instr) (s : State) (a : Word) (dst : R8) (n : Word) (m : Nat) : Prop :=
  (Readable s a → ∃ v u t, s.read8 a = .ok v u ∧
    Answers i s u t { s.retires n m with regs := [dst] } ∧ t.getR8 dst = v) ∧
  (∀ u, s.read8 a = .fatal u → exec i s = .next (u.setPc (s.regs.pc + n)))

/-- Load A from `x[HL]`, then add `delta` to HL (41_load8.md R239, R240). -/
def LoadStepForm (i : Instr) (s : State) (delta : Word) : Prop :=
  (Readable s s.hl → ∃ v u t, s.read8 s.hl = .ok v u ∧
    Answers i s u t { s.retires 1 2 with regs := [.a, .h, .l] } ∧ t.getR8 .a = v ∧ t.getRR .hl = s.getRR .hl + delta) ∧
  (∀ u, s.read8 s.hl = .fatal u → exec i s = .next (u.setPc (s.regs.pc + 1)))

/-- Store `v` at `a`; `n` bytes, `m` M-cycles (41_load8.md). -/
def StoreForm (i : Instr) (s : State) (a : Word) (v : Byte) (n : Word) (m : Nat) : Prop :=
  (Writable s a → ∃ u t, s.write8 a v = .ok () u ∧ Answers i s u t { s.retires n m with stored := [a] }) ∧
  (∀ u, s.write8 a v = .fatal u → exec i s = .next (u.setPc (s.regs.pc + n)))

/-- Store A at `x[HL]`, then add `delta` to HL (41_load8.md R241, R242). -/
def StoreStepForm (i : Instr) (s : State) (delta : Word) : Prop :=
  (Writable s s.hl → ∃ u t, s.write8 s.hl (s.getR8 .a) = .ok () u ∧
    Answers i s u t { s.retires 1 2 with regs := [.h, .l], stored := [s.hl] } ∧ t.getRR .hl = s.getRR .hl + delta) ∧
  (∀ u, s.write8 s.hl (s.getR8 .a) = .fatal u → exec i s = .next (u.setPc (s.regs.pc + 1)))

/-- An ALU operation on A and the byte at `x[HL]`: `res` gives A and the flags from the old A, the operand and the old flags
(43_alu8.md R280). -/
def AluHlForm (i : Instr) (s : State) (res : Byte → Byte → Flags → Byte × Flags) : Prop :=
  (Readable s s.hl → ∃ v u t, s.read8 s.hl = .ok v u ∧
    Answers i s u t { s.retires 1 2 with regs := [.a], f := (res s.regs.a v s.regs.f).2 } ∧
    t.getR8 .a = (res s.regs.a v s.regs.f).1) ∧
  (∀ u, s.read8 s.hl = .fatal u → exec i s = .next (u.setPc (s.regs.pc + 1)))

/-- The three forms of an ALU operation, `10ooosss`, `10ooo110` and `11ooo110 n`, with their encodings (43_alu8.md R280). -/
def AluForms (ooo : BitVec 3) (onReg : R8 → Instr) (onHl : Instr) (onImm : Byte → Instr)
    (res : Byte → Byte → Flags → Byte × Flags) : Prop :=
  (∀ src, Spells [(0b10#2 ++ ooo ++ src.field : BitVec 8)] (onReg src)) ∧
  Spells [(0b10#2 ++ ooo ++ 0b110#3 : BitVec 8)] onHl ∧
  (∀ n, Spells [(0b11#2 ++ ooo ++ 0b110#3 : BitVec 8), n] (onImm n)) ∧
  (∀ s src, ∃ t,
    Answers (onReg src) s s t { s.retires 1 1 with regs := [.a], f := (res s.regs.a (s.getR8 src) s.regs.f).2 } ∧
    t.getR8 .a = (res s.regs.a (s.getR8 src) s.regs.f).1) ∧
  (∀ s, AluHlForm onHl s res) ∧
  (∀ s n, ∃ t, Answers (onImm n) s s t { s.retires 2 2 with regs := [.a], f := (res s.regs.a n s.regs.f).2 } ∧
    t.getR8 .a = (res s.regs.a n s.regs.f).1)

/-- Read a register, write `res` of it back with the flags; `n` bytes, `m` M-cycles (45_rotate_shift.md R324). -/
def ModifyReg (i : Instr) (s : State) (r : R8) (res : Byte → Flags → Byte × Flags) (n : Word) (m : Nat) : Prop :=
  ∃ t, Answers i s s t { s.retires n m with regs := [r], f := (res (s.getR8 r) s.regs.f).2 } ∧
    t.getR8 r = (res (s.getR8 r) s.regs.f).1

/-- Read the byte at `x[HL]`, write `res` of it back; the read comes first. Where the read is refused nothing changes; where
the write is refused no register does, and the flags are left open (45_rotate_shift.md R324, 43_alu8.md R290; log 13). -/
def ModifyHl (i : Instr) (s : State) (res : Byte → Flags → Byte × Flags) (n : Word) (m : Nat) : Prop :=
  (Readable s s.hl → (∀ v u, s.read8 s.hl = .ok v u → Writable u s.hl) →
    ∃ v u w t, s.read8 s.hl = .ok v u ∧ u.write8 s.hl (res v s.regs.f).1 = .ok () w ∧
      Answers i s w t { s.retires n m with f := (res v s.regs.f).2, stored := [s.hl] }) ∧
  (∀ u, s.read8 s.hl = .fatal u → exec i s = .next (u.setPc (s.regs.pc + n))) ∧
  (∀ v u w, s.read8 s.hl = .ok v u → u.write8 s.hl (res v s.regs.f).1 = .fatal w →
    ∃ f, exec i s = .next ((w.setPc (s.regs.pc + n)).setF f))

/-- A CB form that writes its operand back, on a register and on `(HL)` (45_rotate_shift.md R324). -/
def CbForms (i : Opnd8 → Instr) (res : Byte → Flags → Byte × Flags) : Prop :=
  (∀ s r, ModifyReg (i (.reg r)) s r res 2 2) ∧ (∀ s : State, s.Inv → ModifyHl (i .atHl) s res 2 4)

/-- A rotate or shift of the group `CB 00yyyzzz`: `res` gives the result and the bit shifted out from the operand and the old
C; Z follows the result, N and H are 0 (45_rotate_shift.md R324). -/
def ShiftForms (y : BitVec 3) (i : Opnd8 → Instr) (res : Byte → Bool → Byte × Bool) : Prop :=
  (∀ o : Opnd8, Spells [0xCB, (0b00#2 ++ y ++ o.field : BitVec 8)] (i o)) ∧
  CbForms i (fun v f =>
    ((res v f.c).1, { z := (res v f.c).1 == 0, n := false, h := false, c := (res v f.c).2 }))

/-- An accumulator operation of one byte and one M-cycle (43_alu8.md, 45_rotate_shift.md). -/
def AccForm (byte : Byte) (i : Instr) (res : Byte → Flags → Byte × Flags) : Prop :=
  Spells [byte] i ∧ ∀ s, ModifyReg i s .a res 1 1

/-- Push `v` and leave `pc` in PC: `n` bytes, `m` M-cycles. The high byte goes to `sp - 1` first, the low byte to `sp - 2`; a
refused write leaves SP where it was then, and PC at the next instruction (20_memory.md R103, 60_exceptions.md R401). -/
def PushForm (i : Instr) (s : State) (v pc n : Word) (m : Nat) : Prop :=
  let a := s.regs.sp - 1
  let b := s.regs.sp - 2
  (s.Inv → Writable2 s a (hiByte v) b → ∃ u1 u2 t,
    s.write8 a (hiByte v) = .ok () u1 ∧ u1.write8 b (loByte v) = .ok () u2 ∧
    Answers i s u2 t { s.retires n m with sp := b, pc := pc, stored := [a, b] }) ∧
  (∀ u, s.write8 a (hiByte v) = .fatal u → exec i s = .next ((u.setPc (s.regs.pc + n)).setSp a)) ∧
  (∀ u w, s.write8 a (hiByte v) = .ok () u → u.write8 b (loByte v) = .fatal w →
    exec i s = .next ((w.setPc (s.regs.pc + n)).setSp b))

/-- Pop a word: the low byte at `sp`, the high byte at `sp + 1`; `after` says what the instruction does with the word and the
state the two reads leave. A refused read leaves SP where it was then, and PC at the next instruction (20_memory.md R104,
60_exceptions.md R401). -/
def PopForm (i : Instr) (s : State) (n : Word) (after : Word → State → Prop) : Prop :=
  let a := s.regs.sp
  let b := s.regs.sp + 1
  (Readable2 s a b → ∃ lo hi u1 u2, s.read8 a = .ok lo u1 ∧ u1.read8 b = .ok hi u2 ∧ after (wordOf hi lo) u2) ∧
  (∀ u, s.read8 a = .fatal u → exec i s = .next (u.setPc (s.regs.pc + n))) ∧
  (∀ lo u w, s.read8 a = .ok lo u → u.read8 b = .fatal w →
    exec i s = .next ((w.setPc (s.regs.pc + n)).setSp b))

end Sys2Proof.Machine
end

