-- ==== Sys2Proof/Certificates/Slice0/Obligations.lean ====
section
/-! DEFINITION. The statements for the provers. Each docstring names the rules of spec/ it formalises. -/

open Sys2Proof Sys2Proof.Machine

/-! ## Registers and reset -/

/-- 10_state.md R32, R36: `F` holds Z N H C in bits 7:4, its low nibble reads 0, and a write stores `v & 0xF0`, through the
byte and through the pair AF. -/
def Obligations.FlagsByte : Prop :=
  (∀ f : Flags, f.toByte.getLsbD 7 = f.z ∧ f.toByte.getLsbD 6 = f.n ∧ f.toByte.getLsbD 5 = f.h ∧ f.toByte.getLsbD 4 = f.c ∧
    f.toByte &&& 0x0F = 0) ∧
  (∀ v, (Flags.ofByte v).toByte = v &&& 0xF0) ∧
  (∀ (s : State) (v : Word), (s.setQQ .af v).regs.f.toByte = loByte v &&& 0xF0)

/-- 10_state.md R33, R34, R32: the pairs are views of two 8-bit registers, the first the high byte; a pair write changes both
halves and nothing else (no other register, not SP or PC, no field outside the register file), and a write of a half, `F`
with its mask, shows in the pair. -/
def Obligations.PairViews : Prop :=
  (∀ s : State, s.getQQ .af = wordOf (s.getR8 .a) s.regs.f.toByte ∧ s.getQQ .bc = wordOf (s.getR8 .b) (s.getR8 .c) ∧
    s.getQQ .de = wordOf (s.getR8 .d) (s.getR8 .e) ∧ s.getQQ .hl = wordOf (s.getR8 .h) (s.getR8 .l) ∧
    s.getRR .bc = s.getQQ .bc ∧ s.getRR .de = s.getQQ .de ∧ s.getRR .hl = s.getQQ .hl ∧ s.getRR .sp = s.regs.sp) ∧
  (∀ hi lo, (wordOf hi lo).toNat = hi.toNat * 256 + lo.toNat) ∧
  (∀ (s : State) (v : Word),
    (s.setQQ .bc v).getR8 .b = hiByte v ∧ (s.setQQ .bc v).getR8 .c = loByte v ∧
    (s.setQQ .de v).getR8 .d = hiByte v ∧ (s.setQQ .de v).getR8 .e = loByte v ∧
    (s.setQQ .hl v).getR8 .h = hiByte v ∧ (s.setQQ .hl v).getR8 .l = loByte v ∧
    (s.setQQ .af v).getR8 .a = hiByte v ∧ (s.setQQ .af v).getQQ .af = v &&& 0xFFF0) ∧
  (∀ (s : State) (q : QQ) (v : Word), q ≠ .af → (s.setQQ q v).getQQ q = v ∧ (s.setQQ q v).regs.f = s.regs.f) ∧
  (∀ (s : State) (q : QQ) (v : Word) (r : R8), r ∉ q.halves → (s.setQQ q v).getR8 r = s.getR8 r) ∧
  (∀ (s : State) (p : RR) (v : Word), (s.setRR p v).getRR p = v ∧ (s.setRR p v).regs.f = s.regs.f ∧
    ∀ r, r ∉ p.halves → (s.setRR p v).getR8 r = s.getR8 r) ∧
  (∀ (s : State) (q : QQ) (v : Word),
    s.setQQ q v = { s with regs := { (s.setQQ q v).regs with sp := s.regs.sp, pc := s.regs.pc } }) ∧
  (∀ (s : State) (p : RR) (v : Word),
    s.setRR p v = { s with regs := { (s.setRR p v).regs with pc := s.regs.pc } } ∧
    (p ≠ .sp → (s.setRR p v).regs.sp = s.regs.sp)) ∧
  (∀ (s : State) (u : Byte),
    (s.setF (Flags.ofByte u)).getQQ .af = wordOf (s.getR8 .a) (u &&& 0xF0) ∧
    hiByte ((s.setR8 .b u).getQQ .bc) = u ∧ loByte ((s.setR8 .c u).getQQ .bc) = u ∧
    hiByte ((s.setR8 .d u).getQQ .de) = u ∧ loByte ((s.setR8 .e u).getQQ .de) = u ∧
    hiByte ((s.setR8 .h u).getQQ .hl) = u ∧ loByte ((s.setR8 .l u).getQQ .hl) = u ∧
    hiByte ((s.setR8 .a u).getQQ .af) = u)

/-- 70_reset_and_hazards.md R461, R463: the registers, the hidden CPU state and the interrupt controller after reset. -/
def Obligations.ResetRegisters : Prop :=
  let s := State.reset
  s.getR8 .a = 0x01 ∧ s.regs.f.toByte = 0xB0 ∧ s.getR8 .b = 0x00 ∧ s.getR8 .c = 0x13 ∧ s.getR8 .d = 0x00 ∧
    s.getR8 .e = 0xD8 ∧ s.getR8 .h = 0x01 ∧ s.getR8 .l = 0x4D ∧ s.regs.sp = 0xFFFE ∧ s.regs.pc = 0x0100 ∧
    s.getQQ .af = 0x01B0 ∧ s.getQQ .bc = 0x0013 ∧ s.getQQ .de = 0x00D8 ∧ s.getQQ .hl = 0x014D ∧
    s.ime = false ∧ s.imePending = false ∧ s.halted = false ∧ s.fatal = none ∧ s.ie = 0x00 ∧ s.ifl = 0x01

/-- 70_reset_and_hazards.md R461, R463 to R465: every constructed block starts with the reset values; the timer's counter is
the parameter; under either controller the ROM windows read banks 0 and 1, and under MBC1 the RAM window reads 0xFF. -/
def Obligations.ConstructedState : Prop :=
  ∀ (p : Params) (s : State), construct p = .ok s →
    s.regs = State.reset.regs ∧ s.ime = false ∧ s.imePending = false ∧ s.halted = false ∧ s.fatal = none ∧
    s.ie = 0x00 ∧ s.ifl = 0x01 ∧
    s.timer = { div := p.divInit, tima := 0x00, tma := 0x00, tac := 0b000 } ∧
    (∀ m, s.cart.ctl = .mbc1 m → m = { ramEn := false, romb := 0, bank2 := 0, mode := 0 } ∧
      ∀ a : Word, zoneOf a = .cartRam → s.peek a = some 0xFF) ∧
    (∀ a : Word, zoneOf a = .rom → s.peek a = some (p.rom.at a.toNat))

/-- 20_memory.md R128, 60_exceptions.md R404, 70_reset_and_hazards.md R462: the memories of a constructed block, and the
buffer handed back. -/
def Obligations.ConstructedMemories : Prop :=
  ∀ (p : Params) (s : State), construct p = .ok s →
    (∀ a : Word, IsArray a → s.peek a = some (memRead p.initMem a.toNat)) ∧
    (∀ k, k < s.cart.romBytes → memRead s.cart.rom k = p.rom.at k) ∧
    (p.save.size = s.cart.ramBytes → s.log = [] ∧ ∀ k, k < s.cart.ramBytes → memRead s.cart.ram k = p.save.at k) ∧
    (p.save.size ≠ s.cart.ramBytes → s.log = [.saveRamSize] ∧ ∀ k, memRead s.cart.ram k = 0x00) ∧
    s.saveBuffer.size = s.cart.ramBytes ∧ ∀ k, s.saveBuffer.at k = memRead s.cart.ram k

/-- 20_memory.md R121, R122, R124 to R127, 60_exceptions.md R403: the header's checks in their order, the first that fails
giving its fatal; and where all pass, the controller and the sizes. -/
def Obligations.ConstructionChecks : Prop :=
  ConfigFatal.badHeader.code = 16 ∧ ConfigFatal.unknownCartType.code = 17 ∧ ConfigFatal.romSizeMismatch.code = 18 ∧
  ∀ p : Params,
    let target := (p.rom.at 0x143).toNat
    let kind := (p.rom.at 0x147).toNat
    let romCode := (p.rom.at 0x148).toNat
    let ramCode := (p.rom.at 0x149).toNat
    if p.rom.size < 0x150 then construct p = .error .badHeader
    else if ¬ (target = 0x80 ∨ target = 0xC0 ∨ target = 0x00 ∨ (0x20 ≤ target ∧ target ≤ 0x7E)) then
      construct p = .error .badHeader
    else if kind > 0x03 then construct p = .error .unknownCartType
    else if romCode > 8 then construct p = .error .badHeader
    else if ramCode = 1 ∨ ramCode > 5 then construct p = .error .badHeader
    else if p.rom.size ≠ 0x8000 * 2 ^ romCode then construct p = .error .romSizeMismatch
    else ∃ s, construct p = .ok s ∧ s.cart.romBytes = 0x8000 * 2 ^ romCode ∧
      (kind = 0 → s.cart.ctl = .romOnly) ∧ (kind ≠ 0 → ∃ m, s.cart.ctl = .mbc1 m) ∧
      s.cart.ramBytes =
        (if ramCode = 0 then 0 else if ramCode = 2 then 8 * 1024 else if ramCode = 3 then 32 * 1024
         else if ramCode = 4 then 128 * 1024 else 64 * 1024)

/-- 70_reset_and_hazards.md R460: the model's reset state is a constructed block, that of a blank RomOnly image; the image,
the memories' 0x00 and the counter's 0x0000 are the model's choice (log 2, 3, 4). It meets the invariant. -/
def Obligations.ResetIsConstructed : Prop :=
  construct { rom := { size := 0x8000, bytes := [] }, save := { size := 0, bytes := [] }, initMem := [], divInit := 0x0000,
              unimplemented := [], ioScript := [], agents := [] } = .ok State.reset ∧
  State.reset.Inv

/-- 10_state.md R49, 70_reset_and_hazards.md R460: construction establishes the invariant. -/
def Obligations.ConstructedInv : Prop := ∀ (p : Params) (s : State), construct p = .ok s → s.Inv

/-- 10_state.md R49, R51: every step keeps the invariant: the arrays stay in canonical form inside their zones, the
cartridge's arrays inside their sizes, and the sizes legal. -/
def Obligations.StepKeepsInv : Prop := ∀ s t : State, s.Inv → step s = .next t → t.Inv

/-! ## Memory and the cartridge -/

/-- 20_memory.md R82: the zones are disjoint and cover the address space, with the ranges of R81. -/
def Obligations.AddressMap : Prop :=
  ∀ a : Word,
    (zoneOf a = .rom ↔ a.toNat ≤ 0x7FFF) ∧ (zoneOf a = .vram ↔ 0x8000 ≤ a.toNat ∧ a.toNat ≤ 0x9FFF) ∧
    (zoneOf a = .cartRam ↔ 0xA000 ≤ a.toNat ∧ a.toNat ≤ 0xBFFF) ∧ (zoneOf a = .wram ↔ 0xC000 ≤ a.toNat ∧ a.toNat ≤ 0xDFFF) ∧
    (zoneOf a = .forbidden ↔ (0xE000 ≤ a.toNat ∧ a.toNat ≤ 0xFDFF) ∨ (0xFEA0 ≤ a.toNat ∧ a.toNat ≤ 0xFEFF)) ∧
    (zoneOf a = .oam ↔ 0xFE00 ≤ a.toNat ∧ a.toNat ≤ 0xFE9F) ∧ (zoneOf a = .io ↔ 0xFF00 ≤ a.toNat ∧ a.toNat ≤ 0xFF7F) ∧
    (zoneOf a = .hram ↔ 0xFF80 ≤ a.toNat ∧ a.toNat ≤ 0xFFFE) ∧ (zoneOf a = .ie ↔ a = 0xFFFF)

/-- 20_memory.md R92 to R95: VRAM, WRAM, OAM and HRAM are plain arrays: a write stores its byte and nothing else, a read
returns the stored byte and changes nothing, and neither faults. -/
def Obligations.PlainArrays : Prop :=
  ∀ (s : State) (a : Word) (v : Byte), IsArray a →
    (∃ t, s.write8 a v = .ok () t ∧ t = { s with mem := t.mem } ∧ t.peek a = some v ∧
      ∀ b, b ≠ a → t.peek b = s.peek b) ∧
    (∀ k, ∃ w, s.peek a = some w ∧ s.busRead a k = .ok w s)

/-- 20_memory.md R98: any read, write or fetch in a forbidden zone raises, stores nothing and returns no value. -/
def Obligations.ForbiddenZones : Prop :=
  ∀ (s : State) (a : Word), ((0xE000 ≤ a.toNat ∧ a.toNat ≤ 0xFDFF) ∨ (0xFEA0 ≤ a.toNat ∧ a.toNat ≤ 0xFEFF)) →
    (∀ k, s.busRead a k = .fatal { s with fatal := some (.forbiddenAddress a k), elapsed := none }) ∧
    (∀ v, s.busWrite a v = .fatal { s with fatal := some (.forbiddenAddress a .write), elapsed := none })

/-- 20_memory.md R97, 60_exceptions.md R413, R414, R434 to R437: the I/O registers the block owns, and IE. -/
def Obligations.OwnedRegisters : Prop :=
  ∀ (s : State) (k : Access) (v : Byte),
    s.busRead 0xFF04 k = .ok (hiByte s.timer.div) s ∧
    s.busWrite 0xFF04 v = .ok () { s with timer := { s.timer with div := 0 } } ∧
    s.busRead 0xFF05 k = .ok s.timer.tima s ∧
    s.busWrite 0xFF05 v = .ok () { s with timer := { s.timer with tima := v } } ∧
    s.busRead 0xFF06 k = .ok s.timer.tma s ∧
    s.busWrite 0xFF06 v = .ok () { s with timer := { s.timer with tma := v } } ∧
    s.busRead 0xFF07 k = .ok (s.timer.tac.setWidth 8) s ∧
    s.busWrite 0xFF07 v = .ok () { s with timer := { s.timer with tac := (v &&& 0x07).setWidth 3 } } ∧
    s.busRead 0xFF0F k = .ok (s.ifl.setWidth 8) s ∧
    s.busWrite 0xFF0F v = .ok () { s with ifl := (v &&& 0x1F).setWidth 5 } ∧
    s.busRead 0xFFFF k = .ok (s.ie.setWidth 8) s ∧
    s.busWrite 0xFFFF v = .ok () { s with ie := (v &&& 0x1F).setWidth 5 }

/-- 20_memory.md R96, R99: every other I/O address is the collaborator's: a read returns what it answers, any byte, or it
raises FATAL_IO; a write is accepted or refused; no register, memory or flag of the block changes. The script and the free
value that stand for the collaborator are the model's own (log 5, 6); the clauses hold for every script and every value. -/
def Obligations.IoCollaborator : Prop :=
  ∀ (s : State) (a : Word) (k : Access) (v : Byte),
    (0xFF00 ≤ a.toNat ∧ a.toNat ≤ 0xFF7F) →
    a ≠ 0xFF04 → a ≠ 0xFF05 → a ≠ 0xFF06 → a ≠ 0xFF07 → a ≠ 0xFF0F →
    (∀ w rest, s.ioScript = .answer w :: rest →
      s.busRead a k = .ok w { s with ioScript := rest } ∧ s.busWrite a v = .ok () { s with ioScript := rest }) ∧
    (∀ rest, s.ioScript = .refuse :: rest →
      s.busRead a k = .fatal { s with ioScript := rest, fatal := some (.io a), elapsed := none } ∧
      s.busWrite a v = .fatal { s with ioScript := rest, fatal := some (.io a), elapsed := none }) ∧
    (s.ioScript = [] → (∃ w, s.busRead a k = .ok w { s with draws := s.draws + 1 }) ∧ s.busWrite a v = .ok () s)

/-- 20_memory.md R90, R91, R96, R98, R99, R111: an access is answered exactly where `Readable` and `Writable` say, a read the
block owns changes nothing and does not depend on its kind, and a refused access raises the fatal of its zone and changes
nothing else of the block. At an address the block does not own, where the spec lets the collaborator answer or refuse freely
(R96), the model's script decides, and an unscripted access is never refused: the model's choice (log 5, 6). -/
def Obligations.AnsweredAccesses : Prop :=
  (∀ (s : State) (a : Word), (∃ v u, s.read8 a = .ok v u) ↔ Readable s a) ∧
  (∀ (s : State) (a : Word) (v : Byte), (∃ u, s.write8 a v = .ok () u) ↔ Writable s a) ∧
  (∀ (s u : State) (a : Word) (k k' : Access) (v : Byte), ¬ IsPIo a → s.busRead a k = .ok v u →
    u = s ∧ s.busRead a k' = .ok v u) ∧
  (∀ (s u : State) (a : Word) (k : Access), s.busRead a k = .fatal u →
    ∃ f, u = { s with fatal := some f, elapsed := none, ioScript := u.ioScript } ∧
      (zoneOf a = .forbidden → f = .forbiddenAddress a k) ∧ (IsPIo a → f = .io a) ∧
      (zoneOf a = .rom ∨ zoneOf a = .cartRam → f = .romOutOfBounds a)) ∧
  (∀ (s u : State) (a : Word) (v : Byte), s.write8 a v = .fatal u →
    ∃ f, u = { s with fatal := some f, elapsed := none, ioScript := u.ioScript } ∧
      (zoneOf a = .forbidden → f = .forbiddenAddress a .write) ∧ (IsPIo a → f = .io a))

/-- 20_memory.md R113 to R116: a write at 0x0000 to 0x7FFF sets one MBC1 register and nothing else. -/
def Obligations.Mbc1BankRegisters : Prop :=
  ∀ (s : State) (m : Mbc1) (a : Word) (v : Byte), s.cart.ctl = .mbc1 m →
    (a.toNat ≤ 0x1FFF → s.write8 a v =
      .ok () { s with cart := { s.cart with ctl := .mbc1 { m with ramEn := decide (v.toNat % 16 = 0xA) } } }) ∧
    (0x2000 ≤ a.toNat → a.toNat ≤ 0x3FFF → s.write8 a v =
      .ok () { s with cart := { s.cart with ctl := .mbc1 { m with romb := BitVec.ofNat 5 (v &&& 0x1F).toNat } } }) ∧
    (0x4000 ≤ a.toNat → a.toNat ≤ 0x5FFF → s.write8 a v =
      .ok () { s with cart := { s.cart with ctl := .mbc1 { m with bank2 := BitVec.ofNat 2 (v &&& 0x03).toNat } } }) ∧
    (0x6000 ≤ a.toNat → a.toNat ≤ 0x7FFF → s.write8 a v =
      .ok () { s with cart := { s.cart with ctl := .mbc1 { m with mode := BitVec.ofNat 1 (v &&& 0x01).toNat } } })

/-- 20_memory.md R117, R118: what the two ROM windows read under MBC1. -/
def Obligations.Mbc1RomWindows : Prop :=
  ∀ (s : State) (m : Mbc1) (a : Word) (k : Access), s.cart.ctl = .mbc1 m →
    (a.toNat ≤ 0x3FFF → s.busRead a k =
      .ok (memRead s.cart.rom
        (((if m.mode = 1 then m.bank2.toNat * 32 else 0) * 0x4000 + a.toNat) % s.cart.romBytes)) s) ∧
    (0x4000 ≤ a.toNat → a.toNat ≤ 0x7FFF →
      let bank := m.bank2.toNat * 32 + (if m.romb.toNat = 0 then 1 else m.romb.toNat)
      s.busRead a k = .ok (memRead s.cart.rom ((bank * 0x4000 + (a.toNat - 0x4000)) % s.cart.romBytes)) s)

/-- 20_memory.md R118, its own inference: because the ROM is whole banks, the switchable window reads the bank number modulo
the number of banks. -/
def Obligations.Mbc1BankWraps : Prop :=
  ∀ (s : State) (m : Mbc1) (a : Word) (k : Access), s.Inv → s.cart.ctl = .mbc1 m → 0x4000 ≤ a.toNat → a.toNat ≤ 0x7FFF →
    let bank := m.bank2.toNat * 32 + (if m.romb.toNat = 0 then 1 else m.romb.toNat)
    s.busRead a k =
      .ok (memRead s.cart.rom ((bank % (s.cart.romBytes / 0x4000)) * 0x4000 + (a.toNat - 0x4000))) s

/-- 20_memory.md R119, R120: the cartridge-RAM window under MBC1. -/
def Obligations.Mbc1RamWindow : Prop :=
  ∀ (s : State) (m : Mbc1) (a : Word) (k : Access) (v : Byte), s.cart.ctl = .mbc1 m →
    0xA000 ≤ a.toNat → a.toNat ≤ 0xBFFF →
    let off := ((if m.mode = 1 then m.bank2.toNat else 0) * 0x2000 + (a.toNat - 0xA000)) % s.cart.ramBytes
    (m.ramEn = false ∨ s.cart.ramBytes = 0 → s.busRead a k = .ok 0xFF s ∧ s.busWrite a v = .ok () s) ∧
    (m.ramEn = true → s.cart.ramBytes ≠ 0 →
      s.busRead a k = .ok (memRead s.cart.ram off) s ∧
      ∃ t, s.busWrite a v = .ok () t ∧ t = { s with cart := { s.cart with ram := t.cart.ram } } ∧
        ∀ j, memRead t.cart.ram j = if j = off then v else memRead s.cart.ram j)

/-- 20_memory.md R111, R112: a RomOnly read is bounds-checked, and a RomOnly write has no effect. -/
def Obligations.RomOnlyCartridge : Prop :=
  ∀ (s : State) (a : Word) (k : Access) (v : Byte), s.cart.ctl = .romOnly →
    (a.toNat ≤ 0x7FFF ∨ (0xA000 ≤ a.toNat ∧ a.toNat ≤ 0xBFFF)) →
    (a.toNat < s.cart.romBytes → s.busRead a k = .ok (memRead s.cart.rom a.toNat) s) ∧
    (s.cart.romBytes ≤ a.toNat → s.busRead a k = .fatal { s with fatal := some (.romOutOfBounds a), elapsed := none }) ∧
    s.busWrite a v = .ok () s

/-- 20_memory.md R100, R102 to R104: words lie little-endian, the second address wraps, and a pop gives back what a push
stored. The clauses are for the plain arrays, where every byte written reads back. -/
def Obligations.WordsInMemory : Prop :=
  (∀ (s : State) (a v : Word), IsArray a → IsArray (a + 1) →
    ∃ t, s.write16 a v = .ok () t ∧ t = { s with mem := t.mem } ∧ t.peek a = some (loByte v) ∧
      t.peek (a + 1) = some (hiByte v) ∧ t.read16 a = .ok v t ∧ ∀ b, b ≠ a → b ≠ a + 1 → t.peek b = s.peek b) ∧
  (∀ (s : State) (v : Word), IsArray (s.regs.sp - 1) → IsArray (s.regs.sp - 2) →
    ∃ t, s.push16 v = .ok () t ∧ t = { s with regs := { s.regs with sp := s.regs.sp - 2 }, mem := t.mem } ∧
      t.peek (s.regs.sp - 1) = some (hiByte v) ∧ t.peek (s.regs.sp - 2) = some (loByte v) ∧
      t.read16 t.regs.sp = .ok v t ∧ t.pop16 = .ok v { t with regs := s.regs } ∧
      ∀ b, b ≠ s.regs.sp - 1 → b ≠ s.regs.sp - 2 → t.peek b = s.peek b) ∧
  (∀ (s : State) (lo hi : Byte), s.peek 0xFFFF = some lo → s.peek 0x0000 = some hi →
    s.read16 0xFFFF = .ok (wordOf hi lo) s)

/-! ## Encoding -/

/-- 30_encoding.md R150 to R166, R172: the bytes of an instruction decode to it, whatever follows them. -/
def Obligations.DecodeEncode : Prop :=
  ∀ (i : Instr) (rest : List Byte), i.WellFormed → decode (encode i ++ rest) = .ok (i, rest)

/-- 30_encoding.md R172, R173: the decoder answers only instructions, each from its own bytes. -/
def Obligations.EncodeDecode : Prop :=
  ∀ (bs rest : List Byte) (i : Instr), decode bs = .ok (i, rest) → i.WellFormed ∧ bs = encode i ++ rest

/-- 30_encoding.md R172: exactly one row of the opcode table is selected by every first byte, the escape byte 0xCB with its
row PREFIX_CB among them, and by every byte after 0xCB; and the decoder answers that row's form, for 0xCB the row of the byte
after it. -/
def Obligations.DecoderFollowsTable : Prop :=
  (∀ o b1 b2 : Byte, o ≠ 0xCB →
    ((firstRows.filter (fun r => r.selects o)).map (fun r => r.row)) = [(decodeWords o b1 b2).row]) ∧
  (∀ c : Byte, ((firstRows.filter (fun r => r.selects 0xCB)).map (fun r => r.row)) = [(Instr.prefixCb c).row]) ∧
  (∀ c b2 : Byte, ((cbRows.filter (fun r => r.selects c)).map (fun r => r.row)) = [(decodeWords 0xCB c b2).row])

/-- 30_encoding.md R154, R165, R166 and the examples of 41 to 48: words written out from the spec decode to the instructions
they stand for. -/
def Obligations.SpecWords : Prop :=
  decode [0xC3, 0x37, 0x06] = .ok (.jpNn 0x0637, []) ∧ decode [0x48] = .ok (.ldRR .c .b, []) ∧
  decode [0x3E, 0x42] = .ok (.ldRN .a 0x42, []) ∧ decode [0x21, 0x34, 0x12] = .ok (.ldRrNn .hl 0x1234, []) ∧
  decode [0xD1] = .ok (.pop .de, []) ∧ decode [0x80] = .ok (.addR .b, []) ∧ decode [0x13] = .ok (.incRr .de, []) ∧
  decode [0x07] = .ok (.rlca, []) ∧ decode [0xCA, 0x00, 0x02] = .ok (.jpCcNn .z 0x0200, []) ∧
  decode [0xEF] = .ok (.rst 5, []) ∧ decode [0x76] = .ok (.halt, []) ∧ decode [0xCB, 0x37] = .ok (.swap (.reg .a), []) ∧
  decode [0xCB, 0x7E] = .ok (.bitB 7 .atHl, []) ∧ decode [0xDD] = .ok (.illegal 0xDD, [])

/-- 30_encoding.md R164: the first byte alone fixes the length. -/
def Obligations.LengthFromFirstByte : Prop :=
  ∀ o b1 b2 : Byte,
    (decodeWords o b1 b2).length = firstLength o ∧ (encode (decodeWords o b1 b2)).length = firstLength o ∧
    firstLength o =
      if o ∈ ([0x01, 0x11, 0x21, 0x31, 0x08, 0xC2, 0xCA, 0xD2, 0xDA, 0xC3, 0xC4, 0xCC, 0xD4, 0xDC, 0xCD, 0xEA, 0xFA] : List Byte)
      then 3
      else if o ∈ ([0xCB, 0x10, 0x06, 0x0E, 0x16, 0x1E, 0x26, 0x2E, 0x36, 0x3E, 0x18, 0x20, 0x28, 0x30, 0x38, 0xC6, 0xCE, 0xD6,
        0xDE, 0xE6, 0xEE, 0xF6, 0xFE, 0xE0, 0xF0, 0xE8, 0xF8] : List Byte) then 2
      else 1

/-- 30_encoding.md R170, 48_misc.md R376, 60_exceptions.md R401: the eleven illegal first bytes decode to the row (illegal), no
other byte does, and its meaning raises FATAL_UNKNOWN_OPCODE with PC at the origin. The spec raises while it decodes; that the
byte decodes to an instruction whose meaning raises is the model's reading (log 12, DEDUCED). -/
def Obligations.IllegalBytes : Prop :=
  (∀ (o : Byte) (rest : List Byte),
    decode (o :: rest) = .ok (.illegal o, rest) ↔
      o ∈ ([0xD3, 0xDB, 0xDD, 0xE3, 0xE4, 0xEB, 0xEC, 0xED, 0xF4, 0xFC, 0xFD] : List Byte)) ∧
  (∀ (s : State) (o : Byte), (Instr.illegal o).WellFormed →
    EntersFatal (.illegal o) s (.unknownOpcode o none s.regs.pc) s.regs.pc)

/-! ## 8-bit and 16-bit loads -/

/-- 41_load8.md R230, R233. -/
def Obligations.RegisterLoads : Prop :=
  (∀ dst src : R8, Spells [(0b01#2 ++ dst.field ++ src.field : BitVec 8)] (.ldRR dst src)) ∧
  (∀ (dst : R8) (n : Byte), Spells [(0b00#2 ++ dst.field ++ 0b110#3 : BitVec 8), n] (.ldRN dst n)) ∧
  (∀ (s : State) (dst src : R8), ∃ t,
    Answers (.ldRR dst src) s s t { s.retires 1 1 with regs := [dst] } ∧ t.getR8 dst = s.getR8 src) ∧
  (∀ (s : State) (dst : R8) (n : Byte), ∃ t,
    Answers (.ldRN dst n) s s t { s.retires 2 2 with regs := [dst] } ∧ t.getR8 dst = n)

/-- 41_load8.md R231, R235, R236, R239, R240, R243, R245, R247: the loads from memory; no flag changes. -/
def Obligations.MemoryLoads : Prop :=
  (∀ dst : R8, Spells [(0b01#2 ++ dst.field ++ 0b110#3 : BitVec 8)] (.ldRHl dst)) ∧
  Spells [0x0A] .ldABc ∧ Spells [0x1A] .ldADe ∧ Spells [0x2A] .ldAHli ∧ Spells [0x3A] .ldAHld ∧
  (∀ lo hi : Byte, Spells [0xFA, lo, hi] (.ldANn (wordOf hi lo))) ∧ (∀ n : Byte, Spells [0xF0, n] (.ldhAN n)) ∧
  Spells [0xF2] .ldhAC ∧
  (∀ (s : State) (dst : R8), LoadForm (.ldRHl dst) s (s.getRR .hl) dst 1 2) ∧
  (∀ s : State, LoadForm .ldABc s (s.getRR .bc) .a 1 2) ∧
  (∀ s : State, LoadForm .ldADe s (s.getRR .de) .a 1 2) ∧
  (∀ s : State, LoadStepForm .ldAHli s 1) ∧
  (∀ s : State, LoadStepForm .ldAHld s (-1)) ∧
  (∀ (s : State) (nn : Word), LoadForm (.ldANn nn) s nn .a 3 4) ∧
  (∀ (s : State) (n : Byte), LoadForm (.ldhAN n) s (BitVec.ofNat 16 (0xFF00 + n.toNat)) .a 2 3) ∧
  (∀ s : State, LoadForm .ldhAC s (BitVec.ofNat 16 (0xFF00 + (s.getR8 .c).toNat)) .a 1 2)

/-- 41_load8.md R232, R234, R237, R238, R241, R242, R244, R246, R248: the stores; no flag changes. -/
def Obligations.MemoryStores : Prop :=
  (∀ src : R8, Spells [(0b01110#5 ++ src.field : BitVec 8)] (.ldHlR src)) ∧
  (∀ n : Byte, Spells [0x36, n] (.ldHlN n)) ∧ Spells [0x02] .ldBcA ∧ Spells [0x12] .ldDeA ∧ Spells [0x22] .ldHliA ∧
  Spells [0x32] .ldHldA ∧ (∀ lo hi : Byte, Spells [0xEA, lo, hi] (.ldNnA (wordOf hi lo))) ∧
  (∀ n : Byte, Spells [0xE0, n] (.ldhNA n)) ∧ Spells [0xE2] .ldhCA ∧
  ∀ s : State, s.Inv →
    (∀ src : R8, StoreForm (.ldHlR src) s (s.getRR .hl) (s.getR8 src) 1 2) ∧
    (∀ n : Byte, StoreForm (.ldHlN n) s (s.getRR .hl) n 2 3) ∧
    StoreForm .ldBcA s (s.getRR .bc) (s.getR8 .a) 1 2 ∧
    StoreForm .ldDeA s (s.getRR .de) (s.getR8 .a) 1 2 ∧
    StoreStepForm .ldHliA s 1 ∧
    StoreStepForm .ldHldA s (-1) ∧
    (∀ nn : Word, StoreForm (.ldNnA nn) s nn (s.getR8 .a) 3 4) ∧
    (∀ n : Byte, StoreForm (.ldhNA n) s (BitVec.ofNat 16 (0xFF00 + n.toNat)) (s.getR8 .a) 2 3) ∧
    StoreForm .ldhCA s (BitVec.ofNat 16 (0xFF00 + (s.getR8 .c).toNat)) (s.getR8 .a) 1 2

/-- 42_load16.md R260, R261, R262, R265: the 16-bit loads. `LD (nn),SP` stores the low byte first. -/
def Obligations.PairLoads : Prop :=
  (∀ (p : RR) (lo hi : Byte), Spells [(0b00#2 ++ p.field ++ 0b0001#4 : BitVec 8), lo, hi] (.ldRrNn p (wordOf hi lo))) ∧
  (∀ lo hi : Byte, Spells [0x08, lo, hi] (.ldNnSp (wordOf hi lo))) ∧ Spells [0xF9] .ldSpHl ∧
  (∀ e : Byte, Spells [0xF8, e] (.ldHlSpE e)) ∧
  (∀ (s : State) (p : RR) (nn : Word), ∃ t,
    Answers (.ldRrNn p nn) s s t
      { s.retires 3 3 with regs := p.halves, sp := if p = .sp then nn else s.regs.sp } ∧
    t.getRR p = nn) ∧
  (∀ (s : State) (nn : Word),
    (s.Inv → Writable2 s nn (loByte s.regs.sp) (nn + 1) → ∃ u1 u2 t,
      s.write8 nn (loByte s.regs.sp) = .ok () u1 ∧ u1.write8 (nn + 1) (hiByte s.regs.sp) = .ok () u2 ∧
      Answers (.ldNnSp nn) s u2 t { s.retires 3 5 with stored := [nn, nn + 1] }) ∧
    (∀ u, s.write8 nn (loByte s.regs.sp) = .fatal u →
      exec (.ldNnSp nn) s = .next (u.setPc (s.regs.pc + 3))) ∧
    (∀ u w, s.write8 nn (loByte s.regs.sp) = .ok () u → u.write8 (nn + 1) (hiByte s.regs.sp) = .fatal w →
      exec (.ldNnSp nn) s = .next (w.setPc (s.regs.pc + 3)))) ∧
  (∀ s : State, ∃ t, Answers .ldSpHl s s t { s.retires 1 2 with sp := s.getRR .hl }) ∧
  (∀ (s : State) (e : Byte), ∃ t,
    Answers (.ldHlSpE e) s s t
      { s.retires 2 3 with
        regs := [.h, .l]
        f := { z := false, n := false, h := decide (s.regs.sp.toNat % 16 + e.toNat % 16 > 0x0F),
               c := decide (s.regs.sp.toNat % 256 + e.toNat > 0xFF) } } ∧
    t.getRR .hl = s.regs.sp + BitVec.ofInt 16 e.toInt)

/-- 42_load16.md R263, R264. -/
def Obligations.PushAndPop : Prop :=
  (∀ q : QQ, Spells [(0b11#2 ++ q.field ++ 0b0101#4 : BitVec 8)] (.push q)) ∧
  (∀ q : QQ, Spells [(0b11#2 ++ q.field ++ 0b0001#4 : BitVec 8)] (.pop q)) ∧
  (∀ (s : State) (q : QQ), PushForm (.push q) s (s.getQQ q) (s.regs.pc + 1) 1 4) ∧
  (∀ (s : State) (q : QQ), PopForm (.pop q) s 1 (fun v u =>
    ∃ t, Answers (.pop q) s u t
      { s.retires 1 3 with
        regs := q.halves
        f := if q = .af then { z := v.getLsbD 7, n := v.getLsbD 6, h := v.getLsbD 5, c := v.getLsbD 4 } else s.regs.f
        sp := s.regs.sp + 2 } ∧
    t.getQQ q = if q = .af then v &&& 0xFFF0 else v))

/-! ## 8-bit and 16-bit arithmetic -/

/-- 43_alu8.md R280, R281, R282: ADD and ADC, each in its three forms. -/
def Obligations.AddForms : Prop :=
  AluForms 0b000 .addR .addHl .addN (fun a x _ =>
    (BitVec.ofNat 8 (a.toNat + x.toNat),
      { z := decide ((a.toNat + x.toNat) % 256 = 0), n := false, h := decide (a.toNat % 16 + x.toNat % 16 > 0xF),
        c := decide (a.toNat + x.toNat > 0xFF) })) ∧
  AluForms 0b001 .adcR .adcHl .adcN (fun a x f =>
    let c := if f.c then 1 else 0
    (BitVec.ofNat 8 (a.toNat + x.toNat + c),
      { z := decide ((a.toNat + x.toNat + c) % 256 = 0), n := false,
        h := decide (a.toNat % 16 + x.toNat % 16 + c > 0xF), c := decide (a.toNat + x.toNat + c > 0xFF) }))

/-- 43_alu8.md R280, R283, R284, R288: SUB, SBC and CP, each in its three forms. -/
def Obligations.SubForms : Prop :=
  AluForms 0b010 .subR .subHl .subN (fun a x _ =>
    (BitVec.ofInt 8 ((a.toNat : Int) - x.toNat),
      { z := decide (((a.toNat : Int) - x.toNat) % 256 = 0), n := true, h := decide (a.toNat % 16 < x.toNat % 16),
        c := decide (a.toNat < x.toNat) })) ∧
  AluForms 0b011 .sbcR .sbcHl .sbcN (fun a x f =>
    let c := if f.c then 1 else 0
    (BitVec.ofInt 8 ((a.toNat : Int) - x.toNat - (c : Nat)),
      { z := decide (((a.toNat : Int) - x.toNat - (c : Nat)) % 256 = 0), n := true,
        h := decide (a.toNat % 16 < x.toNat % 16 + c), c := decide (a.toNat < x.toNat + c) })) ∧
  AluForms 0b111 .cpR .cpHl .cpN (fun a x _ =>
    (a, { z := decide (((a.toNat : Int) - x.toNat) % 256 = 0), n := true, h := decide (a.toNat % 16 < x.toNat % 16),
          c := decide (a.toNat < x.toNat) }))

/-- 43_alu8.md R280, R285, R286, R287: AND, XOR and OR, each in its three forms. -/
def Obligations.LogicForms : Prop :=
  AluForms 0b100 .andR .andHl .andN (fun a x _ =>
    (a &&& x, { z := decide (a &&& x = 0), n := false, h := true, c := false })) ∧
  AluForms 0b101 .xorR .xorHl .xorN (fun a x _ =>
    (a ^^^ x, { z := decide (a ^^^ x = 0), n := false, h := false, c := false })) ∧
  AluForms 0b110 .orR .orHl .orN (fun a x _ =>
    (a ||| x, { z := decide (a ||| x = 0), n := false, h := false, c := false }))

/-- 43_alu8.md R289 to R292: INC and DEC of a register and of `(HL)`; C is unchanged. -/
def Obligations.IncrementsAndDecrements : Prop :=
  let inc : Byte → Flags → Byte × Flags := fun v f =>
    (v + 1, { z := decide ((v.toNat + 1) % 256 = 0), n := false, h := decide (v.toNat % 16 = 0xF), c := f.c })
  let dec : Byte → Flags → Byte × Flags := fun v f =>
    (v - 1, { z := decide (v.toNat = 1), n := true, h := decide (v.toNat % 16 = 0), c := f.c })
  (∀ r : R8, Spells [(0b00#2 ++ r.field ++ 0b100#3 : BitVec 8)] (.incR r)) ∧ Spells [0x34] .incHl ∧
  (∀ r : R8, Spells [(0b00#2 ++ r.field ++ 0b101#3 : BitVec 8)] (.decR r)) ∧ Spells [0x35] .decHl ∧
  (∀ (s : State) (r : R8), ModifyReg (.incR r) s r inc 1 1 ∧ ModifyReg (.decR r) s r dec 1 1) ∧
  (∀ s : State, s.Inv → ModifyHl .incHl s inc 1 3 ∧ ModifyHl .decHl s dec 1 3)

/-- 43_alu8.md R293 to R296, 45_rotate_shift.md R320 to R323: DAA, CPL, SCF, CCF and the four accumulator rotates, which
clear Z whatever the result. -/
def Obligations.AccumulatorForms : Prop :=
  AccForm 0x27 .daa (fun a f =>
    let c := f.c || (!f.n && decide (a.toNat > 0x99))
    let up := (if c then 0x60 else 0) + (if f.h || (!f.n && decide (a.toNat % 16 > 9)) then 0x06 else 0)
    let r := BitVec.ofInt 8 (if f.n then (a.toNat : Int) - (up : Nat) else (a.toNat : Int) + (up : Nat))
    (r, { z := decide (r = 0), n := f.n, h := false, c := c })) ∧
  AccForm 0x2F .cpl (fun a f => (a ^^^ 0xFF, { z := f.z, n := true, h := true, c := f.c })) ∧
  AccForm 0x37 .scf (fun a f => (a, { z := f.z, n := false, h := false, c := true })) ∧
  AccForm 0x3F .ccf (fun a f => (a, { z := f.z, n := false, h := false, c := !f.c })) ∧
  AccForm 0x07 .rlca (fun a _ =>
    (BitVec.ofNat 8 (a.toNat * 2 + a.toNat / 128), { z := false, n := false, h := false, c := a.getLsbD 7 })) ∧
  AccForm 0x0F .rrca (fun a _ =>
    (BitVec.ofNat 8 (a.toNat / 2 + 128 * (a.toNat % 2)), { z := false, n := false, h := false, c := a.getLsbD 0 })) ∧
  AccForm 0x17 .rla (fun a f =>
    (BitVec.ofNat 8 (a.toNat * 2 + f.c.toNat), { z := false, n := false, h := false, c := a.getLsbD 7 })) ∧
  AccForm 0x1F .rra (fun a f =>
    (BitVec.ofNat 8 (a.toNat / 2 + 128 * f.c.toNat), { z := false, n := false, h := false, c := a.getLsbD 0 }))

/-- 43_alu8.md R282, R284, R293: DAA corrects a sum or a difference of two packed decimal bytes: what it leaves is two decimal
digits again, each at most 9, and with the carry they are those of the decimal operation, the carry in among its operands.
The spec gives the algorithm (R293); that it is the decimal operation is inferred from it. -/
def Obligations.DecimalAdjust : Prop :=
  ∀ (a x : Byte) (f : Flags), a.toNat % 16 ≤ 9 → a.toNat / 16 ≤ 9 → x.toNat % 16 ≤ 9 → x.toNat / 16 ≤ 9 →
    let dec (v : Byte) : Nat := 10 * (v.toNat / 16) + v.toNat % 16
    let sum := aluAdc a x f
    let dif := aluSbc a x f
    let s := daa8 sum.1 sum.2
    let d := daa8 dif.1 dif.2
    (s.1.toNat % 16 ≤ 9 ∧ s.1.toNat / 16 ≤ 9) ∧ (d.1.toNat % 16 ≤ 9 ∧ d.1.toNat / 16 ≤ 9) ∧
    dec s.1 + 100 * s.2.c.toNat = dec a + dec x + f.c.toNat ∧
    dec d.1 + dec x + f.c.toNat = dec a + 100 * d.2.c.toNat

/-- 44_alu16.md R310 to R313. -/
def Obligations.WordArithmetic : Prop :=
  (∀ p : RR, Spells [(0b00#2 ++ p.field ++ 0b1001#4 : BitVec 8)] (.addHlRr p)) ∧
  (∀ p : RR, Spells [(0b00#2 ++ p.field ++ 0b0011#4 : BitVec 8)] (.incRr p)) ∧
  (∀ p : RR, Spells [(0b00#2 ++ p.field ++ 0b1011#4 : BitVec 8)] (.decRr p)) ∧
  (∀ e : Byte, Spells [0xE8, e] (.addSpE e)) ∧
  (∀ (s : State) (p : RR), ∃ t,
    Answers (.addHlRr p) s s t
      { s.retires 1 2 with
        regs := [.h, .l]
        f := { z := s.regs.f.z, n := false,
               h := decide ((s.getRR .hl).toNat % 0x1000 + (s.getRR p).toNat % 0x1000 > 0x0FFF),
               c := decide ((s.getRR .hl).toNat + (s.getRR p).toNat > 0xFFFF) } } ∧
    t.getRR .hl = BitVec.ofNat 16 ((s.getRR .hl).toNat + (s.getRR p).toNat)) ∧
  (∀ (s : State) (p : RR), ∃ t,
    Answers (.incRr p) s s t
      { s.retires 1 2 with regs := p.halves, sp := if p = .sp then s.regs.sp + 1 else s.regs.sp } ∧
    t.getRR p = s.getRR p + 1) ∧
  (∀ (s : State) (p : RR), ∃ t,
    Answers (.decRr p) s s t
      { s.retires 1 2 with regs := p.halves, sp := if p = .sp then s.regs.sp - 1 else s.regs.sp } ∧
    t.getRR p = s.getRR p - 1) ∧
  (∀ (s : State) (e : Byte), ∃ t,
    Answers (.addSpE e) s s t
      { s.retires 2 4 with
        sp := s.regs.sp + BitVec.ofInt 16 e.toInt
        f := { z := false, n := false, h := decide (s.regs.sp.toNat % 16 + e.toNat % 16 > 0x0F),
               c := decide (s.regs.sp.toNat % 256 + e.toNat > 0xFF) } })

/-! ## Rotates, shifts and bits -/

/-- 45_rotate_shift.md R324 to R332. -/
def Obligations.RotatesAndShifts : Prop :=
  ShiftForms 0b000 .rlc (fun v _ => (BitVec.ofNat 8 (v.toNat * 2 + v.toNat / 128), v.getLsbD 7)) ∧
  ShiftForms 0b001 .rrc (fun v _ => (BitVec.ofNat 8 (v.toNat / 2 + 128 * (v.toNat % 2)), v.getLsbD 0)) ∧
  ShiftForms 0b010 .rl (fun v c => (BitVec.ofNat 8 (v.toNat * 2 + c.toNat), v.getLsbD 7)) ∧
  ShiftForms 0b011 .rr (fun v c => (BitVec.ofNat 8 (v.toNat / 2 + 128 * c.toNat), v.getLsbD 0)) ∧
  ShiftForms 0b100 .sla (fun v _ => (BitVec.ofNat 8 (v.toNat * 2), v.getLsbD 7)) ∧
  ShiftForms 0b101 .sra (fun v _ => (BitVec.ofNat 8 (v.toNat / 2 + 128 * (v.toNat / 128)), v.getLsbD 0)) ∧
  ShiftForms 0b110 .swap (fun v _ => (BitVec.ofNat 8 (v.toNat % 16 * 16 + v.toNat / 16), false)) ∧
  ShiftForms 0b111 .srl (fun v _ => (BitVec.ofNat 8 (v.toNat / 2), v.getLsbD 0))

/-- 46_bit.md R340 to R342. -/
def Obligations.SingleBits : Prop :=
  let test (b : BitVec 3) (v : Byte) (f : Flags) : Flags := { z := !v.getLsbD b.toNat, n := false, h := true, c := f.c }
  (∀ (b : BitVec 3) (o : Opnd8), Spells [0xCB, (0b01#2 ++ b ++ o.field : BitVec 8)] (.bitB b o)) ∧
  (∀ (b : BitVec 3) (o : Opnd8), Spells [0xCB, (0b10#2 ++ b ++ o.field : BitVec 8)] (.resB b o)) ∧
  (∀ (b : BitVec 3) (o : Opnd8), Spells [0xCB, (0b11#2 ++ b ++ o.field : BitVec 8)] (.setB b o)) ∧
  (∀ (s : State) (b : BitVec 3) (r : R8), ∃ t,
    Answers (.bitB b (.reg r)) s s t { s.retires 2 2 with f := test b (s.getR8 r) s.regs.f }) ∧
  (∀ (s : State) (b : BitVec 3),
    (Readable s s.hl → ∃ v u t, s.read8 s.hl = .ok v u ∧
      Answers (.bitB b .atHl) s u t { s.retires 2 3 with f := test b v s.regs.f }) ∧
    (∀ u, s.read8 s.hl = .fatal u → exec (.bitB b .atHl) s = .next (u.setPc (s.regs.pc + 2)))) ∧
  (∀ b : BitVec 3, CbForms (.resB b) (fun v f => (v &&& ~~~BitVec.ofNat 8 (2 ^ b.toNat), f))) ∧
  (∀ b : BitVec 3, CbForms (.setB b) (fun v f => (v ||| BitVec.ofNat 8 (2 ^ b.toNat), f)))

/-! ## Control transfer -/

/-- 47_control.md R350 to R355: the conditions and the jumps; a condition that fails leaves PC at the next instruction and
costs one M-cycle less. -/
def Obligations.Jumps : Prop :=
  (∀ f : Flags, (condHolds .nz f = true ↔ f.z = false) ∧ (condHolds .z f = true ↔ f.z = true) ∧
    (condHolds .nc f = true ↔ f.c = false) ∧ (condHolds .c f = true ↔ f.c = true)) ∧
  Cond.nz.field = 0b00 ∧ Cond.z.field = 0b01 ∧ Cond.nc.field = 0b10 ∧ Cond.c.field = 0b11 ∧
  (∀ lo hi : Byte, Spells [0xC3, lo, hi] (.jpNn (wordOf hi lo))) ∧
  (∀ (cc : Cond) (lo hi : Byte),
    Spells [(0b110#3 ++ cc.field ++ 0b010#3 : BitVec 8), lo, hi] (.jpCcNn cc (wordOf hi lo))) ∧
  Spells [0xE9] .jpHl ∧ (∀ e : Byte, Spells [0x18, e] (.jrE e)) ∧
  (∀ (cc : Cond) (e : Byte), Spells [(0b001#3 ++ cc.field ++ 0b000#3 : BitVec 8), e] (.jrCcE cc e)) ∧
  (∀ (s : State) (nn : Word), ∃ t, Answers (.jpNn nn) s s t { s.retires 3 4 with pc := nn }) ∧
  (∀ (s : State) (cc : Cond) (nn : Word),
    (condHolds cc s.regs.f = true → ∃ t, Answers (.jpCcNn cc nn) s s t { s.retires 3 4 with pc := nn }) ∧
    (condHolds cc s.regs.f = false → ∃ t, Answers (.jpCcNn cc nn) s s t (s.retires 3 3))) ∧
  (∀ s : State, ∃ t, Answers .jpHl s s t { s.retires 1 1 with pc := s.getRR .hl }) ∧
  (∀ (s : State) (e : Byte), ∃ t,
    Answers (.jrE e) s s t { s.retires 2 3 with pc := s.regs.pc + 2 + BitVec.ofInt 16 e.toInt }) ∧
  (∀ (s : State) (cc : Cond) (e : Byte),
    (condHolds cc s.regs.f = true → ∃ t,
      Answers (.jrCcE cc e) s s t { s.retires 2 3 with pc := s.regs.pc + 2 + BitVec.ofInt 16 e.toInt }) ∧
    (condHolds cc s.regs.f = false → ∃ t, Answers (.jrCcE cc e) s s t (s.retires 2 2)))

/-- 47_control.md R356, R357, R361: the calls and RST push the address of the next instruction; a call not taken touches no
memory. -/
def Obligations.Calls : Prop :=
  (∀ lo hi : Byte, Spells [0xCD, lo, hi] (.callNn (wordOf hi lo))) ∧
  (∀ (cc : Cond) (lo hi : Byte),
    Spells [(0b110#3 ++ cc.field ++ 0b100#3 : BitVec 8), lo, hi] (.callCcNn cc (wordOf hi lo))) ∧
  (∀ t : BitVec 3, Spells [(0b11#2 ++ t ++ 0b111#3 : BitVec 8)] (.rst t)) ∧
  (∀ (s : State) (nn : Word), PushForm (.callNn nn) s (s.regs.pc + 3) nn 3 6) ∧
  (∀ (s : State) (cc : Cond) (nn : Word),
    (condHolds cc s.regs.f = true → PushForm (.callCcNn cc nn) s (s.regs.pc + 3) nn 3 6) ∧
    (condHolds cc s.regs.f = false → ∃ t, Answers (.callCcNn cc nn) s s t (s.retires 3 3))) ∧
  (∀ (s : State) (t : BitVec 3), PushForm (.rst t) s (s.regs.pc + 1) (BitVec.ofNat 16 (t.toNat * 8)) 1 4)

/-- 47_control.md R358 to R360: the returns; RETI sets IME at once and clears IME_PENDING. -/
def Obligations.Returns : Prop :=
  Spells [0xC9] .ret ∧ (∀ cc : Cond, Spells [(0b110#3 ++ cc.field ++ 0b000#3 : BitVec 8)] (.retCc cc)) ∧
  Spells [0xD9] .reti ∧
  (∀ s : State, PopForm .ret s 1 (fun v u =>
    ∃ t, Answers .ret s u t { s.retires 1 4 with sp := s.regs.sp + 2, pc := v })) ∧
  (∀ (s : State) (cc : Cond),
    (condHolds cc s.regs.f = true → PopForm (.retCc cc) s 1 (fun v u =>
      ∃ t, Answers (.retCc cc) s u t { s.retires 1 5 with sp := s.regs.sp + 2, pc := v })) ∧
    (condHolds cc s.regs.f = false → ∃ t, Answers (.retCc cc) s s t (s.retires 1 2))) ∧
  (∀ s : State, PopForm .reti s 1 (fun v u =>
    ∃ t, Answers .reti s { u with ime := true, imePending := false } t
      { s.retires 1 4 with sp := s.regs.sp + 2, pc := v }))

/-- 47_control.md R356, R358, 20_memory.md R103, R104: a RET that finds the stack as the CALL left it goes on after the CALL,
with SP as before it. -/
def Obligations.ReturnUndoesCall : Prop :=
  ∀ (s t u v : State) (nn : Word), IsArray (s.regs.sp - 1) → IsArray (s.regs.sp - 2) →
    exec (.callNn nn) s = .next t → u.regs.sp = t.regs.sp → u.peek (s.regs.sp - 1) = t.peek (s.regs.sp - 1) →
    u.peek (s.regs.sp - 2) = t.peek (s.regs.sp - 2) → exec .ret u = .next v →
    t.regs.pc = nn ∧ v.regs.pc = s.regs.pc + 3 ∧ v.regs.sp = s.regs.sp

/-! ## Control of the CPU -/

/-- 48_misc.md R370, R373, R374, 40_engine.md R197: NOP, DI, EI, and the delayed enable: IME_PENDING set when an instruction
begins and still set after it becomes IME; EI alone leaves IME as it was, and DI cancels it. -/
def Obligations.NopDiEi : Prop :=
  Spells [0x00] .nop ∧ Spells [0xF3] .di ∧ Spells [0xFB] .ei ∧
  (∀ s : State, ∃ t, Answers .nop s s t (s.retires 1 1)) ∧
  (∀ s : State, ∃ t, Answers .di s { s with ime := false, imePending := false } t (s.retires 1 1)) ∧
  (∀ s : State, ∃ t, Answers .ei s { s with imePending := true } t (s.retires 1 1)) ∧
  (∀ (s t u : State) (i : Instr), s.fatal = none → s.halted = false → (s.ime = false ∨ s.pending = false) →
    s.fetch = .ok i t → exec i t = .next u → u.fatal = none →
    ∃ w, step s = .next w ∧
      (s.imePending = true → u.imePending = true → w.ime = true ∧ w.imePending = false) ∧
      (s.imePending = false ∨ u.imePending = false → w.ime = u.ime ∧ w.imePending = u.imePending))

/-- 48_misc.md R371, 40_engine.md R199: HALT, its refusal, the halted step and the wake. -/
def Obligations.HaltAndWake : Prop :=
  Spells [0x76] .halt ∧
  (∀ s : State, (s.ime = true ∨ s.ie &&& s.ifl = 0) → ∃ t,
    Answers .halt s { s with halted := true } t (s.retires 1 1)) ∧
  (∀ s : State, s.ime = false → s.ie &&& s.ifl ≠ 0 → EntersFatal .halt s (.haltBug s.regs.pc) (s.regs.pc + 1)) ∧
  (∀ s : State, s.fatal = none → s.halted = true → s.ie &&& s.ifl = 0 →
    step s = .next { s with elapsed := some 1 }.iterate) ∧
  (∀ s : State, s.fatal = none → s.halted = true → s.ie &&& s.ifl ≠ 0 →
    step s = step { s with halted := false })

/-- 48_misc.md R372: STOP always raises, after both bytes were fetched; a second byte in a forbidden zone raises first. -/
def Obligations.StopRefuses : Prop :=
  (∀ x : Byte, Spells [0x10, x] (.stop x)) ∧
  (∀ (s : State) (x : Byte), EntersFatal (.stop x) s (.unsupportedStop s.regs.pc) (s.regs.pc + 2)) ∧
  (∀ s : State, s.fatal = none → s.halted = false → (s.ime = false ∨ s.ie &&& s.ifl = 0) →
    s.unimplemented = [] → s.peek s.regs.pc = some 0x10 →
    ((∃ x, s.peek (s.regs.pc + 1) = some x) →
      step s = .next { s with regs := { s.regs with pc := s.regs.pc + 2 }, fatal := some (.unsupportedStop s.regs.pc),
                              elapsed := none }) ∧
    (zoneOf (s.regs.pc + 1) = .forbidden →
      step s = .next { s with fatal := some (.forbiddenAddress (s.regs.pc + 1) .fetch), elapsed := none }))

/-- 48_misc.md R375, 30_encoding.md R166: the pair of the escape byte and `c` is the CB row of `c`; the constructor of the row
PREFIX_CB has that row's meaning (log 11), and completes where it does. -/
def Obligations.PrefixPair : Prop :=
  (∀ c : Byte, Spells [0xCB, c] (decodeCb c)) ∧
  (∀ (s : State) (c : Byte), exec (.prefixCb c) s = exec (decodeCb c) s) ∧
  (∀ (s : State) (c : Byte) (r : R8), opnd8Of (fieldZ c) = .reg r → ∃ t f,
    Answers (.prefixCb c) s s t { s.retires 2 2 with regs := [r], f := f }) ∧
  (∀ (s : State) (c : Byte), opnd8Of (fieldZ c) = .atHl → IsArray s.hl → ∃ u t f,
    Answers (.prefixCb c) s u t
      { s.retires 2 (if fieldX c = 0b01 then 3 else 4) with f := f, stored := [s.hl] } ∧
    u = { s with mem := u.mem })

/-! ## The step -/

/-- 40_engine.md R191, R192: where the bytes at PC are the block's own and decode to an instruction of `P_IMPLEMENTED`, a
step of an awake CPU that dispatches nothing is the instruction's meaning at that state and then the end of the step: nothing
after a fatal (R198), else the delayed enable (R197) and one iteration of the loop (R205). A halted CPU that wakes goes on as
an awake one. For a CB form `P_IMPLEMENTED` is asked for its row and for the row PREFIX_CB of its first byte (48_misc.md R376,
00_scope.md R12). -/
def Obligations.StepRunsDecoded : Prop :=
  ∀ (s : State) (bs : List Byte) (i : Instr), s.fatal = none → (s.halted = true → s.pending = true) →
    (s.ime = false ∨ s.pending = false) → i.row ∉ s.unimplemented →
    (bs.head? = some 0xCB → (Instr.prefixCb 0).row ∉ s.unimplemented) → decode bs = .ok (i, []) →
    (∀ (k : Nat) (v : Byte), bs[k]? = some v → s.peek (s.regs.pc + BitVec.ofNat 16 k) = some v) →
    step s =
      match exec i { s with halted := false } with
      | .next t =>
        if t.fatal.isSome then .next t
        else .next (State.iterate (if s.imePending ∧ t.imePending then { t with ime := true, imePending := false } else t))
      | .fault f => .fault f
      | .refused r => .refused r

/-- 40_engine.md R192, 48_misc.md R375, R376, 60_exceptions.md R401, R406, 00_scope.md R12, 20_memory.md R101: the fatals of
decoding. A fetch byte in a forbidden zone raises with kind fetch; an illegal first byte and every first byte whose row is
outside `P_IMPLEMENTED`, 0xCB with its row PREFIX_CB among them, raise with that byte alone, whatever follows it; a CB row
outside raises after its second byte, with both bytes; PC stays at the origin, and nothing else changes. That 0xCB is tested
before its second byte is read is the model's inference (log 24, DEDUCED). -/
def Obligations.DecodeFatals : Prop :=
  ∀ s : State, s.fatal = none → s.halted = false → (s.ime = false ∨ s.pending = false) →
    (zoneOf s.regs.pc = .forbidden → step s = .next (s.raise (.forbiddenAddress s.regs.pc .fetch))) ∧
    (∀ o, s.peek s.regs.pc = some o →
      (o ∈ illegalOpcodes → step s = .next (s.raise (.unknownOpcode o none s.regs.pc))) ∧
      ((decodeFirst o 0 0).row ∈ s.unimplemented →
        step s = .next (s.raise (.unknownOpcode o none s.regs.pc))) ∧
      (o ≠ 0xCB → o ∉ illegalOpcodes → (decodeFirst o 0 0).row ∉ s.unimplemented → 2 ≤ firstLength o →
        zoneOf (s.regs.pc + 1) = .forbidden →
        step s = .next (s.raise (.forbiddenAddress (s.regs.pc + 1) .fetch))) ∧
      (o ≠ 0xCB → o ∉ illegalOpcodes → (decodeFirst o 0 0).row ∉ s.unimplemented → firstLength o = 3 →
        (s.peek (s.regs.pc + 1)).isSome = true → zoneOf (s.regs.pc + 2) = .forbidden →
        step s = .next (s.raise (.forbiddenAddress (s.regs.pc + 2) .fetch))) ∧
      (o = 0xCB → (Instr.prefixCb 0).row ∉ s.unimplemented → zoneOf (s.regs.pc + 1) = .forbidden →
        step s = .next (s.raise (.forbiddenAddress (s.regs.pc + 1) .fetch))) ∧
      (∀ c, o = 0xCB → (Instr.prefixCb 0).row ∉ s.unimplemented → s.peek (s.regs.pc + 1) = some c →
        (decodeCb c).row ∈ s.unimplemented →
        step s = .next (s.raise (.unknownOpcode 0xCB (some c) s.regs.pc))))

/-- 60_exceptions.md R400, 40_engine.md R191, R195, R198, 70_reset_and_hazards.md R480: the fatal state is terminal; a step that
raises returns no count, advances no agent, and no tick of the timer; every other step returns a count of 1 to 6, the least
and the greatest cost of the table. That no step is answered as the fault `terminal` is the model's reading (log 1, DEDUCED). -/
def Obligations.FatalIsTerminal : Prop :=
  (∀ (s : State) (f : FatalRecord), s.fatal = some f → step s = .fault (.terminal f)) ∧
  (∀ (s t : State) (f : FatalRecord), step s = .next t → t.fatal = some f →
    s.fatal = none ∧ t.elapsed = none ∧ t.agents = s.agents ∧ t.tickEnded = s.tickEnded ∧
    (t.timer.div = s.timer.div ∨ t.timer.div = 0) ∧ step t = .fault (.terminal f)) ∧
  (∀ (s t : State), step s = .next t → t.fatal = none → ∃ m, t.elapsed = some m ∧ 1 ≤ m ∧ m ≤ 6)

/-- 60_exceptions.md R415, R416: the requested interrupt is the least bit of `IE & IF`, and none where no bit is set. -/
def Obligations.LeastPending : Prop :=
  (∀ s : State, s.pending = true ↔ s.ie &&& s.ifl ≠ 0) ∧
  (∀ s : State, s.requested = none ↔ s.ie &&& s.ifl = 0) ∧
  (∀ (s : State) (i : Source), s.requested = some i →
    (s.ie &&& s.ifl).getLsbD i.bit = true ∧ ∀ j, j < i.bit → (s.ie &&& s.ifl).getLsbD j = false) ∧
  Source.vblank.bit = 0 ∧ Source.lcdStat.bit = 1 ∧ Source.timer.bit = 2 ∧ Source.serial.bit = 3 ∧ Source.joypad.bit = 4

/-- 60_exceptions.md R420, R422, R417: a dispatch clears the request of the least pending source, IME and IME_PENDING, pushes
PC, goes to `0x0040 + 8 i` and returns 5; a push that is refused leaves PC, with the request and IME already cleared; without
IME nothing is dispatched. -/
def Obligations.Dispatch : Prop :=
  ∀ (s : State) (i : Source), s.fatal = none → s.requested = some i →
    let s0 : State := { s with halted := false, ime := false, imePending := false, ifl := s.ifl &&& ~~~(1#5 <<< i.bit) }
    let a := s.regs.sp - 1
    let b := s.regs.sp - 2
    (s.ime = true →
      (∀ u1 u2, s0.write8 a (hiByte s.regs.pc) = .ok () u1 → u1.write8 b (loByte s.regs.pc) = .ok () u2 →
        step s = .next (State.iterate
          { u2 with regs := { s.regs with sp := b, pc := BitVec.ofNat 16 (0x0040 + 8 * i.bit) }, elapsed := some 5 })) ∧
      (∀ u, s0.write8 a (hiByte s.regs.pc) = .fatal u → step s = .next (u.setSp a)) ∧
      (∀ u1 u2, s0.write8 a (hiByte s.regs.pc) = .ok () u1 → u1.write8 b (loByte s.regs.pc) = .fatal u2 →
        step s = .next (u2.setSp b))) ∧
    (s.ime = false → step s = State.runNext { s with halted := false })

/-- 60_exceptions.md R430 to R433: one tick of the timer; the number of TIMA's increments in 16 and in 8 ticks at TAC = 0b101,
which is the spec's own inference (R431, derived from R430), TIMA = 0xFF left out, where the one edge overflows; and the
disabled timer (R433). -/
def Obligations.TimerTick : Prop :=
  (∀ s : State,
    let n := if s.timer.tac.toNat % 4 = 0 then 9 else if s.timer.tac.toNat % 4 = 1 then 3
      else if s.timer.tac.toNat % 4 = 2 then 5 else 7
    let falls := 4 ≤ s.timer.tac.toNat ∧ s.timer.div.getLsbD n = true ∧ (s.timer.div + 1).getLsbD n = false
    s.timerTick.timer.div = s.timer.div + 1 ∧ s.timerTick.timer.tma = s.timer.tma ∧ s.timerTick.timer.tac = s.timer.tac ∧
    (¬ falls → s.timerTick.timer.tima = s.timer.tima ∧ s.timerTick.ifl = s.ifl) ∧
    (falls → s.timer.tima ≠ 0xFF → s.timerTick.timer.tima = s.timer.tima + 1 ∧ s.timerTick.ifl = s.ifl) ∧
    (falls → s.timer.tima = 0xFF → s.timerTick.timer.tima = s.timer.tma ∧ s.timerTick.ifl = s.ifl ||| 0b00100) ∧
    s.timerTick = { s with timer := s.timerTick.timer, ifl := s.timerTick.ifl }) ∧
  (∀ s : State, s.timer.tac = 0b101 → s.timer.tima ≠ 0xFF →
    (State.timerTicks 16 s).timer.tima = s.timer.tima + 1 ∧
    (s.timer.div.toNat % 16 = 0 → (State.timerTicks 8 s).timer.tima = s.timer.tima)) ∧
  (∀ (s : State) (n : Nat), s.timer.tac.getLsbD 2 = false → (State.timerTicks n s).timer.tima = s.timer.tima ∧
    (State.timerTicks n s).timer.div = s.timer.div + BitVec.ofNat 16 n)

/-- 60_exceptions.md R412, R442, 40_engine.md R205, R208, R210: what one iteration of the loop may change after the CPU's step:
OAM, IF (bits 0, 1, 3 and 4 set, never cleared, by the agents; bit 2 by the timer), the timer, and nothing else of the block;
IE is untouched. The Tick ends with the iteration exactly where the video signals a frame, whatever signalled before; and a
Tick is the run of iterations up to the first that ends it or raises, its result that iteration's state. The agents' script
(log 7), the bound on the iterations (log 9) and the field `tickEnded` (log 20) are the model's own. -/
def Obligations.IterationAndTick : Prop :=
  (∀ s : State,
    s.iterate = { s with
      mem := s.iterate.mem, ifl := s.iterate.ifl, timer := s.iterate.timer, tickEnded := s.iterate.tickEnded,
      agents := s.agents.tail } ∧
    (∀ b, zoneOf b ≠ .oam → zoneOf b ≠ .io → s.iterate.peek b = s.peek b) ∧
    s.iterate.timer = (State.timerTicks s.tCycles s).timer ∧
    (∀ j, s.ifl.getLsbD j = true → s.iterate.ifl.getLsbD j = true) ∧
    (s.iterate.ifl.getLsbD 2 = (State.timerTicks s.tCycles s).ifl.getLsbD 2)) ∧
  (∀ s t : State, step s = .next t → t.fatal = none →
    (s.agents = [] → t.tickEnded = false) ∧ (∀ a rest, s.agents = a :: rest → t.tickEnded = a.frameReady)) ∧
  (∀ (n : Nat) (s t : State),
    tick n s = some (.next t) ↔
      ∃ k, k < n ∧ core.run (k + 1) s = .next t ∧ (t.tickEnded = true ∨ t.fatal.isSome = true) ∧
        ∀ j, j < k → ∃ u : State, core.run (j + 1) s = .next u ∧ u.tickEnded = false ∧ u.fatal = none)

/-- 70_reset_and_hazards.md R481, 40_engine.md R196, R206, R207, 60_exceptions.md R435: a step of `m` M-cycles advances DIVCNT
by `4 m`, from 0 where the CPU's step stored to DIV (0xFF04), by its instruction or by a dispatch's push, and from its old
value where it did not. -/
def Obligations.DivAdvance : Prop :=
  ∀ (s t : State) (m : Nat), step s = .next t → t.elapsed = some m →
    (0xFF04 ∈ s.stepStores → t.timer.div = BitVec.ofNat 16 (4 * m)) ∧
    (0xFF04 ∉ s.stepStores → t.timer.div = s.timer.div + BitVec.ofNat 16 (4 * m))

/-! ## Rules of the whole machine -/

/-- 10_state.md R39, R40, R41: which instructions write IME, IME_PENDING and HALTED. -/
def Obligations.ControlBitWriters : Prop :=
  ∀ (i : Instr) (s t : State), exec i s = .next t →
    (i ≠ .di → i ≠ .reti → t.ime = s.ime) ∧
    (i ≠ .di → i ≠ .ei → i ≠ .reti → t.imePending = s.imePending) ∧
    (i ≠ .halt → t.halted = s.halted)

/-- 10_state.md R37, and the rules of the listed forms: no 8-bit load or store, no 16-bit load but `LD HL,SP+e` (which writes
the flags, 42_load16.md R265), no PUSH, jump, call, return or restart, no INC or DEC of a pair, and none of NOP, HALT, STOP, DI,
EI, RES and SET writes a flag, nor does POP of a pair other than AF; and neither a dispatch nor a halted step changes one. -/
def Obligations.FlagsKept : Prop :=
  (∀ (s t : State) (i : Instr), exec i s = .next t →
    i ∈ ([.ldABc, .ldADe, .ldBcA, .ldDeA, .ldAHli, .ldAHld, .ldHliA, .ldHldA, .ldhAC, .ldhCA, .ldSpHl, .jpHl, .ret, .reti,
      .nop, .halt, .di, .ei] : List Instr) → t.regs.f = s.regs.f) ∧
  (∀ (s t : State) (dst src : R8) (n : Byte) (nn : Word) (p : RR) (q : QQ) (cc : Cond) (b : BitVec 3) (o : Opnd8) (i : Instr),
    exec i s = .next t →
    i ∈ ([.ldRR dst src, .ldRHl dst, .ldHlR src, .ldRN dst n, .ldHlN n, .ldANn nn, .ldNnA nn, .ldhAN n, .ldhNA n, .ldRrNn p nn,
      .ldNnSp nn, .push q, .incRr p, .decRr p, .jpNn nn, .jpCcNn cc nn, .jrE n, .jrCcE cc n, .callNn nn, .callCcNn cc nn,
      .retCc cc, .rst b, .stop n, .resB b o, .setB b o] : List Instr) → t.regs.f = s.regs.f) ∧
  (∀ (s t : State) (q : QQ), q ≠ .af → exec (.pop q) s = .next t → t.regs.f = s.regs.f) ∧
  (∀ (s t : State), s.halted = true → s.pending = false → step s = .next t → t.regs = s.regs) ∧
  (∀ (s t : State), s.ime = true → s.pending = true → step s = .next t → t.regs.f = s.regs.f)

/-- 10_state.md R51, 20_memory.md R110, 70_reset_and_hazards.md R462: no step changes the ROM, the sizes, the kind of the
controller, the construction log or the set of implemented forms. -/
def Obligations.ParametersFixed : Prop :=
  ∀ s t : State, step s = .next t →
    t.cart.rom = s.cart.rom ∧ t.cart.romBytes = s.cart.romBytes ∧ t.cart.ramBytes = s.cart.ramBytes ∧
    (s.cart.ctl = .romOnly ↔ t.cart.ctl = .romOnly) ∧ t.log = s.log ∧ t.unimplemented = s.unimplemented
end

