-- ==== Sys2Proof/Laws/State.lean ====
section
/-! SUPPORT. One lemma per field per update, each true by rfl, and the register reads after each register write. -/

namespace Sys2Proof.Machine

/-! ### `setR8` -/

@[simp] theorem State.setR8_regs (s : State) (r : R8) (v : Byte) :
    (s.setR8 r v).regs = s.regs.set r v := rfl
@[simp] theorem State.setR8_ime (s : State) (r : R8) (v : Byte) :
    (s.setR8 r v).ime = s.ime := rfl
@[simp] theorem State.setR8_imePending (s : State) (r : R8) (v : Byte) :
    (s.setR8 r v).imePending = s.imePending := rfl
@[simp] theorem State.setR8_halted (s : State) (r : R8) (v : Byte) :
    (s.setR8 r v).halted = s.halted := rfl
@[simp] theorem State.setR8_fatal (s : State) (r : R8) (v : Byte) :
    (s.setR8 r v).fatal = s.fatal := rfl
@[simp] theorem State.setR8_ie (s : State) (r : R8) (v : Byte) :
    (s.setR8 r v).ie = s.ie := rfl
@[simp] theorem State.setR8_ifl (s : State) (r : R8) (v : Byte) :
    (s.setR8 r v).ifl = s.ifl := rfl
@[simp] theorem State.setR8_timer (s : State) (r : R8) (v : Byte) :
    (s.setR8 r v).timer = s.timer := rfl
@[simp] theorem State.setR8_mem (s : State) (r : R8) (v : Byte) :
    (s.setR8 r v).mem = s.mem := rfl
@[simp] theorem State.setR8_cart (s : State) (r : R8) (v : Byte) :
    (s.setR8 r v).cart = s.cart := rfl
@[simp] theorem State.setR8_elapsed (s : State) (r : R8) (v : Byte) :
    (s.setR8 r v).elapsed = s.elapsed := rfl
@[simp] theorem State.setR8_tickEnded (s : State) (r : R8) (v : Byte) :
    (s.setR8 r v).tickEnded = s.tickEnded := rfl
@[simp] theorem State.setR8_log (s : State) (r : R8) (v : Byte) :
    (s.setR8 r v).log = s.log := rfl
@[simp] theorem State.setR8_unimplemented (s : State) (r : R8) (v : Byte) :
    (s.setR8 r v).unimplemented = s.unimplemented := rfl
@[simp] theorem State.setR8_ioScript (s : State) (r : R8) (v : Byte) :
    (s.setR8 r v).ioScript = s.ioScript := rfl
@[simp] theorem State.setR8_draws (s : State) (r : R8) (v : Byte) :
    (s.setR8 r v).draws = s.draws := rfl
@[simp] theorem State.setR8_agents (s : State) (r : R8) (v : Byte) :
    (s.setR8 r v).agents = s.agents := rfl

/-! ### `setRR` -/

@[simp] theorem State.setRR_regs (s : State) (p : RR) (v : Word) :
    (s.setRR p v).regs = s.regs.setRR p v := rfl
@[simp] theorem State.setRR_ime (s : State) (p : RR) (v : Word) :
    (s.setRR p v).ime = s.ime := rfl
@[simp] theorem State.setRR_imePending (s : State) (p : RR) (v : Word) :
    (s.setRR p v).imePending = s.imePending := rfl
@[simp] theorem State.setRR_halted (s : State) (p : RR) (v : Word) :
    (s.setRR p v).halted = s.halted := rfl
@[simp] theorem State.setRR_fatal (s : State) (p : RR) (v : Word) :
    (s.setRR p v).fatal = s.fatal := rfl
@[simp] theorem State.setRR_ie (s : State) (p : RR) (v : Word) :
    (s.setRR p v).ie = s.ie := rfl
@[simp] theorem State.setRR_ifl (s : State) (p : RR) (v : Word) :
    (s.setRR p v).ifl = s.ifl := rfl
@[simp] theorem State.setRR_timer (s : State) (p : RR) (v : Word) :
    (s.setRR p v).timer = s.timer := rfl
@[simp] theorem State.setRR_mem (s : State) (p : RR) (v : Word) :
    (s.setRR p v).mem = s.mem := rfl
@[simp] theorem State.setRR_cart (s : State) (p : RR) (v : Word) :
    (s.setRR p v).cart = s.cart := rfl
@[simp] theorem State.setRR_elapsed (s : State) (p : RR) (v : Word) :
    (s.setRR p v).elapsed = s.elapsed := rfl
@[simp] theorem State.setRR_tickEnded (s : State) (p : RR) (v : Word) :
    (s.setRR p v).tickEnded = s.tickEnded := rfl
@[simp] theorem State.setRR_log (s : State) (p : RR) (v : Word) :
    (s.setRR p v).log = s.log := rfl
@[simp] theorem State.setRR_unimplemented (s : State) (p : RR) (v : Word) :
    (s.setRR p v).unimplemented = s.unimplemented := rfl
@[simp] theorem State.setRR_ioScript (s : State) (p : RR) (v : Word) :
    (s.setRR p v).ioScript = s.ioScript := rfl
@[simp] theorem State.setRR_draws (s : State) (p : RR) (v : Word) :
    (s.setRR p v).draws = s.draws := rfl
@[simp] theorem State.setRR_agents (s : State) (p : RR) (v : Word) :
    (s.setRR p v).agents = s.agents := rfl

/-! ### `setQQ` -/

@[simp] theorem State.setQQ_regs (s : State) (q : QQ) (v : Word) :
    (s.setQQ q v).regs = s.regs.setQQ q v := rfl
@[simp] theorem State.setQQ_ime (s : State) (q : QQ) (v : Word) :
    (s.setQQ q v).ime = s.ime := rfl
@[simp] theorem State.setQQ_imePending (s : State) (q : QQ) (v : Word) :
    (s.setQQ q v).imePending = s.imePending := rfl
@[simp] theorem State.setQQ_halted (s : State) (q : QQ) (v : Word) :
    (s.setQQ q v).halted = s.halted := rfl
@[simp] theorem State.setQQ_fatal (s : State) (q : QQ) (v : Word) :
    (s.setQQ q v).fatal = s.fatal := rfl
@[simp] theorem State.setQQ_ie (s : State) (q : QQ) (v : Word) :
    (s.setQQ q v).ie = s.ie := rfl
@[simp] theorem State.setQQ_ifl (s : State) (q : QQ) (v : Word) :
    (s.setQQ q v).ifl = s.ifl := rfl
@[simp] theorem State.setQQ_timer (s : State) (q : QQ) (v : Word) :
    (s.setQQ q v).timer = s.timer := rfl
@[simp] theorem State.setQQ_mem (s : State) (q : QQ) (v : Word) :
    (s.setQQ q v).mem = s.mem := rfl
@[simp] theorem State.setQQ_cart (s : State) (q : QQ) (v : Word) :
    (s.setQQ q v).cart = s.cart := rfl
@[simp] theorem State.setQQ_elapsed (s : State) (q : QQ) (v : Word) :
    (s.setQQ q v).elapsed = s.elapsed := rfl
@[simp] theorem State.setQQ_tickEnded (s : State) (q : QQ) (v : Word) :
    (s.setQQ q v).tickEnded = s.tickEnded := rfl
@[simp] theorem State.setQQ_log (s : State) (q : QQ) (v : Word) :
    (s.setQQ q v).log = s.log := rfl
@[simp] theorem State.setQQ_unimplemented (s : State) (q : QQ) (v : Word) :
    (s.setQQ q v).unimplemented = s.unimplemented := rfl
@[simp] theorem State.setQQ_ioScript (s : State) (q : QQ) (v : Word) :
    (s.setQQ q v).ioScript = s.ioScript := rfl
@[simp] theorem State.setQQ_draws (s : State) (q : QQ) (v : Word) :
    (s.setQQ q v).draws = s.draws := rfl
@[simp] theorem State.setQQ_agents (s : State) (q : QQ) (v : Word) :
    (s.setQQ q v).agents = s.agents := rfl

/-! ### `setF` -/

@[simp] theorem State.setF_regs (s : State) (f : Flags) :
    (s.setF f).regs = { s.regs with f := f } := rfl
@[simp] theorem State.setF_ime (s : State) (f : Flags) :
    (s.setF f).ime = s.ime := rfl
@[simp] theorem State.setF_imePending (s : State) (f : Flags) :
    (s.setF f).imePending = s.imePending := rfl
@[simp] theorem State.setF_halted (s : State) (f : Flags) :
    (s.setF f).halted = s.halted := rfl
@[simp] theorem State.setF_fatal (s : State) (f : Flags) :
    (s.setF f).fatal = s.fatal := rfl
@[simp] theorem State.setF_ie (s : State) (f : Flags) :
    (s.setF f).ie = s.ie := rfl
@[simp] theorem State.setF_ifl (s : State) (f : Flags) :
    (s.setF f).ifl = s.ifl := rfl
@[simp] theorem State.setF_timer (s : State) (f : Flags) :
    (s.setF f).timer = s.timer := rfl
@[simp] theorem State.setF_mem (s : State) (f : Flags) :
    (s.setF f).mem = s.mem := rfl
@[simp] theorem State.setF_cart (s : State) (f : Flags) :
    (s.setF f).cart = s.cart := rfl
@[simp] theorem State.setF_elapsed (s : State) (f : Flags) :
    (s.setF f).elapsed = s.elapsed := rfl
@[simp] theorem State.setF_tickEnded (s : State) (f : Flags) :
    (s.setF f).tickEnded = s.tickEnded := rfl
@[simp] theorem State.setF_log (s : State) (f : Flags) :
    (s.setF f).log = s.log := rfl
@[simp] theorem State.setF_unimplemented (s : State) (f : Flags) :
    (s.setF f).unimplemented = s.unimplemented := rfl
@[simp] theorem State.setF_ioScript (s : State) (f : Flags) :
    (s.setF f).ioScript = s.ioScript := rfl
@[simp] theorem State.setF_draws (s : State) (f : Flags) :
    (s.setF f).draws = s.draws := rfl
@[simp] theorem State.setF_agents (s : State) (f : Flags) :
    (s.setF f).agents = s.agents := rfl

/-! ### `setSp` -/

@[simp] theorem State.setSp_regs (s : State) (v : Word) :
    (s.setSp v).regs = { s.regs with sp := v } := rfl
@[simp] theorem State.setSp_ime (s : State) (v : Word) :
    (s.setSp v).ime = s.ime := rfl
@[simp] theorem State.setSp_imePending (s : State) (v : Word) :
    (s.setSp v).imePending = s.imePending := rfl
@[simp] theorem State.setSp_halted (s : State) (v : Word) :
    (s.setSp v).halted = s.halted := rfl
@[simp] theorem State.setSp_fatal (s : State) (v : Word) :
    (s.setSp v).fatal = s.fatal := rfl
@[simp] theorem State.setSp_ie (s : State) (v : Word) :
    (s.setSp v).ie = s.ie := rfl
@[simp] theorem State.setSp_ifl (s : State) (v : Word) :
    (s.setSp v).ifl = s.ifl := rfl
@[simp] theorem State.setSp_timer (s : State) (v : Word) :
    (s.setSp v).timer = s.timer := rfl
@[simp] theorem State.setSp_mem (s : State) (v : Word) :
    (s.setSp v).mem = s.mem := rfl
@[simp] theorem State.setSp_cart (s : State) (v : Word) :
    (s.setSp v).cart = s.cart := rfl
@[simp] theorem State.setSp_elapsed (s : State) (v : Word) :
    (s.setSp v).elapsed = s.elapsed := rfl
@[simp] theorem State.setSp_tickEnded (s : State) (v : Word) :
    (s.setSp v).tickEnded = s.tickEnded := rfl
@[simp] theorem State.setSp_log (s : State) (v : Word) :
    (s.setSp v).log = s.log := rfl
@[simp] theorem State.setSp_unimplemented (s : State) (v : Word) :
    (s.setSp v).unimplemented = s.unimplemented := rfl
@[simp] theorem State.setSp_ioScript (s : State) (v : Word) :
    (s.setSp v).ioScript = s.ioScript := rfl
@[simp] theorem State.setSp_draws (s : State) (v : Word) :
    (s.setSp v).draws = s.draws := rfl
@[simp] theorem State.setSp_agents (s : State) (v : Word) :
    (s.setSp v).agents = s.agents := rfl

/-! ### `setPc` -/

@[simp] theorem State.setPc_regs (s : State) (v : Word) :
    (s.setPc v).regs = { s.regs with pc := v } := rfl
@[simp] theorem State.setPc_ime (s : State) (v : Word) :
    (s.setPc v).ime = s.ime := rfl
@[simp] theorem State.setPc_imePending (s : State) (v : Word) :
    (s.setPc v).imePending = s.imePending := rfl
@[simp] theorem State.setPc_halted (s : State) (v : Word) :
    (s.setPc v).halted = s.halted := rfl
@[simp] theorem State.setPc_fatal (s : State) (v : Word) :
    (s.setPc v).fatal = s.fatal := rfl
@[simp] theorem State.setPc_ie (s : State) (v : Word) :
    (s.setPc v).ie = s.ie := rfl
@[simp] theorem State.setPc_ifl (s : State) (v : Word) :
    (s.setPc v).ifl = s.ifl := rfl
@[simp] theorem State.setPc_timer (s : State) (v : Word) :
    (s.setPc v).timer = s.timer := rfl
@[simp] theorem State.setPc_mem (s : State) (v : Word) :
    (s.setPc v).mem = s.mem := rfl
@[simp] theorem State.setPc_cart (s : State) (v : Word) :
    (s.setPc v).cart = s.cart := rfl
@[simp] theorem State.setPc_elapsed (s : State) (v : Word) :
    (s.setPc v).elapsed = s.elapsed := rfl
@[simp] theorem State.setPc_tickEnded (s : State) (v : Word) :
    (s.setPc v).tickEnded = s.tickEnded := rfl
@[simp] theorem State.setPc_log (s : State) (v : Word) :
    (s.setPc v).log = s.log := rfl
@[simp] theorem State.setPc_unimplemented (s : State) (v : Word) :
    (s.setPc v).unimplemented = s.unimplemented := rfl
@[simp] theorem State.setPc_ioScript (s : State) (v : Word) :
    (s.setPc v).ioScript = s.ioScript := rfl
@[simp] theorem State.setPc_draws (s : State) (v : Word) :
    (s.setPc v).draws = s.draws := rfl
@[simp] theorem State.setPc_agents (s : State) (v : Word) :
    (s.setPc v).agents = s.agents := rfl

/-! ### `advance` -/

@[simp] theorem State.advance_regs (s : State) (n : Word) :
    (s.advance n).regs = { s.regs with pc := s.regs.pc + n } := rfl
@[simp] theorem State.advance_ime (s : State) (n : Word) :
    (s.advance n).ime = s.ime := rfl
@[simp] theorem State.advance_imePending (s : State) (n : Word) :
    (s.advance n).imePending = s.imePending := rfl
@[simp] theorem State.advance_halted (s : State) (n : Word) :
    (s.advance n).halted = s.halted := rfl
@[simp] theorem State.advance_fatal (s : State) (n : Word) :
    (s.advance n).fatal = s.fatal := rfl
@[simp] theorem State.advance_ie (s : State) (n : Word) :
    (s.advance n).ie = s.ie := rfl
@[simp] theorem State.advance_ifl (s : State) (n : Word) :
    (s.advance n).ifl = s.ifl := rfl
@[simp] theorem State.advance_timer (s : State) (n : Word) :
    (s.advance n).timer = s.timer := rfl
@[simp] theorem State.advance_mem (s : State) (n : Word) :
    (s.advance n).mem = s.mem := rfl
@[simp] theorem State.advance_cart (s : State) (n : Word) :
    (s.advance n).cart = s.cart := rfl
@[simp] theorem State.advance_elapsed (s : State) (n : Word) :
    (s.advance n).elapsed = s.elapsed := rfl
@[simp] theorem State.advance_tickEnded (s : State) (n : Word) :
    (s.advance n).tickEnded = s.tickEnded := rfl
@[simp] theorem State.advance_log (s : State) (n : Word) :
    (s.advance n).log = s.log := rfl
@[simp] theorem State.advance_unimplemented (s : State) (n : Word) :
    (s.advance n).unimplemented = s.unimplemented := rfl
@[simp] theorem State.advance_ioScript (s : State) (n : Word) :
    (s.advance n).ioScript = s.ioScript := rfl
@[simp] theorem State.advance_draws (s : State) (n : Word) :
    (s.advance n).draws = s.draws := rfl
@[simp] theorem State.advance_agents (s : State) (n : Word) :
    (s.advance n).agents = s.agents := rfl

/-! ### `raise` -/

@[simp] theorem State.raise_regs (s : State) (f : FatalRecord) :
    (s.raise f).regs = s.regs := rfl
@[simp] theorem State.raise_ime (s : State) (f : FatalRecord) :
    (s.raise f).ime = s.ime := rfl
@[simp] theorem State.raise_imePending (s : State) (f : FatalRecord) :
    (s.raise f).imePending = s.imePending := rfl
@[simp] theorem State.raise_halted (s : State) (f : FatalRecord) :
    (s.raise f).halted = s.halted := rfl
@[simp] theorem State.raise_fatal (s : State) (f : FatalRecord) :
    (s.raise f).fatal = some f := rfl
@[simp] theorem State.raise_ie (s : State) (f : FatalRecord) :
    (s.raise f).ie = s.ie := rfl
@[simp] theorem State.raise_ifl (s : State) (f : FatalRecord) :
    (s.raise f).ifl = s.ifl := rfl
@[simp] theorem State.raise_timer (s : State) (f : FatalRecord) :
    (s.raise f).timer = s.timer := rfl
@[simp] theorem State.raise_mem (s : State) (f : FatalRecord) :
    (s.raise f).mem = s.mem := rfl
@[simp] theorem State.raise_cart (s : State) (f : FatalRecord) :
    (s.raise f).cart = s.cart := rfl
@[simp] theorem State.raise_elapsed (s : State) (f : FatalRecord) :
    (s.raise f).elapsed = none := rfl
@[simp] theorem State.raise_tickEnded (s : State) (f : FatalRecord) :
    (s.raise f).tickEnded = s.tickEnded := rfl
@[simp] theorem State.raise_log (s : State) (f : FatalRecord) :
    (s.raise f).log = s.log := rfl
@[simp] theorem State.raise_unimplemented (s : State) (f : FatalRecord) :
    (s.raise f).unimplemented = s.unimplemented := rfl
@[simp] theorem State.raise_ioScript (s : State) (f : FatalRecord) :
    (s.raise f).ioScript = s.ioScript := rfl
@[simp] theorem State.raise_draws (s : State) (f : FatalRecord) :
    (s.raise f).draws = s.draws := rfl
@[simp] theorem State.raise_agents (s : State) (f : FatalRecord) :
    (s.raise f).agents = s.agents := rfl

/-! ### `setElapsed` -/

@[simp] theorem State.setElapsed_regs (s : State) (m : Nat) :
    (s.setElapsed m).regs = s.regs := rfl
@[simp] theorem State.setElapsed_ime (s : State) (m : Nat) :
    (s.setElapsed m).ime = s.ime := rfl
@[simp] theorem State.setElapsed_imePending (s : State) (m : Nat) :
    (s.setElapsed m).imePending = s.imePending := rfl
@[simp] theorem State.setElapsed_halted (s : State) (m : Nat) :
    (s.setElapsed m).halted = s.halted := rfl
@[simp] theorem State.setElapsed_fatal (s : State) (m : Nat) :
    (s.setElapsed m).fatal = s.fatal := rfl
@[simp] theorem State.setElapsed_ie (s : State) (m : Nat) :
    (s.setElapsed m).ie = s.ie := rfl
@[simp] theorem State.setElapsed_ifl (s : State) (m : Nat) :
    (s.setElapsed m).ifl = s.ifl := rfl
@[simp] theorem State.setElapsed_timer (s : State) (m : Nat) :
    (s.setElapsed m).timer = s.timer := rfl
@[simp] theorem State.setElapsed_mem (s : State) (m : Nat) :
    (s.setElapsed m).mem = s.mem := rfl
@[simp] theorem State.setElapsed_cart (s : State) (m : Nat) :
    (s.setElapsed m).cart = s.cart := rfl
@[simp] theorem State.setElapsed_elapsed (s : State) (m : Nat) :
    (s.setElapsed m).elapsed = some m := rfl
@[simp] theorem State.setElapsed_tickEnded (s : State) (m : Nat) :
    (s.setElapsed m).tickEnded = s.tickEnded := rfl
@[simp] theorem State.setElapsed_log (s : State) (m : Nat) :
    (s.setElapsed m).log = s.log := rfl
@[simp] theorem State.setElapsed_unimplemented (s : State) (m : Nat) :
    (s.setElapsed m).unimplemented = s.unimplemented := rfl
@[simp] theorem State.setElapsed_ioScript (s : State) (m : Nat) :
    (s.setElapsed m).ioScript = s.ioScript := rfl
@[simp] theorem State.setElapsed_draws (s : State) (m : Nat) :
    (s.setElapsed m).draws = s.draws := rfl
@[simp] theorem State.setElapsed_agents (s : State) (m : Nat) :
    (s.setElapsed m).agents = s.agents := rfl

/-! ### `storeMem` -/

@[simp] theorem State.storeMem_regs (s : State) (a : Word) (v : Byte) :
    (s.storeMem a v).regs = s.regs := rfl
@[simp] theorem State.storeMem_ime (s : State) (a : Word) (v : Byte) :
    (s.storeMem a v).ime = s.ime := rfl
@[simp] theorem State.storeMem_imePending (s : State) (a : Word) (v : Byte) :
    (s.storeMem a v).imePending = s.imePending := rfl
@[simp] theorem State.storeMem_halted (s : State) (a : Word) (v : Byte) :
    (s.storeMem a v).halted = s.halted := rfl
@[simp] theorem State.storeMem_fatal (s : State) (a : Word) (v : Byte) :
    (s.storeMem a v).fatal = s.fatal := rfl
@[simp] theorem State.storeMem_ie (s : State) (a : Word) (v : Byte) :
    (s.storeMem a v).ie = s.ie := rfl
@[simp] theorem State.storeMem_ifl (s : State) (a : Word) (v : Byte) :
    (s.storeMem a v).ifl = s.ifl := rfl
@[simp] theorem State.storeMem_timer (s : State) (a : Word) (v : Byte) :
    (s.storeMem a v).timer = s.timer := rfl
@[simp] theorem State.storeMem_mem (s : State) (a : Word) (v : Byte) :
    (s.storeMem a v).mem = memWrite s.mem a.toNat v := rfl
@[simp] theorem State.storeMem_cart (s : State) (a : Word) (v : Byte) :
    (s.storeMem a v).cart = s.cart := rfl
@[simp] theorem State.storeMem_elapsed (s : State) (a : Word) (v : Byte) :
    (s.storeMem a v).elapsed = s.elapsed := rfl
@[simp] theorem State.storeMem_tickEnded (s : State) (a : Word) (v : Byte) :
    (s.storeMem a v).tickEnded = s.tickEnded := rfl
@[simp] theorem State.storeMem_log (s : State) (a : Word) (v : Byte) :
    (s.storeMem a v).log = s.log := rfl
@[simp] theorem State.storeMem_unimplemented (s : State) (a : Word) (v : Byte) :
    (s.storeMem a v).unimplemented = s.unimplemented := rfl
@[simp] theorem State.storeMem_ioScript (s : State) (a : Word) (v : Byte) :
    (s.storeMem a v).ioScript = s.ioScript := rfl
@[simp] theorem State.storeMem_draws (s : State) (a : Word) (v : Byte) :
    (s.storeMem a v).draws = s.draws := rfl
@[simp] theorem State.storeMem_agents (s : State) (a : Word) (v : Byte) :
    (s.storeMem a v).agents = s.agents := rfl

/-! ### `cartWrite` -/

@[simp] theorem State.cartWrite_regs (s : State) (a : Word) (v : Byte) :
    (s.cartWrite a v).regs = s.regs := rfl
@[simp] theorem State.cartWrite_ime (s : State) (a : Word) (v : Byte) :
    (s.cartWrite a v).ime = s.ime := rfl
@[simp] theorem State.cartWrite_imePending (s : State) (a : Word) (v : Byte) :
    (s.cartWrite a v).imePending = s.imePending := rfl
@[simp] theorem State.cartWrite_halted (s : State) (a : Word) (v : Byte) :
    (s.cartWrite a v).halted = s.halted := rfl
@[simp] theorem State.cartWrite_fatal (s : State) (a : Word) (v : Byte) :
    (s.cartWrite a v).fatal = s.fatal := rfl
@[simp] theorem State.cartWrite_ie (s : State) (a : Word) (v : Byte) :
    (s.cartWrite a v).ie = s.ie := rfl
@[simp] theorem State.cartWrite_ifl (s : State) (a : Word) (v : Byte) :
    (s.cartWrite a v).ifl = s.ifl := rfl
@[simp] theorem State.cartWrite_timer (s : State) (a : Word) (v : Byte) :
    (s.cartWrite a v).timer = s.timer := rfl
@[simp] theorem State.cartWrite_mem (s : State) (a : Word) (v : Byte) :
    (s.cartWrite a v).mem = s.mem := rfl
@[simp] theorem State.cartWrite_cart (s : State) (a : Word) (v : Byte) :
    (s.cartWrite a v).cart = s.cart.write a v := rfl
@[simp] theorem State.cartWrite_elapsed (s : State) (a : Word) (v : Byte) :
    (s.cartWrite a v).elapsed = s.elapsed := rfl
@[simp] theorem State.cartWrite_tickEnded (s : State) (a : Word) (v : Byte) :
    (s.cartWrite a v).tickEnded = s.tickEnded := rfl
@[simp] theorem State.cartWrite_log (s : State) (a : Word) (v : Byte) :
    (s.cartWrite a v).log = s.log := rfl
@[simp] theorem State.cartWrite_unimplemented (s : State) (a : Word) (v : Byte) :
    (s.cartWrite a v).unimplemented = s.unimplemented := rfl
@[simp] theorem State.cartWrite_ioScript (s : State) (a : Word) (v : Byte) :
    (s.cartWrite a v).ioScript = s.ioScript := rfl
@[simp] theorem State.cartWrite_draws (s : State) (a : Word) (v : Byte) :
    (s.cartWrite a v).draws = s.draws := rfl
@[simp] theorem State.cartWrite_agents (s : State) (a : Word) (v : Byte) :
    (s.cartWrite a v).agents = s.agents := rfl

/-! ### `writeIe` -/

@[simp] theorem State.writeIe_regs (s : State) (v : Byte) :
    (s.writeIe v).regs = s.regs := rfl
@[simp] theorem State.writeIe_ime (s : State) (v : Byte) :
    (s.writeIe v).ime = s.ime := rfl
@[simp] theorem State.writeIe_imePending (s : State) (v : Byte) :
    (s.writeIe v).imePending = s.imePending := rfl
@[simp] theorem State.writeIe_halted (s : State) (v : Byte) :
    (s.writeIe v).halted = s.halted := rfl
@[simp] theorem State.writeIe_fatal (s : State) (v : Byte) :
    (s.writeIe v).fatal = s.fatal := rfl
@[simp] theorem State.writeIe_ie (s : State) (v : Byte) :
    (s.writeIe v).ie = v.setWidth 5 := rfl
@[simp] theorem State.writeIe_ifl (s : State) (v : Byte) :
    (s.writeIe v).ifl = s.ifl := rfl
@[simp] theorem State.writeIe_timer (s : State) (v : Byte) :
    (s.writeIe v).timer = s.timer := rfl
@[simp] theorem State.writeIe_mem (s : State) (v : Byte) :
    (s.writeIe v).mem = s.mem := rfl
@[simp] theorem State.writeIe_cart (s : State) (v : Byte) :
    (s.writeIe v).cart = s.cart := rfl
@[simp] theorem State.writeIe_elapsed (s : State) (v : Byte) :
    (s.writeIe v).elapsed = s.elapsed := rfl
@[simp] theorem State.writeIe_tickEnded (s : State) (v : Byte) :
    (s.writeIe v).tickEnded = s.tickEnded := rfl
@[simp] theorem State.writeIe_log (s : State) (v : Byte) :
    (s.writeIe v).log = s.log := rfl
@[simp] theorem State.writeIe_unimplemented (s : State) (v : Byte) :
    (s.writeIe v).unimplemented = s.unimplemented := rfl
@[simp] theorem State.writeIe_ioScript (s : State) (v : Byte) :
    (s.writeIe v).ioScript = s.ioScript := rfl
@[simp] theorem State.writeIe_draws (s : State) (v : Byte) :
    (s.writeIe v).draws = s.draws := rfl
@[simp] theorem State.writeIe_agents (s : State) (v : Byte) :
    (s.writeIe v).agents = s.agents := rfl

/-! ### `setIfBit` -/

@[simp] theorem State.setIfBit_regs (s : State) (i : Source) :
    (s.setIfBit i).regs = s.regs := rfl
@[simp] theorem State.setIfBit_ime (s : State) (i : Source) :
    (s.setIfBit i).ime = s.ime := rfl
@[simp] theorem State.setIfBit_imePending (s : State) (i : Source) :
    (s.setIfBit i).imePending = s.imePending := rfl
@[simp] theorem State.setIfBit_halted (s : State) (i : Source) :
    (s.setIfBit i).halted = s.halted := rfl
@[simp] theorem State.setIfBit_fatal (s : State) (i : Source) :
    (s.setIfBit i).fatal = s.fatal := rfl
@[simp] theorem State.setIfBit_ie (s : State) (i : Source) :
    (s.setIfBit i).ie = s.ie := rfl
@[simp] theorem State.setIfBit_ifl (s : State) (i : Source) :
    (s.setIfBit i).ifl = s.ifl ||| i.mask := rfl
@[simp] theorem State.setIfBit_timer (s : State) (i : Source) :
    (s.setIfBit i).timer = s.timer := rfl
@[simp] theorem State.setIfBit_mem (s : State) (i : Source) :
    (s.setIfBit i).mem = s.mem := rfl
@[simp] theorem State.setIfBit_cart (s : State) (i : Source) :
    (s.setIfBit i).cart = s.cart := rfl
@[simp] theorem State.setIfBit_elapsed (s : State) (i : Source) :
    (s.setIfBit i).elapsed = s.elapsed := rfl
@[simp] theorem State.setIfBit_tickEnded (s : State) (i : Source) :
    (s.setIfBit i).tickEnded = s.tickEnded := rfl
@[simp] theorem State.setIfBit_log (s : State) (i : Source) :
    (s.setIfBit i).log = s.log := rfl
@[simp] theorem State.setIfBit_unimplemented (s : State) (i : Source) :
    (s.setIfBit i).unimplemented = s.unimplemented := rfl
@[simp] theorem State.setIfBit_ioScript (s : State) (i : Source) :
    (s.setIfBit i).ioScript = s.ioScript := rfl
@[simp] theorem State.setIfBit_draws (s : State) (i : Source) :
    (s.setIfBit i).draws = s.draws := rfl
@[simp] theorem State.setIfBit_agents (s : State) (i : Source) :
    (s.setIfBit i).agents = s.agents := rfl

/-! ### `resetIfBit` -/

@[simp] theorem State.resetIfBit_regs (s : State) (i : Source) :
    (s.resetIfBit i).regs = s.regs := rfl
@[simp] theorem State.resetIfBit_ime (s : State) (i : Source) :
    (s.resetIfBit i).ime = s.ime := rfl
@[simp] theorem State.resetIfBit_imePending (s : State) (i : Source) :
    (s.resetIfBit i).imePending = s.imePending := rfl
@[simp] theorem State.resetIfBit_halted (s : State) (i : Source) :
    (s.resetIfBit i).halted = s.halted := rfl
@[simp] theorem State.resetIfBit_fatal (s : State) (i : Source) :
    (s.resetIfBit i).fatal = s.fatal := rfl
@[simp] theorem State.resetIfBit_ie (s : State) (i : Source) :
    (s.resetIfBit i).ie = s.ie := rfl
@[simp] theorem State.resetIfBit_ifl (s : State) (i : Source) :
    (s.resetIfBit i).ifl = s.ifl &&& ~~~i.mask := rfl
@[simp] theorem State.resetIfBit_timer (s : State) (i : Source) :
    (s.resetIfBit i).timer = s.timer := rfl
@[simp] theorem State.resetIfBit_mem (s : State) (i : Source) :
    (s.resetIfBit i).mem = s.mem := rfl
@[simp] theorem State.resetIfBit_cart (s : State) (i : Source) :
    (s.resetIfBit i).cart = s.cart := rfl
@[simp] theorem State.resetIfBit_elapsed (s : State) (i : Source) :
    (s.resetIfBit i).elapsed = s.elapsed := rfl
@[simp] theorem State.resetIfBit_tickEnded (s : State) (i : Source) :
    (s.resetIfBit i).tickEnded = s.tickEnded := rfl
@[simp] theorem State.resetIfBit_log (s : State) (i : Source) :
    (s.resetIfBit i).log = s.log := rfl
@[simp] theorem State.resetIfBit_unimplemented (s : State) (i : Source) :
    (s.resetIfBit i).unimplemented = s.unimplemented := rfl
@[simp] theorem State.resetIfBit_ioScript (s : State) (i : Source) :
    (s.resetIfBit i).ioScript = s.ioScript := rfl
@[simp] theorem State.resetIfBit_draws (s : State) (i : Source) :
    (s.resetIfBit i).draws = s.draws := rfl
@[simp] theorem State.resetIfBit_agents (s : State) (i : Source) :
    (s.resetIfBit i).agents = s.agents := rfl

/-! ### `setIeBit` -/

@[simp] theorem State.setIeBit_regs (s : State) (i : Source) :
    (s.setIeBit i).regs = s.regs := rfl
@[simp] theorem State.setIeBit_ime (s : State) (i : Source) :
    (s.setIeBit i).ime = s.ime := rfl
@[simp] theorem State.setIeBit_imePending (s : State) (i : Source) :
    (s.setIeBit i).imePending = s.imePending := rfl
@[simp] theorem State.setIeBit_halted (s : State) (i : Source) :
    (s.setIeBit i).halted = s.halted := rfl
@[simp] theorem State.setIeBit_fatal (s : State) (i : Source) :
    (s.setIeBit i).fatal = s.fatal := rfl
@[simp] theorem State.setIeBit_ie (s : State) (i : Source) :
    (s.setIeBit i).ie = s.ie ||| i.mask := rfl
@[simp] theorem State.setIeBit_ifl (s : State) (i : Source) :
    (s.setIeBit i).ifl = s.ifl := rfl
@[simp] theorem State.setIeBit_timer (s : State) (i : Source) :
    (s.setIeBit i).timer = s.timer := rfl
@[simp] theorem State.setIeBit_mem (s : State) (i : Source) :
    (s.setIeBit i).mem = s.mem := rfl
@[simp] theorem State.setIeBit_cart (s : State) (i : Source) :
    (s.setIeBit i).cart = s.cart := rfl
@[simp] theorem State.setIeBit_elapsed (s : State) (i : Source) :
    (s.setIeBit i).elapsed = s.elapsed := rfl
@[simp] theorem State.setIeBit_tickEnded (s : State) (i : Source) :
    (s.setIeBit i).tickEnded = s.tickEnded := rfl
@[simp] theorem State.setIeBit_log (s : State) (i : Source) :
    (s.setIeBit i).log = s.log := rfl
@[simp] theorem State.setIeBit_unimplemented (s : State) (i : Source) :
    (s.setIeBit i).unimplemented = s.unimplemented := rfl
@[simp] theorem State.setIeBit_ioScript (s : State) (i : Source) :
    (s.setIeBit i).ioScript = s.ioScript := rfl
@[simp] theorem State.setIeBit_draws (s : State) (i : Source) :
    (s.setIeBit i).draws = s.draws := rfl
@[simp] theorem State.setIeBit_agents (s : State) (i : Source) :
    (s.setIeBit i).agents = s.agents := rfl

/-! ### `resetIeBit` -/

@[simp] theorem State.resetIeBit_regs (s : State) (i : Source) :
    (s.resetIeBit i).regs = s.regs := rfl
@[simp] theorem State.resetIeBit_ime (s : State) (i : Source) :
    (s.resetIeBit i).ime = s.ime := rfl
@[simp] theorem State.resetIeBit_imePending (s : State) (i : Source) :
    (s.resetIeBit i).imePending = s.imePending := rfl
@[simp] theorem State.resetIeBit_halted (s : State) (i : Source) :
    (s.resetIeBit i).halted = s.halted := rfl
@[simp] theorem State.resetIeBit_fatal (s : State) (i : Source) :
    (s.resetIeBit i).fatal = s.fatal := rfl
@[simp] theorem State.resetIeBit_ie (s : State) (i : Source) :
    (s.resetIeBit i).ie = s.ie &&& ~~~i.mask := rfl
@[simp] theorem State.resetIeBit_ifl (s : State) (i : Source) :
    (s.resetIeBit i).ifl = s.ifl := rfl
@[simp] theorem State.resetIeBit_timer (s : State) (i : Source) :
    (s.resetIeBit i).timer = s.timer := rfl
@[simp] theorem State.resetIeBit_mem (s : State) (i : Source) :
    (s.resetIeBit i).mem = s.mem := rfl
@[simp] theorem State.resetIeBit_cart (s : State) (i : Source) :
    (s.resetIeBit i).cart = s.cart := rfl
@[simp] theorem State.resetIeBit_elapsed (s : State) (i : Source) :
    (s.resetIeBit i).elapsed = s.elapsed := rfl
@[simp] theorem State.resetIeBit_tickEnded (s : State) (i : Source) :
    (s.resetIeBit i).tickEnded = s.tickEnded := rfl
@[simp] theorem State.resetIeBit_log (s : State) (i : Source) :
    (s.resetIeBit i).log = s.log := rfl
@[simp] theorem State.resetIeBit_unimplemented (s : State) (i : Source) :
    (s.resetIeBit i).unimplemented = s.unimplemented := rfl
@[simp] theorem State.resetIeBit_ioScript (s : State) (i : Source) :
    (s.resetIeBit i).ioScript = s.ioScript := rfl
@[simp] theorem State.resetIeBit_draws (s : State) (i : Source) :
    (s.resetIeBit i).draws = s.draws := rfl
@[simp] theorem State.resetIeBit_agents (s : State) (i : Source) :
    (s.resetIeBit i).agents = s.agents := rfl

/-! ### `agentIrq` -/

@[simp] theorem State.agentIrq_regs (s : State) (b : BitVec 5) :
    (s.agentIrq b).regs = s.regs := rfl
@[simp] theorem State.agentIrq_ime (s : State) (b : BitVec 5) :
    (s.agentIrq b).ime = s.ime := rfl
@[simp] theorem State.agentIrq_imePending (s : State) (b : BitVec 5) :
    (s.agentIrq b).imePending = s.imePending := rfl
@[simp] theorem State.agentIrq_halted (s : State) (b : BitVec 5) :
    (s.agentIrq b).halted = s.halted := rfl
@[simp] theorem State.agentIrq_fatal (s : State) (b : BitVec 5) :
    (s.agentIrq b).fatal = s.fatal := rfl
@[simp] theorem State.agentIrq_ie (s : State) (b : BitVec 5) :
    (s.agentIrq b).ie = s.ie := rfl
@[simp] theorem State.agentIrq_ifl (s : State) (b : BitVec 5) :
    (s.agentIrq b).ifl = s.ifl ||| (b &&& agentIrqMask) := rfl
@[simp] theorem State.agentIrq_timer (s : State) (b : BitVec 5) :
    (s.agentIrq b).timer = s.timer := rfl
@[simp] theorem State.agentIrq_mem (s : State) (b : BitVec 5) :
    (s.agentIrq b).mem = s.mem := rfl
@[simp] theorem State.agentIrq_cart (s : State) (b : BitVec 5) :
    (s.agentIrq b).cart = s.cart := rfl
@[simp] theorem State.agentIrq_elapsed (s : State) (b : BitVec 5) :
    (s.agentIrq b).elapsed = s.elapsed := rfl
@[simp] theorem State.agentIrq_tickEnded (s : State) (b : BitVec 5) :
    (s.agentIrq b).tickEnded = s.tickEnded := rfl
@[simp] theorem State.agentIrq_log (s : State) (b : BitVec 5) :
    (s.agentIrq b).log = s.log := rfl
@[simp] theorem State.agentIrq_unimplemented (s : State) (b : BitVec 5) :
    (s.agentIrq b).unimplemented = s.unimplemented := rfl
@[simp] theorem State.agentIrq_ioScript (s : State) (b : BitVec 5) :
    (s.agentIrq b).ioScript = s.ioScript := rfl
@[simp] theorem State.agentIrq_draws (s : State) (b : BitVec 5) :
    (s.agentIrq b).draws = s.draws := rfl
@[simp] theorem State.agentIrq_agents (s : State) (b : BitVec 5) :
    (s.agentIrq b).agents = s.agents := rfl

/-! ### `timerTick` -/

@[simp] theorem State.timerTick_regs (s : State) :
    (s.timerTick).regs = s.regs := rfl
@[simp] theorem State.timerTick_ime (s : State) :
    (s.timerTick).ime = s.ime := rfl
@[simp] theorem State.timerTick_imePending (s : State) :
    (s.timerTick).imePending = s.imePending := rfl
@[simp] theorem State.timerTick_halted (s : State) :
    (s.timerTick).halted = s.halted := rfl
@[simp] theorem State.timerTick_fatal (s : State) :
    (s.timerTick).fatal = s.fatal := rfl
@[simp] theorem State.timerTick_ie (s : State) :
    (s.timerTick).ie = s.ie := rfl
@[simp] theorem State.timerTick_ifl (s : State) :
    (s.timerTick).ifl = if s.timer.overflows then s.ifl ||| Source.timer.mask else s.ifl := rfl
@[simp] theorem State.timerTick_timer (s : State) :
    (s.timerTick).timer = s.timer.tick := rfl
@[simp] theorem State.timerTick_mem (s : State) :
    (s.timerTick).mem = s.mem := rfl
@[simp] theorem State.timerTick_cart (s : State) :
    (s.timerTick).cart = s.cart := rfl
@[simp] theorem State.timerTick_elapsed (s : State) :
    (s.timerTick).elapsed = s.elapsed := rfl
@[simp] theorem State.timerTick_tickEnded (s : State) :
    (s.timerTick).tickEnded = s.tickEnded := rfl
@[simp] theorem State.timerTick_log (s : State) :
    (s.timerTick).log = s.log := rfl
@[simp] theorem State.timerTick_unimplemented (s : State) :
    (s.timerTick).unimplemented = s.unimplemented := rfl
@[simp] theorem State.timerTick_ioScript (s : State) :
    (s.timerTick).ioScript = s.ioScript := rfl
@[simp] theorem State.timerTick_draws (s : State) :
    (s.timerTick).draws = s.draws := rfl
@[simp] theorem State.timerTick_agents (s : State) :
    (s.timerTick).agents = s.agents := rfl

/-! ### `dmaAdvance` -/

@[simp] theorem State.dmaAdvance_regs (s : State) (t : AgentTurn) :
    (s.dmaAdvance t).regs = s.regs := rfl
@[simp] theorem State.dmaAdvance_ime (s : State) (t : AgentTurn) :
    (s.dmaAdvance t).ime = s.ime := rfl
@[simp] theorem State.dmaAdvance_imePending (s : State) (t : AgentTurn) :
    (s.dmaAdvance t).imePending = s.imePending := rfl
@[simp] theorem State.dmaAdvance_halted (s : State) (t : AgentTurn) :
    (s.dmaAdvance t).halted = s.halted := rfl
@[simp] theorem State.dmaAdvance_fatal (s : State) (t : AgentTurn) :
    (s.dmaAdvance t).fatal = s.fatal := rfl
@[simp] theorem State.dmaAdvance_ie (s : State) (t : AgentTurn) :
    (s.dmaAdvance t).ie = s.ie := rfl
@[simp] theorem State.dmaAdvance_ifl (s : State) (t : AgentTurn) :
    (s.dmaAdvance t).ifl = s.ifl ||| (t.dmaIrq &&& agentIrqMask) := rfl
@[simp] theorem State.dmaAdvance_timer (s : State) (t : AgentTurn) :
    (s.dmaAdvance t).timer = s.timer := rfl
@[simp] theorem State.dmaAdvance_mem (s : State) (t : AgentTurn) :
    (s.dmaAdvance t).mem = oamWrites s.mem t.dmaOam := rfl
@[simp] theorem State.dmaAdvance_cart (s : State) (t : AgentTurn) :
    (s.dmaAdvance t).cart = s.cart := rfl
@[simp] theorem State.dmaAdvance_elapsed (s : State) (t : AgentTurn) :
    (s.dmaAdvance t).elapsed = s.elapsed := rfl
@[simp] theorem State.dmaAdvance_tickEnded (s : State) (t : AgentTurn) :
    (s.dmaAdvance t).tickEnded = s.tickEnded := rfl
@[simp] theorem State.dmaAdvance_log (s : State) (t : AgentTurn) :
    (s.dmaAdvance t).log = s.log := rfl
@[simp] theorem State.dmaAdvance_unimplemented (s : State) (t : AgentTurn) :
    (s.dmaAdvance t).unimplemented = s.unimplemented := rfl
@[simp] theorem State.dmaAdvance_ioScript (s : State) (t : AgentTurn) :
    (s.dmaAdvance t).ioScript = s.ioScript := rfl
@[simp] theorem State.dmaAdvance_draws (s : State) (t : AgentTurn) :
    (s.dmaAdvance t).draws = s.draws := rfl
@[simp] theorem State.dmaAdvance_agents (s : State) (t : AgentTurn) :
    (s.dmaAdvance t).agents = s.agents := rfl

/-! ### `audioAdvance` -/

@[simp] theorem State.audioAdvance_regs (s : State) (t : AgentTurn) :
    (s.audioAdvance t).regs = s.regs := rfl
@[simp] theorem State.audioAdvance_ime (s : State) (t : AgentTurn) :
    (s.audioAdvance t).ime = s.ime := rfl
@[simp] theorem State.audioAdvance_imePending (s : State) (t : AgentTurn) :
    (s.audioAdvance t).imePending = s.imePending := rfl
@[simp] theorem State.audioAdvance_halted (s : State) (t : AgentTurn) :
    (s.audioAdvance t).halted = s.halted := rfl
@[simp] theorem State.audioAdvance_fatal (s : State) (t : AgentTurn) :
    (s.audioAdvance t).fatal = s.fatal := rfl
@[simp] theorem State.audioAdvance_ie (s : State) (t : AgentTurn) :
    (s.audioAdvance t).ie = s.ie := rfl
@[simp] theorem State.audioAdvance_ifl (s : State) (t : AgentTurn) :
    (s.audioAdvance t).ifl = s.ifl ||| (t.audioIrq &&& agentIrqMask) := rfl
@[simp] theorem State.audioAdvance_timer (s : State) (t : AgentTurn) :
    (s.audioAdvance t).timer = s.timer := rfl
@[simp] theorem State.audioAdvance_mem (s : State) (t : AgentTurn) :
    (s.audioAdvance t).mem = s.mem := rfl
@[simp] theorem State.audioAdvance_cart (s : State) (t : AgentTurn) :
    (s.audioAdvance t).cart = s.cart := rfl
@[simp] theorem State.audioAdvance_elapsed (s : State) (t : AgentTurn) :
    (s.audioAdvance t).elapsed = s.elapsed := rfl
@[simp] theorem State.audioAdvance_tickEnded (s : State) (t : AgentTurn) :
    (s.audioAdvance t).tickEnded = s.tickEnded := rfl
@[simp] theorem State.audioAdvance_log (s : State) (t : AgentTurn) :
    (s.audioAdvance t).log = s.log := rfl
@[simp] theorem State.audioAdvance_unimplemented (s : State) (t : AgentTurn) :
    (s.audioAdvance t).unimplemented = s.unimplemented := rfl
@[simp] theorem State.audioAdvance_ioScript (s : State) (t : AgentTurn) :
    (s.audioAdvance t).ioScript = s.ioScript := rfl
@[simp] theorem State.audioAdvance_draws (s : State) (t : AgentTurn) :
    (s.audioAdvance t).draws = s.draws := rfl
@[simp] theorem State.audioAdvance_agents (s : State) (t : AgentTurn) :
    (s.audioAdvance t).agents = s.agents := rfl

/-! ### `videoAdvance` -/

@[simp] theorem State.videoAdvance_regs (s : State) (t : AgentTurn) :
    (s.videoAdvance t).regs = s.regs := rfl
@[simp] theorem State.videoAdvance_ime (s : State) (t : AgentTurn) :
    (s.videoAdvance t).ime = s.ime := rfl
@[simp] theorem State.videoAdvance_imePending (s : State) (t : AgentTurn) :
    (s.videoAdvance t).imePending = s.imePending := rfl
@[simp] theorem State.videoAdvance_halted (s : State) (t : AgentTurn) :
    (s.videoAdvance t).halted = s.halted := rfl
@[simp] theorem State.videoAdvance_fatal (s : State) (t : AgentTurn) :
    (s.videoAdvance t).fatal = s.fatal := rfl
@[simp] theorem State.videoAdvance_ie (s : State) (t : AgentTurn) :
    (s.videoAdvance t).ie = s.ie := rfl
@[simp] theorem State.videoAdvance_ifl (s : State) (t : AgentTurn) :
    (s.videoAdvance t).ifl = s.ifl ||| (t.videoIrq &&& agentIrqMask) := rfl
@[simp] theorem State.videoAdvance_timer (s : State) (t : AgentTurn) :
    (s.videoAdvance t).timer = s.timer := rfl
@[simp] theorem State.videoAdvance_mem (s : State) (t : AgentTurn) :
    (s.videoAdvance t).mem = s.mem := rfl
@[simp] theorem State.videoAdvance_cart (s : State) (t : AgentTurn) :
    (s.videoAdvance t).cart = s.cart := rfl
@[simp] theorem State.videoAdvance_elapsed (s : State) (t : AgentTurn) :
    (s.videoAdvance t).elapsed = s.elapsed := rfl
@[simp] theorem State.videoAdvance_tickEnded (s : State) (t : AgentTurn) :
    (s.videoAdvance t).tickEnded = s.tickEnded := rfl
@[simp] theorem State.videoAdvance_log (s : State) (t : AgentTurn) :
    (s.videoAdvance t).log = s.log := rfl
@[simp] theorem State.videoAdvance_unimplemented (s : State) (t : AgentTurn) :
    (s.videoAdvance t).unimplemented = s.unimplemented := rfl
@[simp] theorem State.videoAdvance_ioScript (s : State) (t : AgentTurn) :
    (s.videoAdvance t).ioScript = s.ioScript := rfl
@[simp] theorem State.videoAdvance_draws (s : State) (t : AgentTurn) :
    (s.videoAdvance t).draws = s.draws := rfl
@[simp] theorem State.videoAdvance_agents (s : State) (t : AgentTurn) :
    (s.videoAdvance t).agents = s.agents := rfl

/-! ### `collabAdvance` -/

@[simp] theorem State.collabAdvance_regs (s : State) (t : AgentTurn) :
    (s.collabAdvance t).regs = s.regs := rfl
@[simp] theorem State.collabAdvance_ime (s : State) (t : AgentTurn) :
    (s.collabAdvance t).ime = s.ime := rfl
@[simp] theorem State.collabAdvance_imePending (s : State) (t : AgentTurn) :
    (s.collabAdvance t).imePending = s.imePending := rfl
@[simp] theorem State.collabAdvance_halted (s : State) (t : AgentTurn) :
    (s.collabAdvance t).halted = s.halted := rfl
@[simp] theorem State.collabAdvance_fatal (s : State) (t : AgentTurn) :
    (s.collabAdvance t).fatal = s.fatal := rfl
@[simp] theorem State.collabAdvance_ie (s : State) (t : AgentTurn) :
    (s.collabAdvance t).ie = s.ie := rfl
@[simp] theorem State.collabAdvance_ifl (s : State) (t : AgentTurn) :
    (s.collabAdvance t).ifl = s.ifl ||| (t.collabIrq &&& agentIrqMask) := rfl
@[simp] theorem State.collabAdvance_timer (s : State) (t : AgentTurn) :
    (s.collabAdvance t).timer = s.timer := rfl
@[simp] theorem State.collabAdvance_mem (s : State) (t : AgentTurn) :
    (s.collabAdvance t).mem = s.mem := rfl
@[simp] theorem State.collabAdvance_cart (s : State) (t : AgentTurn) :
    (s.collabAdvance t).cart = s.cart := rfl
@[simp] theorem State.collabAdvance_elapsed (s : State) (t : AgentTurn) :
    (s.collabAdvance t).elapsed = s.elapsed := rfl
@[simp] theorem State.collabAdvance_tickEnded (s : State) (t : AgentTurn) :
    (s.collabAdvance t).tickEnded = s.tickEnded := rfl
@[simp] theorem State.collabAdvance_log (s : State) (t : AgentTurn) :
    (s.collabAdvance t).log = s.log := rfl
@[simp] theorem State.collabAdvance_unimplemented (s : State) (t : AgentTurn) :
    (s.collabAdvance t).unimplemented = s.unimplemented := rfl
@[simp] theorem State.collabAdvance_ioScript (s : State) (t : AgentTurn) :
    (s.collabAdvance t).ioScript = s.ioScript := rfl
@[simp] theorem State.collabAdvance_draws (s : State) (t : AgentTurn) :
    (s.collabAdvance t).draws = s.draws := rfl
@[simp] theorem State.collabAdvance_agents (s : State) (t : AgentTurn) :
    (s.collabAdvance t).agents = s.agents := rfl

/-! ### `frameTest` -/

@[simp] theorem State.frameTest_regs (s : State) (t : AgentTurn) :
    (s.frameTest t).regs = s.regs := rfl
@[simp] theorem State.frameTest_ime (s : State) (t : AgentTurn) :
    (s.frameTest t).ime = s.ime := rfl
@[simp] theorem State.frameTest_imePending (s : State) (t : AgentTurn) :
    (s.frameTest t).imePending = s.imePending := rfl
@[simp] theorem State.frameTest_halted (s : State) (t : AgentTurn) :
    (s.frameTest t).halted = s.halted := rfl
@[simp] theorem State.frameTest_fatal (s : State) (t : AgentTurn) :
    (s.frameTest t).fatal = s.fatal := rfl
@[simp] theorem State.frameTest_ie (s : State) (t : AgentTurn) :
    (s.frameTest t).ie = s.ie := rfl
@[simp] theorem State.frameTest_ifl (s : State) (t : AgentTurn) :
    (s.frameTest t).ifl = s.ifl := rfl
@[simp] theorem State.frameTest_timer (s : State) (t : AgentTurn) :
    (s.frameTest t).timer = s.timer := rfl
@[simp] theorem State.frameTest_mem (s : State) (t : AgentTurn) :
    (s.frameTest t).mem = s.mem := rfl
@[simp] theorem State.frameTest_cart (s : State) (t : AgentTurn) :
    (s.frameTest t).cart = s.cart := rfl
@[simp] theorem State.frameTest_elapsed (s : State) (t : AgentTurn) :
    (s.frameTest t).elapsed = s.elapsed := rfl
@[simp] theorem State.frameTest_tickEnded (s : State) (t : AgentTurn) :
    (s.frameTest t).tickEnded = t.frameReady := rfl
@[simp] theorem State.frameTest_log (s : State) (t : AgentTurn) :
    (s.frameTest t).log = s.log := rfl
@[simp] theorem State.frameTest_unimplemented (s : State) (t : AgentTurn) :
    (s.frameTest t).unimplemented = s.unimplemented := rfl
@[simp] theorem State.frameTest_ioScript (s : State) (t : AgentTurn) :
    (s.frameTest t).ioScript = s.ioScript := rfl
@[simp] theorem State.frameTest_draws (s : State) (t : AgentTurn) :
    (s.frameTest t).draws = s.draws := rfl
@[simp] theorem State.frameTest_agents (s : State) (t : AgentTurn) :
    (s.frameTest t).agents = s.agents.tail := rfl

/-! ### Reading registers -/

@[simp] theorem State.setF_getR8 (s : State) (f : Flags) (r : R8) :
    (s.setF f).getR8 r = s.getR8 r := by cases r <;> rfl
@[simp] theorem State.setF_getRR (s : State) (f : Flags) (p : RR) :
    (s.setF f).getRR p = s.getRR p := by cases p <;> rfl
@[simp] theorem State.setF_hl (s : State) (f : Flags) :
    (s.setF f).hl = s.hl := rfl
@[simp] theorem State.setSp_getR8 (s : State) (v : Word) (r : R8) :
    (s.setSp v).getR8 r = s.getR8 r := by cases r <;> rfl
@[simp] theorem State.setSp_getQQ (s : State) (v : Word) (q : QQ) :
    (s.setSp v).getQQ q = s.getQQ q := by cases q <;> rfl
@[simp] theorem State.setSp_hl (s : State) (v : Word) :
    (s.setSp v).hl = s.hl := rfl
@[simp] theorem State.setPc_getR8 (s : State) (v : Word) (r : R8) :
    (s.setPc v).getR8 r = s.getR8 r := by cases r <;> rfl
@[simp] theorem State.setPc_getRR (s : State) (v : Word) (p : RR) :
    (s.setPc v).getRR p = s.getRR p := by cases p <;> rfl
@[simp] theorem State.setPc_getQQ (s : State) (v : Word) (q : QQ) :
    (s.setPc v).getQQ q = s.getQQ q := by cases q <;> rfl
@[simp] theorem State.setPc_hl (s : State) (v : Word) :
    (s.setPc v).hl = s.hl := rfl
@[simp] theorem State.advance_getR8 (s : State) (n : Word) (r : R8) :
    (s.advance n).getR8 r = s.getR8 r := by cases r <;> rfl
@[simp] theorem State.advance_getRR (s : State) (n : Word) (p : RR) :
    (s.advance n).getRR p = s.getRR p := by cases p <;> rfl
@[simp] theorem State.advance_getQQ (s : State) (n : Word) (q : QQ) :
    (s.advance n).getQQ q = s.getQQ q := by cases q <;> rfl
@[simp] theorem State.advance_hl (s : State) (n : Word) :
    (s.advance n).hl = s.hl := rfl
@[simp] theorem State.raise_getR8 (s : State) (f : FatalRecord) (r : R8) :
    (s.raise f).getR8 r = s.getR8 r := by cases r <;> rfl
@[simp] theorem State.raise_getRR (s : State) (f : FatalRecord) (p : RR) :
    (s.raise f).getRR p = s.getRR p := by cases p <;> rfl
@[simp] theorem State.raise_getQQ (s : State) (f : FatalRecord) (q : QQ) :
    (s.raise f).getQQ q = s.getQQ q := by cases q <;> rfl
@[simp] theorem State.raise_hl (s : State) (f : FatalRecord) :
    (s.raise f).hl = s.hl := rfl
@[simp] theorem State.setElapsed_getR8 (s : State) (m : Nat) (r : R8) :
    (s.setElapsed m).getR8 r = s.getR8 r := by cases r <;> rfl
@[simp] theorem State.setElapsed_getRR (s : State) (m : Nat) (p : RR) :
    (s.setElapsed m).getRR p = s.getRR p := by cases p <;> rfl
@[simp] theorem State.setElapsed_getQQ (s : State) (m : Nat) (q : QQ) :
    (s.setElapsed m).getQQ q = s.getQQ q := by cases q <;> rfl
@[simp] theorem State.setElapsed_hl (s : State) (m : Nat) :
    (s.setElapsed m).hl = s.hl := rfl
@[simp] theorem State.storeMem_getR8 (s : State) (a : Word) (v : Byte) (r : R8) :
    (s.storeMem a v).getR8 r = s.getR8 r := by cases r <;> rfl
@[simp] theorem State.storeMem_getRR (s : State) (a : Word) (v : Byte) (p : RR) :
    (s.storeMem a v).getRR p = s.getRR p := by cases p <;> rfl
@[simp] theorem State.storeMem_getQQ (s : State) (a : Word) (v : Byte) (q : QQ) :
    (s.storeMem a v).getQQ q = s.getQQ q := by cases q <;> rfl
@[simp] theorem State.storeMem_hl (s : State) (a : Word) (v : Byte) :
    (s.storeMem a v).hl = s.hl := rfl
@[simp] theorem State.cartWrite_getR8 (s : State) (a : Word) (v : Byte) (r : R8) :
    (s.cartWrite a v).getR8 r = s.getR8 r := by cases r <;> rfl
@[simp] theorem State.cartWrite_getRR (s : State) (a : Word) (v : Byte) (p : RR) :
    (s.cartWrite a v).getRR p = s.getRR p := by cases p <;> rfl
@[simp] theorem State.cartWrite_getQQ (s : State) (a : Word) (v : Byte) (q : QQ) :
    (s.cartWrite a v).getQQ q = s.getQQ q := by cases q <;> rfl
@[simp] theorem State.cartWrite_hl (s : State) (a : Word) (v : Byte) :
    (s.cartWrite a v).hl = s.hl := rfl
@[simp] theorem State.writeIe_getR8 (s : State) (v : Byte) (r : R8) :
    (s.writeIe v).getR8 r = s.getR8 r := by cases r <;> rfl
@[simp] theorem State.writeIe_getRR (s : State) (v : Byte) (p : RR) :
    (s.writeIe v).getRR p = s.getRR p := by cases p <;> rfl
@[simp] theorem State.writeIe_getQQ (s : State) (v : Byte) (q : QQ) :
    (s.writeIe v).getQQ q = s.getQQ q := by cases q <;> rfl
@[simp] theorem State.writeIe_hl (s : State) (v : Byte) :
    (s.writeIe v).hl = s.hl := rfl

@[simp] theorem State.setR8_getR8_same (s : State) (r : R8) (v : Byte) : (s.setR8 r v).getR8 r = v := by
  cases r <;> rfl

theorem State.setR8_getR8_other (s : State) (r q : R8) (v : Byte) (h : q ≠ r) :
    (s.setR8 r v).getR8 q = s.getR8 q := by
  cases r <;> cases q <;> first | rfl | exact absurd rfl h

@[simp] theorem Regs.set_f (g : Regs) (r : R8) (v : Byte) : (g.set r v).f = g.f := by cases r <;> rfl
@[simp] theorem Regs.set_sp (g : Regs) (r : R8) (v : Byte) : (g.set r v).sp = g.sp := by cases r <;> rfl
@[simp] theorem Regs.set_pc (g : Regs) (r : R8) (v : Byte) : (g.set r v).pc = g.pc := by cases r <;> rfl
@[simp] theorem Regs.setRR_f (g : Regs) (p : RR) (v : Word) : (g.setRR p v).f = g.f := by cases p <;> rfl
@[simp] theorem Regs.setRR_pc (g : Regs) (p : RR) (v : Word) : (g.setRR p v).pc = g.pc := by cases p <;> rfl
@[simp] theorem Regs.setQQ_sp (g : Regs) (q : QQ) (v : Word) : (g.setQQ q v).sp = g.sp := by cases q <;> rfl
@[simp] theorem Regs.setQQ_pc (g : Regs) (q : QQ) (v : Word) : (g.setQQ q v).pc = g.pc := by cases q <;> rfl

theorem Regs.setRR_sp (g : Regs) (p : RR) (v : Word) (h : p ≠ .sp) : (g.setRR p v).sp = g.sp := by
  cases p <;> first | rfl | exact absurd rfl h

/-! ### Pairs and halves (10_state.md R33, R34) -/

@[simp] theorem wordOf_hi_lo (w : Word) : wordOf (hiByte w) (loByte w) = w := by
  apply BitVec.eq_of_getLsbD_eq
  intro i hi
  simp only [wordOf, hiByte, loByte, BitVec.getLsbD_append, BitVec.getLsbD_extractLsb']
  split
  · simp_all
  · simp_all; omega

@[simp] theorem hiByte_wordOf (h l : Byte) : hiByte (wordOf h l) = h := by
  apply BitVec.eq_of_getLsbD_eq
  intro i hi
  simp only [wordOf, hiByte, BitVec.getLsbD_append, BitVec.getLsbD_extractLsb']
  simp [hi]

@[simp] theorem loByte_wordOf (h l : Byte) : loByte (wordOf h l) = l := by
  apply BitVec.eq_of_getLsbD_eq
  intro i hi
  simp only [wordOf, loByte, BitVec.getLsbD_append, BitVec.getLsbD_extractLsb']
  simp [hi]

@[simp] theorem Flags.ofByte_toByte (f : Flags) : Flags.ofByte f.toByte = f := by
  rcases f with ⟨z, n, h, c⟩
  cases z <;> cases n <;> cases h <;> cases c <;> rfl

theorem Flags.toByte_ofByte : ∀ v : Byte, (Flags.ofByte v).toByte = v &&& 0xF0 := by decide

@[simp] theorem State.setRR_getRR_same (s : State) (p : RR) (v : Word) : (s.setRR p v).getRR p = v := by
  cases p <;> simp [State.getRR, State.setRR, Regs.getRR, Regs.setRR]

/-! ### The results of operations -/

@[simp] theorem Res.bind_ok {α β : Type} (v : α) (s : State) (k : α → State → Res β) : (Res.ok v s).bind k = k v s := rfl
@[simp] theorem Res.bind_fatal {α β : Type} (s : State) (k : α → State → Res β) : (Res.fatal s).bind k = .fatal s := rfl
@[simp] theorem Res.settle_ok {α : Type} (m : Nat) (v : α) (s : State) : (Res.ok v s).settle m = s.setElapsed m := rfl
@[simp] theorem Res.settle_fatal {α : Type} (m : Nat) (s : State) : (Res.fatal s : Res α).settle m = s := rfl
@[simp] theorem Res.done_ok {α : Type} (m : Nat) (v : α) (s : State) : (Res.ok v s).done m = .next (s.setElapsed m) := rfl
@[simp] theorem Res.done_fatal {α : Type} (m : Nat) (s : State) : (Res.fatal s : Res α).done m = .next s := rfl

/-- A bound result is `ok` only through an `ok` of its first part. -/
theorem Res.bind_eq_ok {α β : Type} {r : Res α} {k : α → State → Res β} {v : β} {t : State} :
    r.bind k = .ok v t ↔ ∃ x u, r = .ok x u ∧ k x u = .ok v t := by
  cases r with
  | ok x u => exact ⟨fun h => ⟨x, u, rfl, h⟩, fun ⟨_, _, h, h'⟩ => by cases h; exact h'⟩
  | fatal u => exact ⟨fun h => (by cases h), fun ⟨_, _, h, _⟩ => (by cases h)⟩

end Sys2Proof.Machine
end

