-- ==== Sys2Proof/Laws/Memory.lean ====
section
/-! SUPPORT. Byte arrays: a read after a write, every other byte kept, and the canonical form kept by every operation. -/

namespace Sys2Proof.Machine

@[simp] theorem memRead_nil (a : Nat) : memRead [] a = Config.unlistedByte := rfl

theorem memRead_cons (c : Host.Cell) (m : List Host.Cell) (a : Nat) :
    memRead (c :: m) a = if c.1 = a then c.2 else memRead m a := rfl

theorem memErase_cons (c : Host.Cell) (m : List Host.Cell) (a : Nat) :
    memErase (c :: m) a = if c.1 = a then memErase m a else c :: memErase m a := by
  unfold memErase
  by_cases h : c.1 = a <;> simp [h]

theorem memRead_memErase_same (m : List Host.Cell) (a : Nat) : memRead (memErase m a) a = Config.unlistedByte := by
  induction m with
  | nil => rfl
  | cons c m ih =>
    rw [memErase_cons]
    split
    · exact ih
    · rw [memRead_cons, if_neg ‹_›, ih]

theorem memRead_memErase_other (m : List Host.Cell) (a b : Nat) (h : b ≠ a) :
    memRead (memErase m a) b = memRead m b := by
  induction m with
  | nil => rfl
  | cons c m ih =>
    rw [memErase_cons, memRead_cons]
    split
    · rename_i hc
      rw [if_neg (by omega), ih]
    · rw [memRead_cons, ih]

/-- The key is not listed. -/
theorem memErase_all_ne (m : List Host.Cell) (a : Nat) : ∀ c ∈ memErase m a, c.1 ≠ a := by
  intro c hc
  simpa using (List.mem_filter.1 hc).2

theorem memRead_memInsert_same (m : List Host.Cell) (a : Nat) (v : Byte) (h : ∀ c ∈ m, c.1 ≠ a) :
    memRead (memInsert m a v) a = v := by
  induction m with
  | nil => simp [memInsert, memRead]
  | cons c m ih =>
    unfold memInsert
    split
    · simp [memRead]
    · rw [memRead_cons, if_neg (h c (by simp)), ih (fun x hx => h x (by simp [hx]))]

theorem memRead_memInsert_other (m : List Host.Cell) (a b : Nat) (v : Byte) (h : b ≠ a) :
    memRead (memInsert m a v) b = memRead m b := by
  induction m with
  | nil => simp [memInsert, memRead, Ne.symm h]
  | cons c m ih =>
    unfold memInsert
    split
    · rw [memRead_cons, if_neg (Ne.symm h)]
    · rw [memRead_cons, memRead_cons, ih]

/-- A read after a write to the same key gives the byte written. -/
@[simp] theorem memRead_memWrite_same (m : List Host.Cell) (a : Nat) (v : Byte) : memRead (memWrite m a v) a = v := by
  unfold memWrite
  split
  · rw [memRead_memErase_same, ‹v = _›]
  · exact memRead_memInsert_same _ _ _ (memErase_all_ne m a)

/-- A write leaves every other key as it was. -/
theorem memRead_memWrite_other (m : List Host.Cell) (a b : Nat) (v : Byte) (h : b ≠ a) :
    memRead (memWrite m a v) b = memRead m b := by
  unfold memWrite
  split
  · exact memRead_memErase_other m a b h
  · rw [memRead_memInsert_other _ _ _ _ h, memRead_memErase_other m a b h]

/-! ## The canonical form -/

theorem memWf_cons (c : Host.Cell) (m : List Host.Cell) :
    memWf (c :: m) = true ↔ c.2 ≠ Config.unlistedByte ∧ (∀ x ∈ m, c.1 < x.1) ∧ memWf m = true := by
  simp [memWf, and_assoc]

theorem memWf_memErase (m : List Host.Cell) (a : Nat) (h : memWf m = true) : memWf (memErase m a) = true := by
  induction m with
  | nil => rfl
  | cons c m ih =>
    obtain ⟨hv, hk, hm⟩ := (memWf_cons c m).1 h
    rw [memErase_cons]
    split
    · exact ih hm
    · exact (memWf_cons _ _).2 ⟨hv, fun x hx => hk x (List.mem_filter.1 hx).1, ih hm⟩

theorem mem_memInsert (m : List Host.Cell) (a : Nat) (v : Byte) (x : Host.Cell) (h : x ∈ memInsert m a v) :
    x = (a, v) ∨ x ∈ m := by
  induction m with
  | nil => simpa [memInsert] using h
  | cons c m ih =>
    unfold memInsert at h
    split at h
    · simpa using h
    · rcases List.mem_cons.1 h with h | h
      · exact .inr (by simp [h])
      · exact (ih h).imp id (fun h => by simp [h])

theorem memWf_memInsert (m : List Host.Cell) (a : Nat) (v : Byte) (h : memWf m = true) (hv : v ≠ Config.unlistedByte)
    (hne : ∀ c ∈ m, c.1 ≠ a) : memWf (memInsert m a v) = true := by
  induction m with
  | nil => exact (memWf_cons _ _).2 ⟨hv, by simp, rfl⟩
  | cons c m ih =>
    obtain ⟨hc, hk, hm⟩ := (memWf_cons c m).1 h
    unfold memInsert
    split
    · rename_i hlt
      refine (memWf_cons _ _).2 ⟨hv, fun x hx => ?_, h⟩
      rcases List.mem_cons.1 hx with rfl | hx
      · exact hlt
      · exact Nat.lt_trans hlt (hk x hx)
    · rename_i hge
      have hca : c.1 < a := by have := hne c (by simp); omega
      refine (memWf_cons _ _).2 ⟨hc, fun x hx => ?_, ih hm (fun x hx => hne x (by simp [hx]))⟩
      rcases mem_memInsert m a v x hx with rfl | hx
      · exact hca
      · exact hk x hx

/-- Every store keeps the canonical form. -/
theorem memWf_memWrite (m : List Host.Cell) (a : Nat) (v : Byte) (h : memWf m = true) : memWf (memWrite m a v) = true := by
  unfold memWrite
  split
  · exact memWf_memErase m a h
  · exact memWf_memInsert _ _ _ (memWf_memErase m a h) ‹_› (memErase_all_ne m a)

/-- A store at a key that satisfies `p` keeps the keys inside `p`. -/
theorem memKeys_memWrite (p : Nat → Bool) (m : List Host.Cell) (a : Nat) (v : Byte) (h : memKeys p m = true)
    (ha : p a = true) : memKeys p (memWrite m a v) = true := by
  have hm : ∀ c ∈ m, p c.1 = true := by simpa [memKeys] using h
  suffices hh : ∀ c ∈ memWrite m a v, p c.1 = true by simpa [memKeys] using hh
  intro c hc
  unfold memWrite at hc
  split at hc
  · exact hm c (List.mem_filter.1 hc).1
  · rcases mem_memInsert _ _ _ _ hc with rfl | hc
    · exact ha
    · exact hm c (List.mem_filter.1 hc).1

theorem memRead_of_lt (m : List Host.Cell) (a : Nat) (h : ∀ x ∈ m, a < x.1) : memRead m a = Config.unlistedByte := by
  induction m with
  | nil => rfl
  | cons c m ih =>
    have := h c (by simp)
    rw [memRead_cons, if_neg (by omega), ih (fun x hx => h x (by simp [hx]))]

/-- Two canonical arrays that read the same everywhere are the same data. -/
theorem memWf_ext (m m' : List Host.Cell) (h : memWf m = true) (h' : memWf m' = true)
    (he : ∀ a, memRead m a = memRead m' a) : m = m' := by
  induction m generalizing m' with
  | nil =>
    cases m' with
    | nil => rfl
    | cons c m' =>
      have := he c.1
      rw [memRead_nil, memRead_cons, if_pos rfl] at this
      exact absurd this.symm ((memWf_cons _ _).1 h').1
  | cons c m ih =>
    obtain ⟨hv, hk, hm⟩ := (memWf_cons _ _).1 h
    cases m' with
    | nil =>
      have := he c.1
      rw [memRead_nil, memRead_cons, if_pos rfl] at this
      exact absurd this hv
    | cons c' m' =>
      obtain ⟨hv', hk', hm'⟩ := (memWf_cons _ _).1 h'
      have hkey : c.1 = c'.1 := by
        rcases Nat.lt_trichotomy c.1 c'.1 with hlt | heq | hgt
        · have h1 := he c.1
          rw [memRead_cons, if_pos rfl, memRead_of_lt (c' :: m') c.1] at h1
          · exact absurd h1 hv
          · intro x hx
            rcases List.mem_cons.1 hx with rfl | hx
            · exact hlt
            · exact Nat.lt_trans hlt (hk' x hx)
        · exact heq
        · have h1 := he c'.1
          rw [memRead_cons c', if_pos rfl, memRead_of_lt (c :: m) c'.1] at h1
          · exact absurd h1.symm hv'
          · intro x hx
            rcases List.mem_cons.1 hx with rfl | hx
            · exact hgt
            · exact Nat.lt_trans hgt (hk x hx)
      have hval : c.2 = c'.2 := by
        have h1 := he c.1
        rwa [memRead_cons, if_pos rfl, memRead_cons, if_pos hkey.symm] at h1
      have htail : m = m' := by
        refine ih m' hm hm' (fun a => ?_)
        by_cases ha : c.1 = a
        · subst ha
          rw [memRead_of_lt m c.1 hk, memRead_of_lt m' c.1 (fun x hx => hkey ▸ hk' x hx)]
        · have h1 := he a
          rwa [memRead_cons, if_neg ha, memRead_cons, if_neg (by omega)] at h1
      rw [Prod.ext hkey hval, htail]

/-! ## Many stores -/

theorem memWf_memWriteAll (cs m : List Host.Cell) (h : memWf m = true) : memWf (memWriteAll m cs) = true := by
  induction cs generalizing m with
  | nil => exact h
  | cons c cs ih => exact ih _ (memWf_memWrite m c.1 c.2 h)

theorem memKeys_memWriteAll (p : Nat → Bool) (cs m : List Host.Cell) (h : memKeys p m = true)
    (hc : ∀ c ∈ cs, p c.1 = true) : memKeys p (memWriteAll m cs) = true := by
  induction cs generalizing m with
  | nil => exact h
  | cons c cs ih =>
    exact ih _ (memKeys_memWrite p m c.1 c.2 h (hc c (by simp))) (fun x hx => hc x (by simp [hx]))

theorem memWf_oamWrites (ws : List (Fin 160 × Byte)) (m : List Host.Cell) (h : memWf m = true) :
    memWf (oamWrites m ws) = true := by
  induction ws generalizing m with
  | nil => exact h
  | cons w ws ih => exact ih _ (memWf_memWrite m _ _ h)

theorem isArrayKey_oam (i : Fin 160) : isArrayKey (0xFE00 + i.val) = true := by
  have := i.isLt
  simp [isArrayKey]
  omega

theorem memKeys_oamWrites (ws : List (Fin 160 × Byte)) (m : List Host.Cell) (h : memKeys isArrayKey m = true) :
    memKeys isArrayKey (oamWrites m ws) = true := by
  induction ws generalizing m with
  | nil => exact h
  | cons w ws ih => exact ih _ (memKeys_memWrite _ m _ _ h (isArrayKey_oam w.1))

/-- DMA's writes reach OAM only (60_exceptions.md R442). -/
theorem memRead_oamWrites_other (ws : List (Fin 160 × Byte)) (m : List Host.Cell) (a : Nat)
    (h : a < 0xFE00 ∨ 0xFE9F < a) : memRead (oamWrites m ws) a = memRead m a := by
  induction ws generalizing m with
  | nil => rfl
  | cons w ws ih =>
    have := w.1.isLt
    rw [oamWrites, ih, memRead_memWrite_other _ _ _ _ (by omega)]

end Sys2Proof.Machine
end

