-- ==== Sys2Proof/Laws/Bus.lean ====
section
/-! SUPPORT. The bus: what a read and a write can do, that neither depends on the register file, what a write leaves
unchanged, and that both keep the invariant. -/

namespace Sys2Proof.Machine

/-! ## Acting on the state of a result -/

/-- A result with a function applied to its state. -/
def Res.onState {α : Type} (g : State → State) : Res α → Res α
  | .ok v s => .ok v (g s)
  | .fatal s => .fatal (g s)

/-- A state with another register file. -/
def State.withRegs (s : State) (g : Regs) : State := { s with regs := g }

@[simp] theorem State.withRegs_regs (s : State) (g : Regs) : (s.withRegs g).regs = g := rfl
@[simp] theorem State.withRegs_withRegs (s : State) (g h : Regs) : (s.withRegs g).withRegs h = s.withRegs h := rfl
@[simp] theorem State.withRegs_self (s : State) : s.withRegs s.regs = s := rfl

theorem State.setPc_eq (s : State) (v : Word) : s.setPc v = s.withRegs { s.regs with pc := v } := rfl
theorem State.setSp_eq (s : State) (v : Word) : s.setSp v = s.withRegs { s.regs with sp := v } := rfl
theorem State.setF_eq (s : State) (f : Flags) : s.setF f = s.withRegs { s.regs with f := f } := rfl
theorem State.setR8_eq (s : State) (r : R8) (v : Byte) : s.setR8 r v = s.withRegs (s.regs.set r v) := rfl
theorem State.setRR_eq (s : State) (p : RR) (v : Word) : s.setRR p v = s.withRegs (s.regs.setRR p v) := rfl
theorem State.setQQ_eq (s : State) (q : QQ) (v : Word) : s.setQQ q v = s.withRegs (s.regs.setQQ q v) := rfl
theorem State.advance_eq (s : State) (n : Word) : s.advance n = s.withRegs { s.regs with pc := s.regs.pc + n } := rfl

/-! ## The register file plays no part on the bus -/

theorem State.busRead_withRegs (s : State) (g : Regs) (a : Word) (k : Access) :
    (s.withRegs g).busRead a k = (s.busRead a k).onState (fun t => t.withRegs g) := by
  unfold State.busRead
  cases zoneOf a <;> try rfl
  all_goals first
    | (simp only [State.cartRead, State.withRegs]; cases s.cart.read a <;> rfl)
    | (simp only [State.ioRead, State.pIoRead, State.withRegs]
       cases ioRegOf a with
       | some r => cases r <;> rfl
       | none => cases s.ioScript with
         | nil => rfl
         | cons x rest => cases x <;> rfl)

theorem State.busWrite_withRegs (s : State) (g : Regs) (a : Word) (v : Byte) :
    (s.withRegs g).busWrite a v = (s.busWrite a v).onState (fun t => t.withRegs g) := by
  unfold State.busWrite
  cases zoneOf a <;> try rfl
  simp only [State.ioWrite, State.withRegs]
  cases ioRegOf a with
  | some r => cases r <;> rfl
  | none =>
    simp only [State.pIoWrite]
    split <;> rfl

@[simp] theorem State.peek_withRegs (s : State) (g : Regs) (a : Word) : (s.withRegs g).peek a = s.peek a := by
  unfold State.peek
  cases zoneOf a <;> rfl

@[simp] theorem State.peek_setElapsed (s : State) (m : Nat) (a : Word) : (s.setElapsed m).peek a = s.peek a := by
  unfold State.peek
  cases zoneOf a <;> rfl

/-- `peek` looks at five fields. -/
theorem State.peek_congr (s t : State) (a : Word) (hm : t.mem = s.mem) (hc : t.cart = s.cart) (ht : t.timer = s.timer)
    (hf : t.ifl = s.ifl) (he : t.ie = s.ie) : t.peek a = s.peek a := by
  unfold State.peek
  rw [hm, hc, he]
  cases zoneOf a <;> try rfl
  cases ioRegOf a with
  | none => rfl
  | some r => cases r <;> simp [State.readIoReg, ht, hf]

/-! ## Reads -/

/-- A read the block owns answers what `peek` says and changes nothing (20_memory.md R99). -/
theorem State.busRead_of_peek (s : State) (a : Word) (k : Access) (v : Byte) (h : s.peek a = some v) :
    s.busRead a k = .ok v s := by
  unfold State.peek at h
  unfold State.busRead
  cases hz : zoneOf a <;> rw [hz] at h <;> simp only at h ⊢
  all_goals first
    | (cases h; done)
    | (cases h; rfl)
    | (unfold State.cartRead
       cases hc : s.cart.read a with
       | ok w => rw [hc] at h; cases h; rfl
       | error f => rw [hc] at h; cases h)
    | (unfold State.ioRead
       cases hr : ioRegOf a with
       | some r => rw [hr] at h; cases h; rfl
       | none => rw [hr] at h; cases h)

/-- A read of an address the block does not own is the collaborator's. -/
theorem State.busRead_pIo (s : State) (a : Word) (k : Access) (h : IsPIo a) : s.busRead a k = s.pIoRead a := by
  unfold State.busRead State.ioRead
  rw [h.1, h.2]

/-- A read that is neither the block's own nor the collaborator's raises, and does nothing else. -/
theorem State.busRead_of_peek_none (s : State) (a : Word) (k : Access) (h : s.peek a = none) (hn : ¬ IsPIo a) :
    ∃ f, s.busRead a k = .fatal (s.raise f) := by
  unfold State.peek at h
  unfold State.busRead
  cases hz : zoneOf a <;> rw [hz] at h <;> simp only at h ⊢ <;> try (cases h)
  all_goals first
    | exact ⟨_, rfl⟩
    | (unfold State.cartRead
       cases hc : s.cart.read a with
       | ok w => rw [hc] at h; cases h
       | error f => exact ⟨f, rfl⟩)
    | (exfalso
       cases hr : ioRegOf a with
       | some r => rw [hr] at h; cases h
       | none => exact hn ⟨hz, hr⟩)

/-- Everything a read can do. -/
theorem State.busRead_cases (s : State) (a : Word) (k : Access) :
    (∃ v, s.peek a = some v ∧ s.busRead a k = .ok v s) ∨
    (IsPIo a ∧ s.busRead a k = s.pIoRead a) ∨
    (∃ f, s.busRead a k = .fatal (s.raise f)) := by
  cases hp : s.peek a with
  | some v => exact .inl ⟨v, rfl, s.busRead_of_peek a k v hp⟩
  | none =>
    by_cases hn : IsPIo a
    · exact .inr (.inl ⟨hn, s.busRead_pIo a k hn⟩)
    · exact .inr (.inr (s.busRead_of_peek_none a k hp hn))

/-- Everything the collaborator can do with a read. -/
theorem State.pIoRead_cases (s : State) (a : Word) :
    (∃ v rest, s.ioScript = .answer v :: rest ∧ s.pIoRead a = .ok v { s with ioScript := rest }) ∨
    (∃ rest, s.ioScript = .refuse :: rest ∧ s.pIoRead a = .fatal ({ s with ioScript := rest }.raise (.io a))) ∨
    (s.ioScript = [] ∧ s.pIoRead a = .ok (Config.ioByte s.draws a) { s with draws := s.draws + 1 }) := by
  unfold State.pIoRead
  cases s.ioScript with
  | nil => exact .inr (.inr ⟨rfl, rfl⟩)
  | cons x rest =>
    cases x with
    | answer v => exact .inl ⟨v, rest, rfl, rfl⟩
    | refuse => exact .inr (.inl ⟨rest, rfl, rfl⟩)

/-- A read leaves everything but the collaborator's script, its draws, FATAL and the returned cost as it was. -/
theorem State.busRead_state (s : State) (a : Word) (k : Access) :
    (s.busRead a k).state =
      { s with
        ioScript := (s.busRead a k).state.ioScript
        draws := (s.busRead a k).state.draws
        fatal := (s.busRead a k).state.fatal
        elapsed := (s.busRead a k).state.elapsed } := by
  rcases s.busRead_cases a k with ⟨v, _, h⟩ | ⟨_, h⟩ | ⟨f, h⟩
  · rw [h]; rfl
  · rw [h]
    rcases s.pIoRead_cases a with ⟨v, rest, _, h⟩ | ⟨rest, _, h⟩ | ⟨_, h⟩ <;> rw [h] <;> rfl
  · rw [h]; rfl

/-! ## Writes -/

/-- A write leaves the register file and the CPU's hidden state, the log, the parameters outside the cartridge, the draws and
the agents as they were. -/
theorem State.busWrite_state (s : State) (a : Word) (v : Byte) :
    (s.busWrite a v).state =
      { s with
        mem := (s.busWrite a v).state.mem
        cart := (s.busWrite a v).state.cart
        timer := (s.busWrite a v).state.timer
        ie := (s.busWrite a v).state.ie
        ifl := (s.busWrite a v).state.ifl
        ioScript := (s.busWrite a v).state.ioScript
        fatal := (s.busWrite a v).state.fatal
        elapsed := (s.busWrite a v).state.elapsed } := by
  unfold State.busWrite
  cases zoneOf a <;> try rfl
  simp only [State.ioWrite, State.pIoWrite]
  cases ioRegOf a with
  | some r => cases r <;> rfl
  | none => cases s.ioScript with
    | nil => rfl
    | cons x rest => cases x <;> rfl

theorem State.busWrite_regs (s : State) (a : Word) (v : Byte) : (s.busWrite a v).state.regs = s.regs := by
  rw [s.busWrite_state a v]

theorem State.busRead_regs (s : State) (a : Word) (k : Access) : (s.busRead a k).state.regs = s.regs := by
  rw [s.busRead_state a k]

/-- An accepted write raises nothing and returns no cost of its own. -/
theorem State.busWrite_ok (s u : State) (a : Word) (v : Byte) (h : s.busWrite a v = .ok () u) :
    u.fatal = s.fatal ∧ u.elapsed = s.elapsed := by
  unfold State.busWrite at h
  cases hz : zoneOf a <;> rw [hz] at h <;> simp only at h
  all_goals first
    | (injection h with _ h; subst h; exact ⟨rfl, rfl⟩)
    | (cases h)
    | skip
  unfold State.ioWrite at h
  cases hr : ioRegOf a with
  | some r => rw [hr] at h; injection h with _ h; subst h; cases r <;> exact ⟨rfl, rfl⟩
  | none =>
    rw [hr] at h
    unfold State.pIoWrite at h
    cases hs : s.ioScript with
    | nil => rw [hs] at h; injection h with _ h; subst h; exact ⟨rfl, rfl⟩
    | cons x rest =>
      rw [hs] at h
      cases x with
      | answer w => injection h with _ h; subst h; exact ⟨rfl, rfl⟩
      | refuse => cases h

/-- An answered read raises nothing and returns no cost of its own. -/
theorem State.busRead_ok (s u : State) (a : Word) (k : Access) (v : Byte) (h : s.busRead a k = .ok v u) :
    u.fatal = s.fatal ∧ u.elapsed = s.elapsed := by
  rcases s.busRead_cases a k with ⟨w, _, h'⟩ | ⟨_, h'⟩ | ⟨f, h'⟩
  · rw [h'] at h; injection h with _ h; subst h; exact ⟨rfl, rfl⟩
  · rw [h'] at h
    rcases s.pIoRead_cases a with ⟨w, rest, _, h''⟩ | ⟨rest, _, h''⟩ | ⟨_, h''⟩ <;> rw [h''] at h
    · injection h with _ h; subst h; exact ⟨rfl, rfl⟩
    · cases h
    · injection h with _ h; subst h; exact ⟨rfl, rfl⟩
  · rw [h'] at h; cases h

/-! ## The invariant -/

theorem State.wf_iff (s : State) :
    s.Inv ↔ memWf s.mem = true ∧ memKeys isArrayKey s.mem = true ∧ s.cart.wf = true := by
  simp [State.Inv, State.wf, and_assoc]

theorem Cart.wf_iff (k : Cart) :
    k.wf = true ↔ memWf k.rom = true ∧ memKeys (fun a => decide (a < k.romBytes)) k.rom = true ∧ memWf k.ram = true ∧
      memKeys (fun a => decide (a < k.ramBytes)) k.ram = true ∧ k.sizesLegal = true := by
  simp [Cart.wf, and_assoc]

/-- The invariant looks at two fields. -/
theorem State.inv_congr (s t : State) (hm : t.mem = s.mem) (hc : t.cart = s.cart) (h : s.Inv) : t.Inv := by
  rw [State.wf_iff] at h ⊢
  rwa [hm, hc]

theorem Cart.write_wf (k : Cart) (a : Word) (v : Byte) (h : k.wf = true) : (k.write a v).wf = true := by
  unfold Cart.write
  cases hc : k.ctl with
  | romOnly => exact h
  | mbc1 m =>
    simp only
    split
    · exact h
    · split
      · exact h
      · rename_i hen
        obtain ⟨h1, h2, h3, h4, h5⟩ := (Cart.wf_iff k).1 h
        refine (Cart.wf_iff _).2 ⟨h1, h2, memWf_memWrite _ _ _ h3, memKeys_memWrite _ _ _ _ h4 ?_, h5⟩
        have hpos : 0 < k.ramBytes := by
          rcases Nat.eq_zero_or_pos k.ramBytes with h0 | h0
          · exact absurd (Or.inr h0) hen
          · exact h0
        simpa [Mbc1.ramOffset] using Nat.mod_lt _ hpos

theorem isArrayKey_of_isArray (a : Word) (h : IsArray a) : isArrayKey a.toNat = true := by
  simp only [IsArray, zoneOf] at h
  simp only [isArrayKey]
  have := a.isLt
  split_ifs at h <;> simp_all <;> omega

theorem State.inv_storeMem (s : State) (a : Word) (v : Byte) (ha : IsArray a) (h : s.Inv) : (s.storeMem a v).Inv := by
  rw [State.wf_iff] at h ⊢
  exact ⟨memWf_memWrite _ _ _ h.1, memKeys_memWrite _ _ _ _ h.2.1 (isArrayKey_of_isArray a ha), h.2.2⟩

theorem State.inv_cartWrite (s : State) (a : Word) (v : Byte) (h : s.Inv) : (s.cartWrite a v).Inv := by
  rw [State.wf_iff] at h ⊢
  exact ⟨h.1, h.2.1, Cart.write_wf _ _ _ h.2.2⟩

/-- A write on the bus keeps the invariant. -/
theorem State.inv_busWrite (s : State) (a : Word) (v : Byte) (h : s.Inv) : (s.busWrite a v).state.Inv := by
  unfold State.busWrite
  cases hz : zoneOf a <;> simp only
  · exact s.inv_cartWrite a v h
  · exact s.inv_storeMem a v (.inl hz) h
  · exact s.inv_cartWrite a v h
  · exact s.inv_storeMem a v (.inr (.inl hz)) h
  · exact s.inv_congr _ rfl rfl h
  · exact s.inv_storeMem a v (.inr (.inr (.inl hz))) h
  · unfold State.ioWrite State.pIoWrite
    cases ioRegOf a with
    | some r => cases r <;> exact s.inv_congr _ rfl rfl h
    | none =>
      cases s.ioScript with
      | nil => exact h
      | cons x rest => cases x <;> exact s.inv_congr _ rfl rfl h
  · exact s.inv_storeMem a v (.inr (.inr (.inr hz))) h
  · exact s.inv_congr _ rfl rfl h

/-- A read on the bus keeps the invariant. -/
theorem State.inv_busRead (s : State) (a : Word) (k : Access) (h : s.Inv) : (s.busRead a k).state.Inv := by
  rw [s.busRead_state a k]
  exact s.inv_congr _ rfl rfl h

end Sys2Proof.Machine
end

