-- ==== Sys2Proof/Laws/Encoding.lean ====
section
/-! SUPPORT. How a first byte's length and entry settle what a run of bytes decodes to. -/

namespace Sys2Proof.Machine

theorem spells_of_length1 {o : Byte} {i : Instr} (hl : firstLength o = 1) (hw : ∀ b1 b2, decodeWords o b1 b2 = i)
    (hi : i.WellFormed) : Spells [o] i := by
  refine ⟨hi, fun rest => ?_⟩
  simp only [List.cons_append, List.nil_append, decode, hl, hw]
  rw [if_neg (by omega)]
  simp

theorem spells_of_length2 {o b : Byte} {i : Instr} (hl : firstLength o = 2) (hw : ∀ b2, decodeWords o b b2 = i)
    (hi : i.WellFormed) : Spells [o, b] i := by
  refine ⟨hi, fun rest => ?_⟩
  simp only [List.cons_append, List.nil_append, decode, hl]
  rw [if_neg (by simp)]
  simp [hw]

theorem spells_of_length3 {o b c : Byte} {i : Instr} (hl : firstLength o = 3) (hw : decodeWords o b c = i)
    (hi : i.WellFormed) : Spells [o, b, c] i := by
  refine ⟨hi, fun rest => ?_⟩
  simp only [List.cons_append, List.nil_append, decode, hl]
  rw [if_neg (by simp)]
  simp [hw]

end Sys2Proof.Machine
end

