-- ==== Sys2Proof/Laws/Frame.lean ====
section
/-! SUPPORT. Frames of the shared operations: accesses from a state with another PC or SP, which bytes an access keeps, where
an access is answered, and what each shape of meaning answers. -/

namespace Sys2Proof.Machine

@[simp] theorem Res.onState_ok {α : Type} (g : State → State) (v : α) (s : State) :
    (Res.ok v s).onState g = .ok v (g s) := rfl
@[simp] theorem Res.onState_fatal {α : Type} (g : State → State) (s : State) :
    (Res.fatal s : Res α).onState g = .fatal (g s) := rfl

/-! ## Accesses do not look at PC, SP or the flags -/

theorem State.read8_regs (s : State) (a : Word) : (s.read8 a).state.regs = s.regs := s.busRead_regs a .read
theorem State.write8_regs (s : State) (a : Word) (v : Byte) : (s.write8 a v).state.regs = s.regs := s.busWrite_regs a v

theorem State.read8_ok_regs {s u : State} {a : Word} {v : Byte} (h : s.read8 a = .ok v u) : u.regs = s.regs := by
  have := s.read8_regs a
  rwa [h] at this

theorem State.read8_fatal_regs {s u : State} {a : Word} (h : s.read8 a = .fatal u) : u.regs = s.regs := by
  have := s.read8_regs a
  rwa [h] at this

theorem State.write8_ok_regs {s u : State} {a : Word} {v : Byte} (h : s.write8 a v = .ok () u) : u.regs = s.regs := by
  have := s.write8_regs a v
  rwa [h] at this

theorem State.write8_fatal_regs {s u : State} {a : Word} {v : Byte} (h : s.write8 a v = .fatal u) : u.regs = s.regs := by
  have := s.write8_regs a v
  rwa [h] at this

theorem State.read8_setPc (s : State) (v a : Word) : (s.setPc v).read8 a = (s.read8 a).onState (fun t => t.setPc v) := by
  have h := s.busRead_withRegs { s.regs with pc := v } a .read
  have hr := s.read8_regs a
  unfold State.read8 at hr ⊢
  rw [State.setPc_eq, h]
  cases hb : s.busRead a .read <;> rw [hb] at hr <;> simp [Res.state] at hr <;> simp [State.setPc, State.withRegs, hr]

theorem State.read8_setSp (s : State) (v a : Word) : (s.setSp v).read8 a = (s.read8 a).onState (fun t => t.setSp v) := by
  have h := s.busRead_withRegs { s.regs with sp := v } a .read
  have hr := s.read8_regs a
  unfold State.read8 at hr ⊢
  rw [State.setSp_eq, h]
  cases hb : s.busRead a .read <;> rw [hb] at hr <;> simp [Res.state] at hr <;> simp [State.setSp, State.withRegs, hr]

theorem State.write8_setPc (s : State) (v a : Word) (b : Byte) :
    (s.setPc v).write8 a b = (s.write8 a b).onState (fun t => t.setPc v) := by
  have h := s.busWrite_withRegs { s.regs with pc := v } a b
  have hr := s.write8_regs a b
  unfold State.write8 at hr ⊢
  rw [State.setPc_eq, h]
  cases hb : s.busWrite a b <;> rw [hb] at hr <;> simp [Res.state] at hr <;> simp [State.setPc, State.withRegs, hr]

theorem State.write8_setSp (s : State) (v a : Word) (b : Byte) :
    (s.setSp v).write8 a b = (s.write8 a b).onState (fun t => t.setSp v) := by
  have h := s.busWrite_withRegs { s.regs with sp := v } a b
  have hr := s.write8_regs a b
  unfold State.write8 at hr ⊢
  rw [State.setSp_eq, h]
  cases hb : s.busWrite a b <;> rw [hb] at hr <;> simp [Res.state] at hr <;> simp [State.setSp, State.withRegs, hr]

/-! ## Where an access is answered -/

theorem State.read8_of_readable (s : State) (a : Word) (h : Readable s a) : ∃ v u, s.read8 a = .ok v u := by
  obtain ⟨hf, hc, hp⟩ := h
  unfold State.read8 State.busRead
  cases hz : zoneOf a <;> rw [hz] at hf hc <;> simp only <;> try exact ⟨_, _, rfl⟩
  · unfold State.cartRead Cart.read
    cases hk : s.cart.ctl with
    | romOnly => rw [if_pos (hc (.inl rfl) hk)]; exact ⟨_, _, rfl⟩
    | mbc1 m => simp only; split_ifs <;> exact ⟨_, _, rfl⟩
  · unfold State.cartRead Cart.read
    cases hk : s.cart.ctl with
    | romOnly => rw [if_pos (hc (.inr rfl) hk)]; exact ⟨_, _, rfl⟩
    | mbc1 m => simp only; split_ifs <;> exact ⟨_, _, rfl⟩
  · exact absurd rfl hf
  · unfold State.ioRead
    cases hr : ioRegOf a with
    | some r => exact ⟨_, _, rfl⟩
    | none =>
      have := hp ⟨hz, hr⟩
      rcases s.pIoRead_cases a with ⟨v, rest, _, h'⟩ | ⟨rest, hs, _⟩ | ⟨_, h'⟩
      · exact ⟨_, _, h'⟩
      · rw [hs] at this; exact absurd rfl this
      · exact ⟨_, _, h'⟩

theorem State.write8_of_writable (s : State) (a : Word) (v : Byte) (h : Writable s a) : ∃ u, s.write8 a v = .ok () u := by
  obtain ⟨hf, hp⟩ := h
  unfold State.write8 State.busWrite
  cases hz : zoneOf a <;> rw [hz] at hf <;> simp only <;> try exact ⟨_, rfl⟩
  · exact absurd rfl hf
  · unfold State.ioWrite
    cases hr : ioRegOf a with
    | some r => exact ⟨_, rfl⟩
    | none =>
      have := hp ⟨hz, hr⟩
      unfold State.pIoWrite
      cases hs : s.ioScript with
      | nil => exact ⟨_, rfl⟩
      | cons x rest =>
        cases x with
        | answer w => exact ⟨_, rfl⟩
        | refuse => rw [hs] at this; exact absurd rfl this

/-! ## Which bytes an access keeps -/

theorem OnlyRegs.peek {u t : State} (h : OnlyRegs u t) (a : Word) : t.peek a = u.peek a := by
  rw [← h]
  exact (State.peek_congr _ _ a rfl rfl rfl rfl rfl).symm

theorem OnlyRegs.cart {u t : State} (h : OnlyRegs u t) : t.cart = u.cart := by
  rw [← h]

theorem BytesKept.self (s : State) (l : List Word) : BytesKept s s l := ⟨fun _ _ _ => rfl, rfl, fun _ => rfl⟩

theorem BytesKept.onlyRegs {s u t : State} {l : List Word} (h : BytesKept s u l) (ho : OnlyRegs u t) : BytesKept s t l := by
  obtain ⟨h1, h2, h3⟩ := h
  refine ⟨fun b hb hc => ?_, ?_, fun ha => ?_⟩
  · rw [ho.peek]; exact h1 b hb hc
  · rw [ho.cart]; exact h2
  · rw [ho.cart]; exact h3 ha

theorem BytesKept.trans {s u t : State} {l m : List Word} (h : BytesKept s u l) (h' : BytesKept u t m) :
    BytesKept s t (l ++ m) := by
  obtain ⟨h1, h2, h3⟩ := h
  obtain ⟨k1, k2, k3⟩ := h'
  refine ⟨fun b hb hc => ?_, k2.trans h2, fun ha => ?_⟩
  · rw [List.mem_append, not_or] at hb
    rw [k1 b hb.2 fun hz a ha => hc hz a (List.mem_append_right _ ha),
      h1 b hb.1 fun hz a ha => hc hz a (List.mem_append_left _ ha)]
  · rw [k3 fun a hm => ha a (List.mem_append_right _ hm), h3 fun a hm => ha a (List.mem_append_left _ hm)]

theorem BytesKept.read {s u : State} {a : Word} {v : Byte} (h : s.read8 a = .ok v u) : BytesKept s u [] := by
  have hs := s.busRead_state a .read
  unfold State.read8 at h
  rw [h] at hs
  simp only [Res.state] at hs
  rw [hs]
  exact ⟨fun b _ _ => State.peek_congr _ _ b rfl rfl rfl rfl rfl, rfl, fun _ => rfl⟩

theorem zoneOf_eq_ie (a : Word) : zoneOf a = .ie ↔ a = 0xFFFF := by
  simp only [zoneOf]
  have := a.isLt
  rw [← BitVec.toNat_inj]
  split_ifs <;> simp <;> omega

/-- The address of an owned I/O register. -/
def IoReg.addr : IoReg → Word
  | .div => 0xFF04
  | .tima => 0xFF05
  | .tma => 0xFF06
  | .tac => 0xFF07
  | .ifl => 0xFF0F

theorem ioRegOf_eq_some (a : Word) (r : IoReg) : ioRegOf a = some r ↔ a = r.addr := by
  unfold ioRegOf
  constructor
  · intro h
    split_ifs at h <;> cases h <;> assumption
  · intro h
    cases r <;> subst h <;> rfl

theorem State.peek_writeIoReg (s : State) (r : IoReg) (v : Byte) (b : Word) (h : ioRegOf b ≠ some r) :
    (s.writeIoReg r v).peek b = s.peek b := by
  unfold State.peek
  cases zoneOf b <;> simp only <;> first | (cases r <;> rfl) | skip
  cases hb : ioRegOf b with
  | none => rfl
  | some q =>
    rw [hb] at h
    cases r <;> cases q <;> first | rfl | exact absurd rfl h

theorem State.peek_storeMem_other (s : State) (a b : Word) (v : Byte) (h : b ≠ a) : (s.storeMem a v).peek b = s.peek b := by
  have hn : b.toNat ≠ a.toNat := fun e => h (BitVec.eq_of_toNat_eq e)
  unfold State.peek
  cases zoneOf b <;> simp [State.storeMem, memRead_memWrite_other _ _ _ _ hn]
  cases ioRegOf b with
  | none => rfl
  | some r => cases r <;> rfl

theorem zoneOf_eq_cartRam (a : Word) : zoneOf a = .cartRam ↔ 0xA000 ≤ a.toNat ∧ a.toNat ≤ 0xBFFF := by
  simp only [zoneOf]
  have := a.isLt
  split_ifs <;> simp <;> omega

theorem zoneOf_eq_rom (a : Word) : zoneOf a = .rom ↔ a.toNat ≤ 0x7FFF := by
  simp only [zoneOf]
  have := a.isLt
  split_ifs <;> simp <;> omega

/-- The legal RAM sizes are multiples of 8 KiB, so two addresses of the window never share a byte. -/
theorem Mbc1.ramOffset_inj (m : Mbc1) (n a b : Nat) (hn : n ∈ [0, 0x2000, 0x8000, 0x10000, 0x20000]) (h0 : n ≠ 0)
    (h : m.ramOffset n a = m.ramOffset n b) : a % 0x2000 = b % 0x2000 := by
  have hd : 0x2000 ∣ n := by
    simp only [List.mem_cons, List.not_mem_nil, or_false] at hn
    rcases hn with rfl | rfl | rfl | rfl | rfl <;> decide
  unfold Mbc1.ramOffset at h
  simp only at h
  have key : ∀ x : Nat, ((x * 0x2000 + a % 0x2000) % n) % 0x2000 = a % 0x2000 ∧
      ((x * 0x2000 + b % 0x2000) % n) % 0x2000 = b % 0x2000 := by
    intro x
    rw [Nat.mod_mod_of_dvd _ hd, Nat.mod_mod_of_dvd _ hd]
    omega
  have := key (if m.mode = 1 then m.bank2.toNat else 0)
  rw [h] at this
  omega

theorem Cart.sizes_ram (k : Cart) (h : k.wf = true) : k.ramBytes ∈ [0, 0x2000, 0x8000, 0x10000, 0x20000] := by
  have := ((Cart.wf_iff k).1 h).2.2.2.2
  unfold Cart.sizesLegal at this
  simp only [Bool.and_eq_true, List.contains_iff_mem] at this
  exact this.2

theorem Cart.sizes_rom (k : Cart) (h : k.wf = true) :
    k.romBytes ∈ [0x8000, 0x10000, 0x20000, 0x40000, 0x80000, 0x100000, 0x200000, 0x400000, 0x800000] := by
  have := ((Cart.wf_iff k).1 h).2.2.2.2
  unfold Cart.sizesLegal at this
  simp only [Bool.and_eq_true, List.contains_iff_mem] at this
  exact this.1

theorem Cart.write_rom (k : Cart) (a : Word) (v : Byte) : (k.write a v).rom = k.rom ∧ (k.write a v).romBytes = k.romBytes ∧
    (k.write a v).ramBytes = k.ramBytes := by
  unfold Cart.write
  cases k.ctl with
  | romOnly => exact ⟨rfl, rfl, rfl⟩
  | mbc1 m => simp only; split_ifs <;> exact ⟨rfl, rfl, rfl⟩

theorem Cart.write_ram_of_rom (k : Cart) (a : Word) (v : Byte) (h : a.toNat ≤ 0x7FFF) : (k.write a v).ram = k.ram := by
  unfold Cart.write
  cases k.ctl with
  | romOnly => rfl
  | mbc1 m => simp only; rw [if_pos h]

/-- A store to the RAM window leaves every other address of the two windows reading as before. -/
theorem Cart.read_write_other (k : Cart) (a b : Word) (v : Byte) (hk : k.wf = true) (ha : zoneOf a = .cartRam)
    (hb : zoneOf b = .rom ∨ zoneOf b = .cartRam) (h : b ≠ a) : (k.write a v).read b = k.read b := by
  rw [zoneOf_eq_cartRam] at ha
  rw [zoneOf_eq_rom, zoneOf_eq_cartRam] at hb
  have hs := k.sizes_ram hk
  unfold Cart.write
  cases hc : k.ctl with
  | romOnly => rfl
  | mbc1 m =>
    simp only
    rw [if_neg (by omega)]
    split_ifs with he
    · rfl
    · rw [not_or] at he
      unfold Cart.read
      simp only [hc]
      split_ifs with h1 h2 h3
      · rfl
      · rfl
      · rfl
      · congr 1
        refine memRead_memWrite_other _ _ _ _ fun e => ?_
        have := m.ramOffset_inj k.ramBytes _ _ hs he.2 e
        exact h (BitVec.eq_of_toNat_eq (by omega))

theorem BytesKept.write {s u : State} {a : Word} {v : Byte} (hi : s.Inv) (h : s.write8 a v = .ok () u) :
    BytesKept s u [a] := by
  have hw := ((State.wf_iff s).1 hi).2.2
  have mem1 : ∀ b : Word, b ∉ [a] → b ≠ a := fun b hb e => hb (by simp [e])
  unfold State.write8 State.busWrite at h
  cases hz : zoneOf a <;> rw [hz] at h <;> simp only at h
  · injection h with _ h; subst h
    refine ⟨fun b hb hc => ?_, (s.cart.write_rom a v).1, fun _ => s.cart.write_ram_of_rom a v ((zoneOf_eq_rom a).1 hz)⟩
    by_cases hbz : zoneOf b = .rom ∨ zoneOf b = .cartRam
    · exact absurd hz (hc hbz a (by simp))
    · rw [not_or] at hbz
      unfold State.peek
      cases hzb : zoneOf b <;> simp only <;> first | exact absurd hzb hbz.1 | exact absurd hzb hbz.2 | rfl
  · injection h with _ h; subst h
    exact ⟨fun b hb _ => s.peek_storeMem_other a b v (mem1 b hb), rfl, fun _ => rfl⟩
  · injection h with _ h; subst h
    refine ⟨fun b hb hc => ?_, (s.cart.write_rom a v).1, fun hn => absurd hz (hn a (by simp))⟩
    unfold State.peek
    cases hzb : zoneOf b <;> simp only <;> first
      | rfl
      | (simp only [State.cartWrite]
         rw [Cart.read_write_other s.cart a b v hw hz (by simp [hzb]) (mem1 b hb)])
  · injection h with _ h; subst h
    exact ⟨fun b hb _ => s.peek_storeMem_other a b v (mem1 b hb), rfl, fun _ => rfl⟩
  · cases h
  · injection h with _ h; subst h
    exact ⟨fun b hb _ => s.peek_storeMem_other a b v (mem1 b hb), rfl, fun _ => rfl⟩
  · unfold State.ioWrite at h
    cases hr : ioRegOf a with
    | some r =>
      rw [hr] at h
      injection h with _ h; subst h
      refine ⟨fun b hb _ => s.peek_writeIoReg r v b fun e => mem1 b hb ?_, by cases r <;> rfl, fun _ => by cases r <;> rfl⟩
      rw [(ioRegOf_eq_some b r).1 e, (ioRegOf_eq_some a r).1 hr]
    | none =>
      rw [hr] at h
      unfold State.pIoWrite at h
      cases hs : s.ioScript with
      | nil => rw [hs] at h; injection h with _ h; subst h; exact .self _ _
      | cons x rest =>
        rw [hs] at h
        cases x with
        | answer w =>
          injection h with _ h; subst h
          exact ⟨fun b _ _ => State.peek_congr _ _ b rfl rfl rfl rfl rfl, rfl, fun _ => rfl⟩
        | refuse => cases h
  · injection h with _ h; subst h
    exact ⟨fun b hb _ => s.peek_storeMem_other a b v (mem1 b hb), rfl, fun _ => rfl⟩
  · injection h with _ h; subst h
    refine ⟨fun b hb _ => ?_, rfl, fun _ => rfl⟩
    unfold State.peek
    cases hzb : zoneOf b <;> simp only <;> first
      | rfl
      | exact absurd (((zoneOf_eq_ie b).1 hzb).trans ((zoneOf_eq_ie a).1 hz).symm) (mem1 b hb)

end Sys2Proof.Machine
end

