-- ==== Sys2Proof/Laws/Shapes.lean ====
section
/-! SUPPORT. What each shared shape of meaning (Machine/Operands.lean) answers, once; and the invariant through the shared
operations. -/

namespace Sys2Proof.Machine

/-! ## Answers from the state equation -/

/-- The frame of an answered instruction from its parts. -/
theorem Answers.mk {i : Instr} {s u t : State} {e : Effect} (h1 : exec i s = .next t)
    (h2 : ∀ r, r ∉ e.regs → t.getR8 r = s.getR8 r) (h3 : t.regs.f = e.f) (h4 : t.regs.sp = e.sp) (h5 : t.regs.pc = e.pc)
    (h6 : t.elapsed = some e.cycles) (h7 : OnlyRegs u t) (h8 : BytesKept s t e.stored) : Answers i s u t e :=
  ⟨h1, h2, h3, h4, h5, h6, h7, h8⟩

theorem OnlyRegs.of_eq {s t : State} (g : Regs) (m : Option Nat) (h : t = { s with regs := g, elapsed := m }) :
    OnlyRegs s t := by
  rw [h]; rfl

/-! ## Loads and stores -/

theorem loadTo_ok {s u : State} {dst : R8} {n : Word} {m : Nat} {addr : State → Word} {v : Byte}
    (h : s.read8 (addr (s.advance n)) = .ok v u) :
    loadTo dst n m addr s = .next (((u.setPc (s.regs.pc + n)).setR8 dst v).setElapsed m) := by
  simp only [loadTo, State.advance, State.read8_setPc] at h ⊢
  rw [h]; rfl

theorem loadTo_fatal {s u : State} {dst : R8} {n : Word} {m : Nat} {addr : State → Word}
    (h : s.read8 (addr (s.advance n)) = .fatal u) : loadTo dst n m addr s = .next (u.setPc (s.regs.pc + n)) := by
  simp only [loadTo, State.advance, State.read8_setPc] at h ⊢
  rw [h]; rfl

theorem storeAt_ok {s u : State} {n : Word} {m : Nat} {addr : State → Word} {val : State → Byte}
    (h : s.write8 (addr (s.advance n)) (val (s.advance n)) = .ok () u) :
    storeAt n m addr val s = .next ((u.setPc (s.regs.pc + n)).setElapsed m) := by
  simp only [storeAt, State.advance, State.write8_setPc] at h ⊢
  rw [h]; rfl

theorem storeAt_fatal {s u : State} {n : Word} {m : Nat} {addr : State → Word} {val : State → Byte}
    (h : s.write8 (addr (s.advance n)) (val (s.advance n)) = .fatal u) :
    storeAt n m addr val s = .next (u.setPc (s.regs.pc + n)) := by
  simp only [storeAt, State.advance, State.write8_setPc] at h ⊢
  rw [h]; rfl

theorem loadStep_ok {s u : State} {d : Word} {v : Byte} (h : s.read8 s.hl = .ok v u) :
    loadStep d s = .next ((((u.setPc (s.regs.pc + 1)).setR8 .a v).setRR .hl (s.hl + d)).setElapsed 2) := by
  have hr := State.read8_ok_regs h
  have hh : (s.setPc (s.regs.pc + 1)).hl = s.hl := rfl
  simp only [loadStep, State.advance, hh, State.read8_setPc]
  rw [h]
  simp only [Res.onState_ok, Res.bind_ok, Res.done_ok, State.hl, State.setR8, State.setPc, hr]
  rfl

theorem loadStep_fatal {s u : State} {d : Word} (h : s.read8 s.hl = .fatal u) :
    loadStep d s = .next (u.setPc (s.regs.pc + 1)) := by
  have hh : (s.setPc (s.regs.pc + 1)).hl = s.hl := rfl
  simp only [loadStep, State.advance, hh, State.read8_setPc]
  rw [h]; rfl

theorem storeStep_ok {s u : State} {d : Word} (h : s.write8 s.hl (s.getR8 .a) = .ok () u) :
    storeStep d s = .next (((u.setPc (s.regs.pc + 1)).setRR .hl (s.hl + d)).setElapsed 2) := by
  have hr := State.write8_ok_regs h
  have hh : (s.setPc (s.regs.pc + 1)).hl = s.hl := rfl
  have ha : (s.setPc (s.regs.pc + 1)).getR8 .a = s.getR8 .a := rfl
  simp only [storeStep, State.advance, hh, ha, State.write8_setPc]
  rw [h]
  simp only [Res.onState_ok, Res.bind_ok, Res.done_ok, State.hl, State.setPc, hr]
  rfl

theorem storeStep_fatal {s u : State} {d : Word} (h : s.write8 s.hl (s.getR8 .a) = .fatal u) :
    storeStep d s = .next (u.setPc (s.regs.pc + 1)) := by
  have hh : (s.setPc (s.regs.pc + 1)).hl = s.hl := rfl
  have ha : (s.setPc (s.regs.pc + 1)).getR8 .a = s.getR8 .a := rfl
  simp only [storeStep, State.advance, hh, ha, State.write8_setPc]
  rw [h]; rfl

/-! ## The ALU and the forms that write back -/

theorem aluHl_ok {s u : State} {op : Byte → Byte → Flags → Byte × Flags} {v : Byte} (h : s.read8 s.hl = .ok v u) :
    aluHl op s = .next (((u.setPc (s.regs.pc + 1)).alu op v).setElapsed 2) := by
  have hh : (s.setPc (s.regs.pc + 1)).hl = s.hl := rfl
  simp only [aluHl, State.advance, hh, State.read8_setPc]
  rw [h]; rfl

theorem aluHl_fatal {s u : State} {op : Byte → Byte → Flags → Byte × Flags} (h : s.read8 s.hl = .fatal u) :
    aluHl op s = .next (u.setPc (s.regs.pc + 1)) := by
  have hh : (s.setPc (s.regs.pc + 1)).hl = s.hl := rfl
  simp only [aluHl, State.advance, hh, State.read8_setPc]
  rw [h]; rfl

/-- The read-modify-write of `(HL)`, both accesses answered. -/
theorem modify_atHl_ok {s u w : State} {op : Byte → Flags → Byte × Flags} {n : Word} {v : Byte}
    (h : s.read8 s.hl = .ok v u) (h' : u.write8 s.hl (op v s.regs.f).1 = .ok () w) :
    (s.advance n).modify op .atHl = .ok () ((w.setPc (s.regs.pc + n)).setF (op v s.regs.f).2) := by
  have hr := State.read8_ok_regs h
  have hh : (s.setPc (s.regs.pc + n)).hl = s.hl := rfl
  have hu : (u.setPc (s.regs.pc + n)).hl = s.hl := by simp [State.hl, State.setPc, hr]; rfl
  have hf : (u.setPc (s.regs.pc + n)).regs.f = s.regs.f := by simp [State.setPc, hr]
  simp only [State.modify, State.readOpnd, State.writeOpnd, State.advance, hh, State.read8_setPc]
  rw [h]
  simp only [Res.onState_ok, Res.bind_ok, hu, hf, State.write8_setPc]
  rw [h']; rfl

theorem modify_atHl_fatal_read {s u : State} {op : Byte → Flags → Byte × Flags} {n : Word}
    (h : s.read8 s.hl = .fatal u) : (s.advance n).modify op .atHl = .fatal (u.setPc (s.regs.pc + n)) := by
  have hh : (s.setPc (s.regs.pc + n)).hl = s.hl := rfl
  simp only [State.modify, State.readOpnd, State.advance, hh, State.read8_setPc]
  rw [h]; rfl

theorem modify_atHl_fatal_write {s u w : State} {op : Byte → Flags → Byte × Flags} {n : Word} {v : Byte}
    (h : s.read8 s.hl = .ok v u) (h' : u.write8 s.hl (op v s.regs.f).1 = .fatal w) :
    (s.advance n).modify op .atHl = .fatal (w.setPc (s.regs.pc + n)) := by
  have hr := State.read8_ok_regs h
  have hh : (s.setPc (s.regs.pc + n)).hl = s.hl := rfl
  have hu : (u.setPc (s.regs.pc + n)).hl = s.hl := by simp [State.hl, State.setPc, hr]; rfl
  have hf : (u.setPc (s.regs.pc + n)).regs.f = s.regs.f := by simp [State.setPc, hr]
  simp only [State.modify, State.readOpnd, State.writeOpnd, State.advance, hh, State.read8_setPc]
  rw [h]
  simp only [Res.onState_ok, Res.bind_ok, hu, hf, State.write8_setPc]
  rw [h']; rfl

/-! ## The stack -/

theorem State.push16_setPc (s : State) (x v : Word) : (s.setPc x).push16 v = (s.push16 v).onState (fun t => t.setPc x) := by
  have e : (s.setPc x).setSp ((s.setPc x).regs.sp - 1) = (s.setSp (s.regs.sp - 1)).setPc x := rfl
  simp only [State.push16]
  rw [e, State.write8_setPc]
  have hsp : ((s.setSp (s.regs.sp - 1)).setPc x).regs.sp = (s.setSp (s.regs.sp - 1)).regs.sp := rfl
  rw [hsp]
  cases h : (s.setSp (s.regs.sp - 1)).write8 (s.setSp (s.regs.sp - 1)).regs.sp (hiByte v) with
  | fatal t => rfl
  | ok _ t =>
    simp only [Res.onState_ok, Res.bind_ok]
    have e2 : (t.setPc x).setSp ((t.setPc x).regs.sp - 1) = (t.setSp (t.regs.sp - 1)).setPc x := rfl
    rw [e2, State.write8_setPc]
    rfl

theorem push16_ok {s u w : State} {v : Word} (h : s.write8 (s.regs.sp - 1) (hiByte v) = .ok () u)
    (h' : u.write8 (s.regs.sp - 2) (loByte v) = .ok () w) : s.push16 v = .ok () (w.setSp (s.regs.sp - 2)) := by
  have hr := State.write8_ok_regs h
  have e : s.regs.sp - 1 - 1 = s.regs.sp - 2 := by
    rw [BitVec.sub_sub]; rfl
  simp only [State.push16, State.write8_setSp]
  have hsp : (s.setSp (s.regs.sp - 1)).regs.sp = s.regs.sp - 1 := rfl
  rw [hsp, h]
  simp only [Res.onState_ok, Res.bind_ok]
  have hsp2 : (u.setSp (s.regs.sp - 1)).regs.sp = s.regs.sp - 1 := rfl
  have hss : (u.setSp (s.regs.sp - 1)).setSp (s.regs.sp - 2) = u.setSp (s.regs.sp - 2) := rfl
  rw [hsp2, e, hss]
  have hsp3 : (u.setSp (s.regs.sp - 2)).regs.sp = s.regs.sp - 2 := rfl
  rw [hsp3, State.write8_setSp, h']
  rfl

theorem push16_fatal1 {s u : State} {v : Word} (h : s.write8 (s.regs.sp - 1) (hiByte v) = .fatal u) :
    s.push16 v = .fatal (u.setSp (s.regs.sp - 1)) := by
  simp only [State.push16, State.write8_setSp]
  have hsp : (s.setSp (s.regs.sp - 1)).regs.sp = s.regs.sp - 1 := rfl
  rw [hsp, h]
  rfl

theorem push16_fatal2 {s u w : State} {v : Word} (h : s.write8 (s.regs.sp - 1) (hiByte v) = .ok () u)
    (h' : u.write8 (s.regs.sp - 2) (loByte v) = .fatal w) : s.push16 v = .fatal (w.setSp (s.regs.sp - 2)) := by
  have e : s.regs.sp - 1 - 1 = s.regs.sp - 2 := by
    rw [BitVec.sub_sub]; rfl
  simp only [State.push16, State.write8_setSp]
  have hsp : (s.setSp (s.regs.sp - 1)).regs.sp = s.regs.sp - 1 := rfl
  rw [hsp, h]
  simp only [Res.onState_ok, Res.bind_ok]
  have hsp2 : (u.setSp (s.regs.sp - 1)).regs.sp = s.regs.sp - 1 := rfl
  have hss : (u.setSp (s.regs.sp - 1)).setSp (s.regs.sp - 2) = u.setSp (s.regs.sp - 2) := rfl
  rw [hsp2, e, hss]
  have hsp3 : (u.setSp (s.regs.sp - 2)).regs.sp = s.regs.sp - 2 := rfl
  rw [hsp3, State.write8_setSp, h']
  rfl

theorem State.pop16_setPc (s : State) (x : Word) : (s.setPc x).pop16 = s.pop16.onState (fun t => t.setPc x) := by
  simp only [State.pop16, State.read8_setPc]
  have hsp : (s.setPc x).regs.sp = s.regs.sp := rfl
  rw [hsp]
  cases h : s.read8 s.regs.sp with
  | fatal t => rfl
  | ok v t =>
    simp only [Res.onState_ok, Res.bind_ok]
    have e2 : (t.setPc x).setSp ((t.setPc x).regs.sp + 1) = (t.setSp (t.regs.sp + 1)).setPc x := rfl
    rw [e2, State.read8_setPc]
    have hsp2 : ((t.setSp (t.regs.sp + 1)).setPc x).regs.sp = (t.setSp (t.regs.sp + 1)).regs.sp := rfl
    rw [hsp2]
    cases (t.setSp (t.regs.sp + 1)).read8 (t.setSp (t.regs.sp + 1)).regs.sp <;> rfl

theorem pop16_ok {s u w : State} {lo hi : Byte} (h : s.read8 s.regs.sp = .ok lo u)
    (h' : u.read8 (s.regs.sp + 1) = .ok hi w) : s.pop16 = .ok (wordOf hi lo) (w.setSp (s.regs.sp + 2)) := by
  have hr := State.read8_ok_regs h
  have e : s.regs.sp + 1 + 1 = s.regs.sp + 2 := by
    rw [BitVec.add_assoc]; rfl
  simp only [State.pop16]
  rw [h]
  simp only [Res.bind_ok, hr]
  have hsp2 : (u.setSp (s.regs.sp + 1)).regs.sp = s.regs.sp + 1 := rfl
  rw [hsp2, State.read8_setSp, h']
  simp only [Res.onState_ok, Res.bind_ok]
  have hsp3 : (w.setSp (s.regs.sp + 1)).regs.sp = s.regs.sp + 1 := rfl
  rw [hsp3, e]
  rfl

theorem pop16_fatal1 {s u : State} (h : s.read8 s.regs.sp = .fatal u) : s.pop16 = .fatal u := by
  simp only [State.pop16]
  rw [h]; rfl

theorem pop16_fatal2 {s u w : State} {lo : Byte} (h : s.read8 s.regs.sp = .ok lo u)
    (h' : u.read8 (s.regs.sp + 1) = .fatal w) : s.pop16 = .fatal (w.setSp (s.regs.sp + 1)) := by
  have hr := State.read8_ok_regs h
  simp only [State.pop16]
  rw [h]
  simp only [Res.bind_ok, hr]
  have hsp2 : (u.setSp (s.regs.sp + 1)).regs.sp = s.regs.sp + 1 := rfl
  rw [hsp2, State.read8_setSp, h']
  rfl

end Sys2Proof.Machine
end

