-- ==== Sys2Proof/Laws/Exec.lean ====
section
/-! SUPPORT. What an instruction can do at all, over every constructor: a chain of register updates and bus accesses, ended by
a cost or by a fatal. Rules about every instruction are inductions on the chain. -/

namespace Sys2Proof.Machine

/-- `t` comes from `s` by register updates, bus accesses, a raised fatal and a returned cost. -/
inductive BusMoves (s : State) : State → Prop
  | refl : BusMoves s s
  | regs {t : State} (h : BusMoves s t) (g : Regs) : BusMoves s (t.withRegs g)
  | read {t : State} (h : BusMoves s t) (a : Word) (k : Access) : BusMoves s (t.busRead a k).state
  | write {t : State} (h : BusMoves s t) (a : Word) (v : Byte) : BusMoves s (t.busWrite a v).state
  | raise {t : State} (h : BusMoves s t) (f : FatalRecord) : BusMoves s (t.raise f)
  | elapsed {t : State} (h : BusMoves s t) (m : Nat) : BusMoves s (t.setElapsed m)

theorem BusMoves.trans {s t u : State} (h : BusMoves s t) (h' : BusMoves t u) : BusMoves s u := by
  induction h' with
  | refl => exact h
  | regs _ g ih => exact .regs ih g
  | read _ a k ih => exact .read ih a k
  | write _ a v ih => exact .write ih a v
  | raise _ f ih => exact .raise ih f
  | elapsed _ m ih => exact .elapsed ih m

/-! ## What a chain keeps -/

theorem BusMoves.inv {s t : State} (h : BusMoves s t) (hi : s.Inv) : t.Inv := by
  induction h with
  | refl => exact hi
  | @regs u _ g ih => exact u.inv_congr _ rfl rfl ih
  | @read u _ a k ih => exact u.inv_busRead a k ih
  | @write u _ a v ih => exact u.inv_busWrite a v ih
  | @raise u _ f ih => exact u.inv_congr _ rfl rfl ih
  | @elapsed u _ m ih => exact u.inv_congr _ rfl rfl ih

/-- The parameters of the block: no access writes them. -/
def SameParams (s t : State) : Prop :=
  t.cart.rom = s.cart.rom ∧ t.cart.romBytes = s.cart.romBytes ∧ t.cart.ramBytes = s.cart.ramBytes ∧
    (s.cart.ctl = .romOnly ↔ t.cart.ctl = .romOnly) ∧ t.log = s.log ∧ t.unimplemented = s.unimplemented

theorem SameParams.refl (s : State) : SameParams s s := ⟨rfl, rfl, rfl, Iff.rfl, rfl, rfl⟩

theorem SameParams.trans {s t u : State} (h : SameParams s t) (h' : SameParams t u) : SameParams s u :=
  ⟨h'.1.trans h.1, h'.2.1.trans h.2.1, h'.2.2.1.trans h.2.2.1, h.2.2.2.1.trans h'.2.2.2.1, h'.2.2.2.2.1.trans h.2.2.2.2.1,
    h'.2.2.2.2.2.trans h.2.2.2.2.2⟩

theorem SameParams.of_eq {s t : State} (h1 : t.cart = s.cart) (h2 : t.log = s.log) (h3 : t.unimplemented = s.unimplemented) :
    SameParams s t := by
  unfold SameParams
  rw [h1, h2, h3]
  exact ⟨rfl, rfl, rfl, Iff.rfl, rfl, rfl⟩

theorem Cart.write_ctl (k : Cart) (a : Word) (v : Byte) : k.ctl = .romOnly ↔ (k.write a v).ctl = .romOnly := by
  unfold Cart.write
  cases hk : k.ctl with
  | romOnly => simp [hk]
  | mbc1 m => simp only; split_ifs <;> simp [hk]

theorem SameParams.cartWrite (s : State) (a : Word) (v : Byte) : SameParams s (s.cartWrite a v) :=
  ⟨(s.cart.write_rom a v).1, (s.cart.write_rom a v).2.1, (s.cart.write_rom a v).2.2, s.cart.write_ctl a v, rfl, rfl⟩

theorem SameParams.busWrite (s : State) (a : Word) (v : Byte) : SameParams s (s.busWrite a v).state := by
  unfold State.busWrite
  cases zoneOf a <;> simp only <;> first
    | exact SameParams.cartWrite s a v
    | exact SameParams.of_eq rfl rfl rfl
    | skip
  unfold State.ioWrite State.pIoWrite
  cases ioRegOf a with
  | some r => cases r <;> exact SameParams.of_eq rfl rfl rfl
  | none => cases s.ioScript with
    | nil => exact .refl s
    | cons x rest => cases x <;> exact SameParams.of_eq rfl rfl rfl

theorem BusMoves.params {s t : State} (h : BusMoves s t) : SameParams s t := by
  induction h with
  | refl => exact .refl s
  | regs _ g ih => exact ih.trans (.of_eq rfl rfl rfl)
  | @read u _ a k ih => exact ih.trans (by rw [u.busRead_state a k]; exact .of_eq rfl rfl rfl)
  | @write u _ a v ih => exact ih.trans (.busWrite u a v)
  | raise _ f ih => exact ih.trans (.of_eq rfl rfl rfl)
  | elapsed _ m ih => exact ih.trans (.of_eq rfl rfl rfl)

/-- The fields no chain touches: the CPU's control bits, the agents' script and the end of the Tick. -/
theorem BusMoves.kept {s t : State} (h : BusMoves s t) :
    t.ime = s.ime ∧ t.imePending = s.imePending ∧ t.halted = s.halted ∧ t.agents = s.agents ∧
      t.tickEnded = s.tickEnded := by
  induction h with
  | refl => exact ⟨rfl, rfl, rfl, rfl, rfl⟩
  | regs _ g ih => exact ih
  | @read u _ a k ih => rw [u.busRead_state a k]; exact ih
  | @write u _ a v ih => rw [u.busWrite_state a v]; exact ih
  | raise _ f ih => exact ih
  | elapsed _ m ih => exact ih

theorem State.busWrite_div (s : State) (a : Word) (v : Byte) :
    (s.busWrite a v).state.timer.div = s.timer.div ∨ (s.busWrite a v).state.timer.div = 0 := by
  unfold State.busWrite
  cases zoneOf a <;> try exact .inl rfl
  simp only [State.ioWrite, State.pIoWrite]
  cases ioRegOf a with
  | some r => cases r <;> first | exact .inl rfl | exact .inr rfl
  | none => cases s.ioScript with
    | nil => exact .inl rfl
    | cons x rest => cases x <;> exact .inl rfl

/-- DIVCNT is left as it was, or cleared. -/
theorem BusMoves.div {s t : State} (h : BusMoves s t) : t.timer.div = s.timer.div ∨ t.timer.div = 0 := by
  induction h with
  | refl => exact .inl rfl
  | regs _ g ih => exact ih
  | @read u _ a k ih => rw [u.busRead_state a k]; exact ih
  | @write u _ a v ih =>
    rcases u.busWrite_div a v with h | h
    · rw [h]; exact ih
    · exact .inr h
  | raise _ f ih => exact ih
  | elapsed _ m ih => exact ih

/-! ## Results of operations -/

/-- An operation from `s`: a chain; where it is answered FATAL and the cost are as before, where it is refused a record is
set and no cost returned. -/
def Res.Sound {α : Type} (s : State) : Res α → Prop
  | .ok _ t => BusMoves s t ∧ t.fatal = s.fatal ∧ t.elapsed = s.elapsed
  | .fatal t => BusMoves s t ∧ (∃ f, t.fatal = some f) ∧ t.elapsed = none

theorem Res.Sound.bind {α β : Type} {s : State} {r : Res α} {k : α → State → Res β} (h : r.Sound s)
    (hk : ∀ v t, (k v t).Sound t) : (r.bind k).Sound s := by
  cases r with
  | fatal t => exact h
  | ok v t =>
    have := hk v t
    simp only [Res.bind_ok]
    cases hr : k v t with
    | fatal u => rw [hr] at this; exact ⟨h.1.trans this.1, this.2⟩
    | ok w u => rw [hr] at this; exact ⟨h.1.trans this.1, this.2.1.trans h.2.1, this.2.2.trans h.2.2⟩

/-- The registers may change before an operation. -/
theorem Res.Sound.withRegs {α : Type} {s : State} {r : Res α} (g : Regs) (h : r.Sound (s.withRegs g)) : r.Sound s := by
  cases r with
  | fatal t => exact ⟨(BusMoves.regs .refl g).trans h.1, h.2⟩
  | ok v t => exact ⟨(BusMoves.regs .refl g).trans h.1, h.2⟩

theorem Res.sound_regs {α : Type} (s : State) (v : α) (g : Regs) : (Res.ok v (s.withRegs g)).Sound s :=
  ⟨.regs .refl g, rfl, rfl⟩

theorem State.busRead_sound (s : State) (a : Word) (k : Access) : (s.busRead a k).Sound s := by
  have hm := BusMoves.read (.refl (s := s)) a k
  cases h : s.busRead a k with
  | ok v t => rw [h] at hm; exact ⟨hm, s.busRead_ok t a k v h⟩
  | fatal t =>
    rw [h] at hm
    refine ⟨hm, ?_⟩
    rcases s.busRead_cases a k with ⟨v, _, h'⟩ | ⟨_, h'⟩ | ⟨f, h'⟩
    · rw [h'] at h; cases h
    · rw [h'] at h
      rcases s.pIoRead_cases a with ⟨v, rest, _, h'⟩ | ⟨rest, _, h'⟩ | ⟨_, h'⟩ <;> rw [h'] at h <;> cases h
      exact ⟨⟨_, rfl⟩, rfl⟩
    · rw [h'] at h; cases h; exact ⟨⟨_, rfl⟩, rfl⟩

theorem State.busWrite_sound (s : State) (a : Word) (v : Byte) : (s.busWrite a v).Sound s := by
  have hm := BusMoves.write (.refl (s := s)) a v
  cases h : s.busWrite a v with
  | ok u t => rw [h] at hm; exact ⟨hm, s.busWrite_ok t a v h⟩
  | fatal t =>
    rw [h] at hm
    refine ⟨hm, ?_⟩
    unfold State.busWrite at h
    cases hz : zoneOf a <;> rw [hz] at h <;> simp only at h <;> first
      | (cases h; done)
      | (cases h; exact ⟨⟨_, rfl⟩, rfl⟩)
      | skip
    unfold State.ioWrite at h
    cases hr : ioRegOf a with
    | some r => rw [hr] at h; cases h
    | none =>
      rw [hr] at h
      unfold State.pIoWrite at h
      cases hs : s.ioScript with
      | nil => rw [hs] at h; cases h
      | cons x rest =>
        rw [hs] at h
        cases x <;> cases h
        exact ⟨⟨_, rfl⟩, rfl⟩

theorem State.readOpnd_sound (s : State) (o : Opnd8) : (s.readOpnd o).Sound s := by
  cases o with
  | reg r => exact ⟨.refl, rfl, rfl⟩
  | atHl => exact s.busRead_sound _ _

theorem State.writeOpnd_sound (s : State) (o : Opnd8) (v : Byte) : (s.writeOpnd o v).Sound s := by
  cases o with
  | reg r => exact Res.sound_regs s () _
  | atHl => exact s.busWrite_sound _ _

theorem State.modify_sound (s : State) (op : Byte → Flags → Byte × Flags) (o : Opnd8) : (s.modify op o).Sound s :=
  (s.readOpnd_sound o).bind fun _ t => (t.writeOpnd_sound o _).bind fun _ u => Res.sound_regs u () _

theorem State.push16_sound (s : State) (v : Word) : (s.push16 v).Sound s :=
  Res.Sound.withRegs { s.regs with sp := s.regs.sp - 1 }
    (((s.setSp (s.regs.sp - 1)).busWrite_sound _ _).bind fun _ t =>
      Res.Sound.withRegs { t.regs with sp := t.regs.sp - 1 } ((t.setSp (t.regs.sp - 1)).busWrite_sound _ _))

theorem State.pop16_sound (s : State) : s.pop16.Sound s :=
  (s.busRead_sound _ _).bind fun _ t =>
    Res.Sound.withRegs { t.regs with sp := t.regs.sp + 1 }
      (((t.setSp (t.regs.sp + 1)).busRead_sound _ _).bind fun _ u => Res.sound_regs u _ _)

theorem State.write16_sound (s : State) (a v : Word) : (s.write16 a v).Sound s :=
  (s.busWrite_sound _ _).bind fun _ t => t.busWrite_sound _ _

theorem State.callTo_sound (s : State) (v : Word) : (s.callTo v).Sound s :=
  (s.push16_sound _).bind fun _ t => Res.sound_regs t () _

theorem State.popPc_sound (s : State) : s.popPc.Sound s := s.pop16_sound.bind fun _ t => Res.sound_regs t () _

/-! ## Every instruction -/

/-- What an answered instruction of `m` M-cycles at most 6 leaves: a chain, but for the control bits `ime`, `imePending` and
`halted`; either FATAL is as before and a cost is returned, or a record is set and none is. -/
def Outcome (s t : State) : Prop :=
  BusMoves s { t with ime := s.ime, imePending := s.imePending, halted := s.halted } ∧
    ((t.fatal = s.fatal ∧ ∃ m, t.elapsed = some m ∧ 1 ≤ m ∧ m ≤ 6) ∨ ((∃ f, t.fatal = some f) ∧ t.elapsed = none))

theorem BusMoves.ctl {s t : State} (h : BusMoves s t) :
    { t with ime := s.ime, imePending := s.imePending, halted := s.halted } = t := by
  obtain ⟨h1, h2, h3, _⟩ := h.kept
  rw [← h1, ← h2, ← h3]

theorem Res.Sound.outcome {α : Type} {s : State} {r : Res α} {m : Nat} (h : r.Sound s) (h1 : 1 ≤ m) (h6 : m ≤ 6) :
    Outcome s (r.settle m) := by
  cases r with
  | ok v t =>
    have hm : BusMoves s (t.setElapsed m) := .elapsed h.1 m
    exact ⟨by rw [Res.settle_ok, hm.ctl]; exact hm, .inl ⟨h.2.1, m, rfl, h1, h6⟩⟩
  | fatal t => exact ⟨by rw [Res.settle_fatal, h.1.ctl]; exact h.1, .inr h.2⟩

/-- The same as a fact about the answer of a meaning. -/
def Answered (s : State) (r : Result) : Prop := ∃ t, r = .next t ∧ Outcome s t

theorem Answered.done {α : Type} {s : State} {r : Res α} {m : Nat} (h : r.Sound s) (h1 : 1 ≤ m := by decide)
    (h6 : m ≤ 6 := by decide) : Answered s (r.done m) := ⟨_, rfl, h.outcome h1 h6⟩

theorem Answered.regs (s : State) (g : Regs) (m : Nat) (h1 : 1 ≤ m := by decide) (h6 : m ≤ 6 := by decide) :
    Answered s ((s.withRegs g).done m) :=
  ⟨_, rfl, (Res.sound_regs s () g).outcome h1 h6⟩

theorem opndCost_le (o : Opnd8) (m k : Nat) (hm : 1 ≤ m ∧ m ≤ 6) (hk : 1 ≤ k ∧ k ≤ 6) :
    1 ≤ opndCost o m k ∧ opndCost o m k ≤ 6 := by
  cases o
  · exact hm
  · exact hk

theorem aluReg_answered (op : Byte → Byte → Flags → Byte × Flags) (src : R8) (s : State) : Answered s (aluReg op src s) :=
  Answered.regs s _ 1

theorem aluImm_answered (op : Byte → Byte → Flags → Byte × Flags) (n : Byte) (s : State) : Answered s (aluImm op n s) :=
  Answered.regs s _ 2

theorem aluHl_answered (op : Byte → Byte → Flags → Byte × Flags) (s : State) : Answered s (aluHl op s) :=
  .done (Res.Sound.withRegs { s.regs with pc := s.regs.pc + 1 }
    (((s.advance 1).busRead_sound _ _).bind fun _ t => Res.sound_regs t () _))

theorem loadTo_answered (dst : R8) (n : Word) (m : Nat) (addr : State → Word) (s : State) (h1 : 1 ≤ m) (h6 : m ≤ 6) :
    Answered s (loadTo dst n m addr s) :=
  .done (Res.Sound.withRegs { s.regs with pc := s.regs.pc + n }
    (((s.advance n).busRead_sound _ _).bind fun _ t => Res.sound_regs t () _)) h1 h6

theorem storeAt_answered (n : Word) (m : Nat) (addr : State → Word) (val : State → Byte) (s : State) (h1 : 1 ≤ m)
    (h6 : m ≤ 6) : Answered s (storeAt n m addr val s) :=
  .done (Res.Sound.withRegs { s.regs with pc := s.regs.pc + n } ((s.advance n).busWrite_sound _ _)) h1 h6

theorem loadStep_answered (d : Word) (s : State) : Answered s (loadStep d s) :=
  .done (Res.Sound.withRegs { s.regs with pc := s.regs.pc + 1 }
    (((s.advance 1).busRead_sound _ _).bind fun _ t => Res.sound_regs t () _))

theorem storeStep_answered (d : Word) (s : State) : Answered s (storeStep d s) :=
  .done (Res.Sound.withRegs { s.regs with pc := s.regs.pc + 1 }
    (((s.advance 1).busWrite_sound _ _).bind fun _ t => Res.sound_regs t () _))

theorem cbModify_answered (op : Byte → Flags → Byte × Flags) (o : Opnd8) (s : State) : Answered s (cbModify op o s) := by
  obtain ⟨h1, h6⟩ := opndCost_le o 2 4 (by decide) (by decide)
  exact .done (Res.Sound.withRegs { s.regs with pc := s.regs.pc + 2 } ((s.advance 2).modify_sound _ _)) h1 h6

theorem modify_answered (op : Byte → Flags → Byte × Flags) (o : Opnd8) (s : State) (m : Nat) (h1 : 1 ≤ m) (h6 : m ≤ 6) :
    Answered s (((s.advance 1).modify op o).done m) :=
  .done (Res.Sound.withRegs { s.regs with pc := s.regs.pc + 1 } ((s.advance 1).modify_sound _ _)) h1 h6

theorem execBitB_answered (b : BitVec 3) (o : Opnd8) (s : State) : Answered s (execBitB b o s) := by
  obtain ⟨h1, h6⟩ := opndCost_le o 2 3 (by decide) (by decide)
  exact .done (Res.Sound.withRegs { s.regs with pc := s.regs.pc + 2 }
    (((s.advance 2).readOpnd_sound _).bind fun _ t => Res.sound_regs t () _)) h1 h6

theorem callTo_answered (n v : Word) (s : State) (m : Nat) (h1 : 1 ≤ m) (h6 : m ≤ 6) :
    Answered s (((s.advance n).callTo v).done m) :=
  .done (Res.Sound.withRegs { s.regs with pc := s.regs.pc + n } ((s.advance n).callTo_sound _)) h1 h6

theorem popPc_answered (s : State) (m : Nat) (h1 : 1 ≤ m) (h6 : m ≤ 6) : Answered s (((s.advance 1).popPc).done m) :=
  .done (Res.Sound.withRegs { s.regs with pc := s.regs.pc + 1 } (s.advance 1).popPc_sound) h1 h6

theorem Answered.ite {s : State} {c : Prop} [Decidable c] {r q : Result} (h : Answered s r) (h' : Answered s q) :
    Answered s (if c then r else q) := by
  split_ifs
  · exact h
  · exact h'

theorem Answered.raise (s : State) (g : Regs) (f : FatalRecord) : Answered s (.next ((s.withRegs g).raise f)) := by
  have hm : BusMoves s ((s.withRegs g).raise f) := .raise (.regs .refl g) f
  exact ⟨_, rfl, by rw [hm.ctl]; exact hm, .inr ⟨⟨f, rfl⟩, rfl⟩⟩

/-- Setting the control bits and returning a cost. -/
theorem Answered.ctl (s : State) (g : Regs) (i p h : Bool) (m : Nat) (h1 : 1 ≤ m) (h6 : m ≤ 6) :
    Answered s (State.done { s.withRegs g with ime := i, imePending := p, halted := h } m) := by
  refine ⟨_, rfl, ?_, .inl ⟨rfl, m, rfl, h1, h6⟩⟩
  exact .elapsed (.regs .refl g) m

theorem execHalt_answered (s : State) : Answered s (execHalt s) := by
  unfold execHalt
  simp only
  exact (Answered.raise s { s.regs with pc := s.regs.pc + 1 } _).ite
    (Answered.ctl s { s.regs with pc := s.regs.pc + 1 } s.ime s.imePending true 1 (by decide) (by decide))

theorem execReti_answered (s : State) : Answered s (execReti s) := by
  have hs : ((s.advance 1).popPc).Sound s :=
    Res.Sound.withRegs { s.regs with pc := s.regs.pc + 1 } (s.advance 1).popPc_sound
  unfold execReti State.returnFromInterrupt
  cases h : (s.advance 1).popPc with
  | fatal t =>
    rw [h] at hs
    exact ⟨t, rfl, by rw [hs.1.ctl]; exact hs.1, .inr hs.2⟩
  | ok v t =>
    rw [h] at hs
    refine ⟨_, rfl, ?_, .inl ⟨hs.2.1, 4, rfl, by decide, by decide⟩⟩
    have := BusMoves.elapsed hs.1 4
    rw [← this.ctl] at this
    exact this

/-- Every instruction answers a next state: a chain of register updates and bus accesses, but for the control bits, ended by a
cost of 1 to 6 M-cycles or by a fatal. -/
theorem exec_answered (i : Instr) (s : State) : Answered s (exec i s) := by
  cases i
  case ldRR => exact Answered.regs s _ 1
  case ldRHl dst => exact loadTo_answered dst 1 2 State.hl s (by decide) (by decide)
  case ldHlR src => exact storeAt_answered 1 2 State.hl (fun t => t.getR8 src) s (by decide) (by decide)
  case ldRN => exact Answered.regs s _ 2
  case ldHlN n => exact storeAt_answered 2 3 State.hl (fun _ => n) s (by decide) (by decide)
  case ldABc => exact loadTo_answered .a 1 2 (fun t => t.getRR .bc) s (by decide) (by decide)
  case ldADe => exact loadTo_answered .a 1 2 (fun t => t.getRR .de) s (by decide) (by decide)
  case ldBcA => exact storeAt_answered 1 2 (fun t => t.getRR .bc) (fun t => t.getR8 .a) s (by decide) (by decide)
  case ldDeA => exact storeAt_answered 1 2 (fun t => t.getRR .de) (fun t => t.getR8 .a) s (by decide) (by decide)
  case ldAHli => exact loadStep_answered _ s
  case ldAHld => exact loadStep_answered _ s
  case ldHliA => exact storeStep_answered _ s
  case ldHldA => exact storeStep_answered _ s
  case ldANn nn => exact loadTo_answered .a 3 4 (fun _ => nn) s (by decide) (by decide)
  case ldNnA nn => exact storeAt_answered 3 4 (fun _ => nn) (fun t => t.getR8 .a) s (by decide) (by decide)
  case ldhAN n => exact loadTo_answered .a 2 3 (fun _ => topPage n) s (by decide) (by decide)
  case ldhNA n => exact storeAt_answered 2 3 (fun _ => topPage n) (fun t => t.getR8 .a) s (by decide) (by decide)
  case ldhAC => exact loadTo_answered .a 1 2 (fun t => topPage (t.getR8 .c)) s (by decide) (by decide)
  case ldhCA => exact storeAt_answered 1 2 (fun t => topPage (t.getR8 .c)) (fun t => t.getR8 .a) s (by decide) (by decide)
  case ldRrNn => exact Answered.regs s _ 3
  case ldNnSp nn =>
    exact .done (Res.Sound.withRegs { s.regs with pc := s.regs.pc + 3 } ((s.advance 3).write16_sound nn s.regs.sp))
  case ldSpHl => exact Answered.regs s _ 2
  case push =>
    exact .done (Res.Sound.withRegs { s.regs with pc := s.regs.pc + 1 } ((s.advance 1).push16_sound _))
  case pop =>
    exact .done (Res.Sound.withRegs { s.regs with pc := s.regs.pc + 1 }
      ((s.advance 1).pop16_sound.bind fun _ t => Res.sound_regs t () _))
  case ldHlSpE => exact Answered.regs s _ 3
  case incR => exact modify_answered _ _ s _ (by decide) (by decide)
  case incHl => exact modify_answered _ _ s _ (by decide) (by decide)
  case decR => exact modify_answered _ _ s _ (by decide) (by decide)
  case decHl => exact modify_answered _ _ s _ (by decide) (by decide)
  case daa => exact Answered.regs s _ 1
  case cpl => exact Answered.regs s _ 1
  case scf => exact Answered.regs s _ 1
  case ccf => exact Answered.regs s _ 1
  case addHlRr => exact Answered.regs s _ 2
  case incRr => exact Answered.regs s _ 2
  case decRr => exact Answered.regs s _ 2
  case addSpE => exact Answered.regs s _ 4
  case rlca => exact Answered.regs s _ 1
  case rrca => exact Answered.regs s _ 1
  case rla => exact Answered.regs s _ 1
  case rra => exact Answered.regs s _ 1
  case jpNn => exact Answered.regs s _ 4
  case jpCcNn cc nn =>
    show Answered s (if condHolds cc (s.advance 3).regs.f then _ else _)
    exact .ite (Answered.regs s { s.regs with pc := nn } 4) (Answered.regs s { s.regs with pc := s.regs.pc + 3 } 3)
  case jpHl => exact Answered.regs s _ 1
  case jrE => exact Answered.regs s _ 3
  case jrCcE cc e =>
    show Answered s (if condHolds cc (s.advance 2).regs.f then _ else _)
    exact .ite (Answered.regs s { s.regs with pc := s.regs.pc + 2 + sext16 e } 3)
      (Answered.regs s { s.regs with pc := s.regs.pc + 2 } 2)
  case callNn => exact callTo_answered _ _ s _ (by decide) (by decide)
  case callCcNn cc nn =>
    show Answered s (if condHolds cc (s.advance 3).regs.f then _ else _)
    exact .ite (callTo_answered 3 nn s 6 (by decide) (by decide))
      (Answered.regs s { s.regs with pc := s.regs.pc + 3 } 3)
  case ret => exact popPc_answered s _ (by decide) (by decide)
  case retCc cc =>
    show Answered s (if condHolds cc (s.advance 1).regs.f then _ else _)
    exact .ite (popPc_answered s 5 (by decide) (by decide))
      (Answered.regs s { s.regs with pc := s.regs.pc + 1 } 2)
  case reti => exact execReti_answered s
  case rst => exact callTo_answered _ _ s _ (by decide) (by decide)
  case nop => exact Answered.regs s _ 1
  case halt => exact execHalt_answered s
  case stop => exact Answered.raise s { s.regs with pc := s.regs.pc + 2 } _
  case di => exact Answered.ctl s { s.regs with pc := s.regs.pc + 1 } false false s.halted 1 (by decide) (by decide)
  case ei => exact Answered.ctl s { s.regs with pc := s.regs.pc + 1 } s.ime true s.halted 1 (by decide) (by decide)
  case prefixCb c =>
    show Answered s (execPrefixCb c s)
    unfold execPrefixCb
    simp only
    split_ifs
    · exact execBitB_answered _ _ s
    all_goals exact cbModify_answered _ _ s
  case bitB => exact execBitB_answered _ _ s
  case illegal => exact Answered.raise s s.regs _
  case addR src => exact aluReg_answered aluAdd src s
  case addHl => exact aluHl_answered aluAdd s
  case addN n => exact aluImm_answered aluAdd n s
  case adcR src => exact aluReg_answered aluAdc src s
  case adcHl => exact aluHl_answered aluAdc s
  case adcN n => exact aluImm_answered aluAdc n s
  case subR src => exact aluReg_answered aluSub src s
  case subHl => exact aluHl_answered aluSub s
  case subN n => exact aluImm_answered aluSub n s
  case sbcR src => exact aluReg_answered aluSbc src s
  case sbcHl => exact aluHl_answered aluSbc s
  case sbcN n => exact aluImm_answered aluSbc n s
  case andR src => exact aluReg_answered aluAnd src s
  case andHl => exact aluHl_answered aluAnd s
  case andN n => exact aluImm_answered aluAnd n s
  case xorR src => exact aluReg_answered aluXor src s
  case xorHl => exact aluHl_answered aluXor s
  case xorN n => exact aluImm_answered aluXor n s
  case orR src => exact aluReg_answered aluOr src s
  case orHl => exact aluHl_answered aluOr s
  case orN n => exact aluImm_answered aluOr n s
  case cpR src => exact aluReg_answered aluCp src s
  case cpHl => exact aluHl_answered aluCp s
  case cpN n => exact aluImm_answered aluCp n s
  case rlc o => exact cbModify_answered rlc8 o s
  case rrc o => exact cbModify_answered rrc8 o s
  case rl o => exact cbModify_answered rl8 o s
  case rr o => exact cbModify_answered rr8 o s
  case sla o => exact cbModify_answered sla8 o s
  case sra o => exact cbModify_answered sra8 o s
  case swap o => exact cbModify_answered swap8 o s
  case srl o => exact cbModify_answered srl8 o s
  case resB b o => exact cbModify_answered (fun v f => (res8 b v, f)) o s
  case setB b o => exact cbModify_answered (fun v f => (set8 b v, f)) o s

end Sys2Proof.Machine
end

