-- ==== Sys2Proof/Laws/Forms.lean ====
section
/-! SUPPORT. The forms of Safety.lean met by every meaning of their shape: what the obligations cite once per instruction. -/

namespace Sys2Proof.Machine

theorem loadForm_of {i : Instr} {s : State} {a : Word} {dst : R8} {n : Word} {m : Nat} {addr : State → Word}
    (h : exec i s = loadTo dst n m addr s) (ha : addr (s.advance n) = a) : LoadForm i s a dst n m := by
  subst ha
  refine ⟨fun hr => ?_, fun u hu => h.trans (loadTo_fatal hu)⟩
  obtain ⟨v, u, hu⟩ := s.read8_of_readable _ hr
  have hreg := State.read8_ok_regs hu
  refine ⟨v, u, _, hu, Answers.mk (h.trans (loadTo_ok hu)) ?_ ?_ ?_ ?_ rfl rfl (BytesKept.onlyRegs (.read hu) rfl), ?_⟩
  · intro r hr
    have : u.getR8 r = s.getR8 r := by simp [State.getR8, hreg]
    rw [← this]
    cases r <;> cases dst <;> first | rfl | simp at hr
  all_goals cases dst <;> first | rfl | (simp only [State.retires, ← hreg]; rfl)

theorem topPage_eq (n : Byte) : topPage n = BitVec.ofNat 16 (0xFF00 + n.toNat) := by
  unfold topPage zext16
  apply BitVec.eq_of_toNat_eq
  simp

theorem loadStepForm_of {i : Instr} {s : State} {d : Word} (h : exec i s = loadStep d s) : LoadStepForm i s d := by
  refine ⟨fun hr => ?_, fun u hu => h.trans (loadStep_fatal hu)⟩
  obtain ⟨v, u, hu⟩ := s.read8_of_readable _ hr
  have hreg := State.read8_ok_regs hu
  refine ⟨v, u, _, hu, Answers.mk (h.trans (loadStep_ok hu)) ?_ ?_ ?_ ?_ rfl rfl (BytesKept.onlyRegs (.read hu) rfl), ?_, ?_⟩
  · intro r hr
    have : u.getR8 r = s.getR8 r := by simp [State.getR8, hreg]
    rw [← this]
    cases r <;> first | rfl | simp at hr
  · simp only [State.retires, ← hreg]; rfl
  · simp only [State.retires, ← hreg]; rfl
  · rfl
  · rfl
  · exact State.setRR_getRR_same ((u.setPc (s.regs.pc + 1)).setR8 .a v) .hl (s.hl + d)

theorem storeForm_of {i : Instr} {s : State} {a : Word} {v : Byte} {n : Word} {m : Nat} {addr : State → Word} {val : State → Byte}
    (hi : s.Inv) (h : exec i s = storeAt n m addr val s) (ha : addr (s.advance n) = a) (hv : val (s.advance n) = v) :
    StoreForm i s a v n m := by
  subst ha hv
  refine ⟨fun hr => ?_, fun u hu => h.trans (storeAt_fatal hu)⟩
  obtain ⟨u, hu⟩ := s.write8_of_writable _ (val (s.advance n)) hr
  have hreg := State.write8_ok_regs hu
  refine ⟨u, _, hu, Answers.mk (h.trans (storeAt_ok hu)) ?_ ?_ ?_ ?_ rfl rfl (BytesKept.onlyRegs (.write hi hu) rfl)⟩
  · intro r hr
    have : u.getR8 r = s.getR8 r := by simp [State.getR8, hreg]
    rw [← this]; rfl
  all_goals first | rfl | (simp only [State.retires, ← hreg]; rfl)

theorem storeStepForm_of {i : Instr} {s : State} {d : Word} (hi : s.Inv) (h : exec i s = storeStep d s) : StoreStepForm i s d := by
  refine ⟨fun hr => ?_, fun u hu => h.trans (storeStep_fatal hu)⟩
  obtain ⟨u, hu⟩ := s.write8_of_writable _ (s.getR8 .a) hr
  have hreg := State.write8_ok_regs hu
  refine ⟨u, _, hu, Answers.mk (h.trans (storeStep_ok hu)) ?_ ?_ ?_ ?_ rfl rfl (BytesKept.onlyRegs (.write hi hu) rfl), ?_⟩
  · intro r hr
    have : u.getR8 r = s.getR8 r := by simp [State.getR8, hreg]
    rw [← this]
    cases r <;> first | rfl | simp at hr
  · simp only [State.retires, ← hreg]; rfl
  · simp only [State.retires, ← hreg]; rfl
  · rfl
  · exact State.setRR_getRR_same (u.setPc (s.regs.pc + 1)) .hl (s.hl + d)

theorem writes2 {s : State} {a b : Word} {v w : Byte} (hi : s.Inv) (h : Writable2 s a v b) :
    ∃ u1 u2, s.write8 a v = .ok () u1 ∧ u1.write8 b w = .ok () u2 ∧ BytesKept s u2 [a, b] := by
  obtain ⟨u1, h1⟩ := s.write8_of_writable a v h.1
  obtain ⟨u2, h2⟩ := u1.write8_of_writable b w (h.2 u1 h1)
  have hi1 : u1.Inv := by
    have := s.inv_busWrite a v hi
    unfold State.write8 at h1
    rwa [h1] at this
  exact ⟨u1, u2, h1, h2, (BytesKept.write hi h1).trans (.write hi1 h2)⟩

theorem reads2 {s : State} {a b : Word} (h : Readable2 s a b) :
    ∃ v w u1 u2, s.read8 a = .ok v u1 ∧ u1.read8 b = .ok w u2 ∧ BytesKept s u2 [] := by
  obtain ⟨v, u1, h1⟩ := s.read8_of_readable a h.1
  obtain ⟨w, u2, h2⟩ := u1.read8_of_readable b (h.2 v u1 h1)
  exact ⟨v, w, u1, u2, h1, h2, (BytesKept.read h1).trans (.read h2)⟩

theorem pushForm_of {i : Instr} {s : State} {v pc n : Word} {m : Nat} {k : Unit → State → Res Unit}
    (h : exec i s = ((((s.advance n).push16 v)).bind k).done m)
    (hk : ∀ t, (t.regs.pc = s.regs.pc + n) → k () t = .ok () (t.setPc pc)) : PushForm i s v pc n m := by
  refine ⟨fun hi hw => ?_, fun u hu => ?_, fun u w hu hw => ?_⟩
  · obtain ⟨u1, u2, h1, h2, hb⟩ := writes2 (w := loByte v) hi hw
    have hr : u2.regs = s.regs := (State.write8_ok_regs h2).trans (State.write8_ok_regs h1)
    refine ⟨u1, u2, ((u2.setSp (s.regs.sp - 2)).setPc pc).setElapsed m, h1, h2,
      Answers.mk ?_ ?_ ?_ rfl rfl rfl rfl (hb.onlyRegs rfl)⟩
    · rw [h, State.advance, State.push16_setPc, push16_ok h1 h2]
      simp only [Res.onState_ok, Res.bind_ok]
      rw [hk _ rfl]; rfl
    · intro r _
      simp [State.getR8, State.setPc, State.setSp, State.setElapsed, hr]
      cases r <;> rfl
    · simp only [State.retires, ← hr]; rfl
  · rw [h, State.advance, State.push16_setPc, push16_fatal1 hu]; rfl
  · rw [h, State.advance, State.push16_setPc, push16_fatal2 hu hw]; rfl

theorem popForm_of {i : Instr} {s : State} {n : Word} {m : Nat} {k : Word → State → Res Unit} {P : Word → State → Prop}
    (h : exec i s = ((((s.advance n).pop16)).bind k).done m)
    (hk : ∀ v u, u.regs = s.regs → BytesKept s u [] →
      (exec i s = ((k v ((u.setSp (s.regs.sp + 2)).setPc (s.regs.pc + n)))).done m → P v u)) : PopForm i s n P := by
  refine ⟨fun hw => ?_, fun u hu => ?_, fun lo u w hu hw => ?_⟩
  · obtain ⟨lo, hi, u1, u2, h1, h2, hb⟩ := reads2 hw
    have hr : u2.regs = s.regs := (State.read8_ok_regs h2).trans (State.read8_ok_regs h1)
    refine ⟨lo, hi, u1, u2, h1, h2, hk _ _ hr hb ?_⟩
    rw [h, State.advance, State.pop16_setPc, pop16_ok h1 h2]; rfl
  · rw [h, State.advance, State.pop16_setPc, pop16_fatal1 hu]; rfl
  · rw [h, State.advance, State.pop16_setPc, pop16_fatal2 hu hw]; rfl

theorem aluForms_of {ooo : BitVec 3} {onReg : R8 → Instr} {onHl : Instr} {onImm : Byte → Instr}
    {op res : Byte → Byte → Flags → Byte × Flags}
    (h1 : ∀ src, Spells [(0b10#2 ++ ooo ++ src.field : BitVec 8)] (onReg src))
    (h2 : Spells [(0b10#2 ++ ooo ++ 0b110#3 : BitVec 8)] onHl)
    (h3 : ∀ n, Spells [(0b11#2 ++ ooo ++ 0b110#3 : BitVec 8), n] (onImm n))
    (e1 : ∀ src s, exec (onReg src) s = aluReg op src s) (e2 : ∀ s, exec onHl s = aluHl op s)
    (e3 : ∀ n s, exec (onImm n) s = aluImm op n s) (hop : ∀ a x f, op a x f = res a x f) :
    AluForms ooo onReg onHl onImm res := by
  have hop : op = res := by funext a x f; exact hop a x f
  subst hop
  refine ⟨h1, h2, h3, ?_, ?_, ?_⟩
  · intro s src
    refine ⟨_, Answers.mk (e1 src s) ?_ ?_ rfl rfl rfl rfl (BytesKept.onlyRegs (.self _ _) rfl), ?_⟩
    · intro r hr; cases r <;> first | rfl | simp at hr
    · cases src <;> rfl
    · cases src <;> rfl
  · intro s
    refine ⟨fun hr => ?_, fun u hu => (e2 s).trans (aluHl_fatal hu)⟩
    obtain ⟨v, u, hu⟩ := s.read8_of_readable _ hr
    have hreg := State.read8_ok_regs hu
    refine ⟨v, u, _, hu, Answers.mk ((e2 s).trans (aluHl_ok hu)) ?_ ?_ ?_ ?_ rfl rfl (BytesKept.onlyRegs (.read hu) rfl), ?_⟩
    · intro r hr
      have : u.getR8 r = s.getR8 r := by simp [State.getR8, hreg]
      rw [← this]
      cases r <;> first | rfl | simp at hr
    · simp only [← hreg]; rfl
    · simp only [State.retires, ← hreg]; rfl
    · simp only [State.retires, ← hreg]; rfl
    · simp only [← hreg]; rfl
  · intro s n
    refine ⟨_, Answers.mk (e3 n s) ?_ rfl rfl rfl rfl rfl (BytesKept.onlyRegs (.self _ _) rfl), rfl⟩
    intro r hr; cases r <;> first | rfl | simp at hr

theorem modifyReg_of {i : Instr} {s : State} {r : R8} {op res : Byte → Flags → Byte × Flags} {n : Word} {m : Nat}
    (h : exec i s = ((s.advance n).modify op (.reg r)).done m) (hop : ∀ v f, op v f = res v f) : ModifyReg i s r res n m := by
  have hop : op = res := by funext v f; exact hop v f
  subst hop
  refine ⟨_, Answers.mk h ?_ ?_ ?_ ?_ rfl rfl (BytesKept.onlyRegs (.self _ _) rfl), ?_⟩
  · intro r' hr
    cases r <;> cases r' <;> first | rfl | simp at hr
  all_goals cases r <;> rfl

theorem modifyHl_of {i : Instr} {s : State} {op res : Byte → Flags → Byte × Flags} {n : Word} {m : Nat} (hi : s.Inv)
    (h : exec i s = ((s.advance n).modify op .atHl).done m) (hop : ∀ v f, op v f = res v f) : ModifyHl i s res n m := by
  have hop : op = res := by funext v f; exact hop v f
  subst hop
  refine ⟨fun hr hw => ?_, fun u hu => ?_, fun v u w hu hw => ⟨w.regs.f, ?_⟩⟩
  · obtain ⟨v, u, hu⟩ := s.read8_of_readable _ hr
    obtain ⟨w, hw⟩ := u.write8_of_writable _ (op v s.regs.f).1 (hw v u hu)
    have hreg : w.regs = s.regs := (State.write8_ok_regs hw).trans (State.read8_ok_regs hu)
    have hiu : u.Inv := by
      have := s.inv_busRead s.hl .read hi
      unfold State.read8 at hu
      rwa [hu] at this
    refine ⟨v, u, w, ((w.setPc (s.regs.pc + n)).setF (op v s.regs.f).2).setElapsed m, hu, hw, Answers.mk ?_ ?_ rfl ?_ rfl rfl rfl (BytesKept.onlyRegs ((BytesKept.read hu).trans (.write hiu hw)) rfl)⟩
    · rw [h, modify_atHl_ok hu hw]; rfl
    · intro r hr
      have : w.getR8 r = s.getR8 r := by simp [State.getR8, hreg]
      rw [← this]; cases r <;> rfl
    · simp only [State.retires, ← hreg]; rfl
  · rw [h, modify_atHl_fatal_read hu]; rfl
  · rw [h, modify_atHl_fatal_write hu hw]; rfl

theorem accForm_of {b : Byte} {i : Instr} {op res : Byte → Flags → Byte × Flags} (hs : Spells [b] i)
    (h : ∀ s, exec i s = accOp op s) (hop : ∀ v f, op v f = res v f) : AccForm b i res := by
  refine ⟨hs, fun s => modifyReg_of (h s) hop⟩

theorem cbForms_of {i : Opnd8 → Instr} {op res : Byte → Flags → Byte × Flags} (h : ∀ o s, exec (i o) s = cbModify op o s)
    (hop : ∀ v f, op v f = res v f) : CbForms i res :=
  ⟨fun s r => modifyReg_of (h (.reg r) s) hop, fun s hi => modifyHl_of hi (h .atHl s) hop⟩

theorem spells_cb (c : Byte) : Spells [0xCB, c] (decodeCb c) := by
  refine spells_of_length2 rfl (fun _ => rfl) ?_
  simp only [decodeCb]
  split_ifs <;> rfl

end Sys2Proof.Machine
end

