-- ==== Sys2Proof/Laws/Step.lean ====
section
/-! SUPPORT. What the parts of a step can do, and a step as a whole. -/

namespace Sys2Proof.Machine

/-! ## The timer -/

/-- The ticks write the timer and IF, nothing else. -/
theorem State.timerTicks_state (n : Nat) (s : State) :
    State.timerTicks n s = { s with timer := (State.timerTicks n s).timer, ifl := (State.timerTicks n s).ifl } := by
  induction n generalizing s with
  | zero => rfl
  | succ n ih => rw [State.timerTicks, ih s.timerTick]; rfl

/-- The timer after the ticks depends on the timer alone. -/
theorem State.timerTicks_timer_congr (n : Nat) {s t : State} (h : s.timer = t.timer) :
    (State.timerTicks n s).timer = (State.timerTicks n t).timer := by
  induction n generalizing s t with
  | zero => exact h
  | succ n ih => exact ih (by simp [State.timerTick, h])

theorem State.timerTicks_div (n : Nat) (s : State) :
    (State.timerTicks n s).timer.div = s.timer.div + BitVec.ofNat 16 n := by
  induction n generalizing s with
  | zero => simp [State.timerTicks]
  | succ n ih =>
    rw [State.timerTicks, ih]
    simp only [State.timerTick, Timer.tick]
    rw [BitVec.add_assoc]
    congr 1
    apply BitVec.eq_of_toNat_eq
    simp
    omega

/-! ## The iteration of the loop -/

/-- The parts of an iteration do not touch what is not named here. -/
theorem State.iterate_state (s : State) :
    s.iterate =
      { s with
        mem := oamWrites s.mem s.agentTurn.dmaOam
        ifl := s.iterate.ifl
        timer := s.iterate.timer
        tickEnded := s.agentTurn.frameReady
        agents := s.agents.tail } := by
  simp only [State.iterate]
  rw [State.timerTicks_state]
  rfl

theorem State.iterate_timer (s : State) : s.iterate.timer = (State.timerTicks s.tCycles s).timer := by
  show (State.timerTicks s.tCycles (s.dmaAdvance s.agentTurn)).timer = _
  exact State.timerTicks_timer_congr _ rfl

theorem State.iterate_div (s : State) :
    s.iterate.timer.div = s.timer.div + BitVec.ofNat 16 (4 * s.elapsed.getD 0) := by
  rw [s.iterate_timer, State.timerTicks_div]
  rfl

theorem State.inv_iterate (s : State) (h : s.Inv) : s.iterate.Inv := by
  rw [State.wf_iff] at h ⊢
  rw [s.iterate_state]
  exact ⟨memWf_oamWrites _ _ h.1, memKeys_oamWrites _ _ h.2.1, h.2.2⟩

/-! ## The end of a step -/

theorem State.endStep_fatal (s : State) (b : Bool) (f : FatalRecord) (h : s.fatal = some f) : s.endStep b = s := by
  unfold State.endStep
  rw [h]

theorem State.endStep_live (s : State) (b : Bool) (h : s.fatal = none) : s.endStep b = (s.commitIme b).iterate := by
  unfold State.endStep
  rw [h]

/-- The commit of EI writes IME and IME_PENDING at most. -/
theorem State.commitIme_state (s : State) (b : Bool) :
    s.commitIme b = { s with ime := (s.commitIme b).ime, imePending := (s.commitIme b).imePending } := by
  unfold State.commitIme
  split_ifs <;> rfl

/-! ## Fetching and dispatching -/

theorem State.checkCb_sound (s : State) (i : Instr) (o c : Byte) : (s.checkCb i o c).Sound s := by
  unfold State.checkCb
  split_ifs
  · exact ⟨.raise .refl _, ⟨_, rfl⟩, rfl⟩
  · exact ⟨.refl, rfl, rfl⟩

theorem State.fetchRest_sound (s : State) (o : Byte) (n : Nat) : (s.fetchRest o n).Sound s := by
  unfold State.fetchRest
  simp only
  split_ifs
  · exact ⟨.refl, rfl, rfl⟩
  · exact (s.busRead_sound _ _).bind fun _ t => ⟨.refl, rfl, rfl⟩
  · exact (s.busRead_sound _ _).bind fun _ t => (t.busRead_sound _ _).bind fun _ u => ⟨.refl, rfl, rfl⟩

theorem State.fetchMore_sound (s : State) (o : Byte) : (s.fetchMore o).Sound s := by
  unfold State.fetchMore
  split_ifs
  · exact (s.busRead_sound _ _).bind fun c t => t.checkCb_sound _ _ _
  · exact s.fetchRest_sound _ _

/-- Fetching reads the bus and may raise; it does nothing else (40_engine.md R192). -/
theorem State.fetch_sound (s : State) : s.fetch.Sound s := by
  refine (s.busRead_sound _ _).bind fun o t => ?_
  split_ifs
  · exact ⟨.raise .refl _, ⟨_, rfl⟩, rfl⟩
  · exact t.fetchMore_sound _

/-- Two operations that leave the registers as they were, one after the other. -/
theorem Res.bind_regs {α β : Type} {s : State} {r : Res α} {k : α → State → Res β} (h : r.state.regs = s.regs)
    (hk : ∀ v t, (k v t).state.regs = t.regs) : (r.bind k).state.regs = s.regs := by
  cases r with
  | fatal t => exact h
  | ok v t => exact (hk v t).trans h

theorem State.checkCb_regs (s : State) (i : Instr) (o c : Byte) : (s.checkCb i o c).state.regs = s.regs := by
  unfold State.checkCb
  split_ifs <;> rfl

theorem State.fetchMore_regs (s : State) (o : Byte) : (s.fetchMore o).state.regs = s.regs := by
  unfold State.fetchMore State.fetchRest
  simp only
  split_ifs
  · exact Res.bind_regs (s.busRead_regs _ _) fun c t => t.checkCb_regs _ _ _
  · rfl
  · exact Res.bind_regs (s.busRead_regs _ _) fun _ _ => rfl
  · exact Res.bind_regs (s.busRead_regs _ _) fun _ t => Res.bind_regs (t.busRead_regs _ _) fun _ _ => rfl

/-- Fetching leaves the registers as they were. -/
theorem State.fetch_regs (s : State) : s.fetch.state.regs = s.regs := by
  refine Res.bind_regs (s.busRead_regs _ _) fun o t => ?_
  split_ifs
  · rfl
  · exact t.fetchMore_regs o

/-- A step's state before its end, up to the control bits and the acknowledged request: a chain, with a cost or a record. -/
def CpuOutcome (s u : State) : Prop :=
  ∃ q, BusMoves { s with ifl := q } { u with ime := s.ime, imePending := s.imePending, halted := s.halted } ∧
    ((u.fatal = s.fatal ∧ ∃ m, u.elapsed = some m ∧ 1 ≤ m ∧ m ≤ 6) ∨ ((∃ f, u.fatal = some f) ∧ u.elapsed = none))

/-- A chain does not look at the control bits. -/
theorem State.busRead_ctl (s : State) (i p h : Bool) (a : Word) (k : Access) :
    ({ s with ime := i, imePending := p, halted := h } : State).busRead a k =
      (s.busRead a k).onState (fun t => { t with ime := i, imePending := p, halted := h }) := by
  unfold State.busRead
  cases zoneOf a <;> try rfl
  all_goals first
    | (simp only [State.cartRead]; cases s.cart.read a <;> rfl)
    | (simp only [State.ioRead]
       cases ioRegOf a with
       | some r => cases r <;> rfl
       | none =>
         simp only [State.pIoRead]
         split <;> rfl)

theorem State.busWrite_ctl (s : State) (i p h : Bool) (a : Word) (v : Byte) :
    ({ s with ime := i, imePending := p, halted := h } : State).busWrite a v =
      (s.busWrite a v).onState (fun t => { t with ime := i, imePending := p, halted := h }) := by
  unfold State.busWrite
  cases zoneOf a <;> try rfl
  simp only [State.ioWrite]
  cases ioRegOf a with
  | some r => cases r <;> rfl
  | none =>
    simp only [State.pIoWrite]
    split <;> rfl

theorem Res.state_onState {α : Type} (g : State → State) (r : Res α) : (r.onState g).state = g r.state := by
  cases r <;> rfl

theorem BusMoves.withCtl {s t : State} (h : BusMoves s t) (i p b : Bool) :
    BusMoves { s with ime := i, imePending := p, halted := b } { t with ime := i, imePending := p, halted := b } := by
  induction h with
  | refl => exact .refl
  | regs _ g ih => exact .regs ih g
  | @read u _ a k ih =>
    have := BusMoves.read ih a k
    rwa [State.busRead_ctl, Res.state_onState] at this
  | @write u _ a v ih =>
    have := BusMoves.write ih a v
    rwa [State.busWrite_ctl, Res.state_onState] at this
  | raise _ f ih => exact .raise ih f
  | elapsed _ m ih => exact .elapsed ih m

theorem State.takeInterrupt_outcome (s : State) (i : Source) : CpuOutcome s (s.takeInterrupt i) := by
  have hs : Outcome { s.resetIfBit i with ime := false, imePending := false } (s.takeInterrupt i) := by
    refine Res.Sound.outcome (α := Unit) ?_ (by decide) (by decide)
    exact (State.push16_sound _ _).bind fun _ t => Res.sound_regs t () _
  obtain ⟨hm, ho⟩ := hs
  refine ⟨s.ifl &&& ~~~i.mask, ?_, ?_⟩
  · exact hm.withCtl s.ime s.imePending s.halted
  · exact ho

theorem State.runNext_outcome (s : State) : ∃ u, CpuOutcome s u ∧ s.runNext = .next (u.endStep s.imePending) := by
  have hs := s.fetch_sound
  unfold State.runNext
  cases h : s.fetch with
  | fatal t =>
    rw [h] at hs
    obtain ⟨f, hf⟩ := hs.2.1
    exact ⟨t, ⟨s.ifl, by rw [hs.1.ctl]; exact hs.1, .inr hs.2⟩, by simp only; rw [t.endStep_fatal _ f hf]⟩
  | ok i t =>
    rw [h] at hs
    obtain ⟨u, hu, hm, ho⟩ := exec_answered i t
    simp only [hu]
    refine ⟨u, ⟨s.ifl, ?_, ?_⟩, rfl⟩
    · obtain ⟨h1, h2, h3, _⟩ := hs.1.kept
      rw [h1, h2, h3] at hm
      exact hs.1.trans hm
    · rcases ho with ho | ho
      · exact .inl ⟨ho.1.trans hs.2.1, ho.2⟩
      · exact .inr ho

/-- Everything a step can do: from a state with no fatal, a CPU's outcome and the end of the step. -/
theorem step_cases {s t : State} (h : step s = .next t) : s.fatal = none ∧ ∃ u b, CpuOutcome s u ∧ t = u.endStep b := by
  unfold step at h
  cases hf : s.fatal with
  | some f => rw [hf] at h; cases h
  | none =>
    rw [hf] at h
    refine ⟨rfl, ?_⟩
    simp only [State.liveStep] at h
    split_ifs at h with hc
    · unfold State.haltedStep at h
      injection h with h
      exact ⟨s.setElapsed 1, false, ⟨s.ifl, .elapsed .refl 1, .inl ⟨rfl, 1, rfl, by decide, by decide⟩⟩, h.symm⟩
    · have hw : ∀ u, CpuOutcome { s with halted := false } u → CpuOutcome s u := by
        intro u ⟨q, hm, ho⟩
        refine ⟨q, ?_, ho⟩
        exact hm.withCtl s.ime s.imePending s.halted
      unfold State.awakeStep at h
      split at h
      · injection h with h
        exact ⟨_, _, hw _ (State.takeInterrupt_outcome _ _), h.symm⟩
      · obtain ⟨u, hu, he⟩ := State.runNext_outcome { s with halted := false }
        rw [he] at h
        injection h with h
        exact ⟨u, _, hw u hu, h.symm⟩

/-- Where no fatal stands, a step answers a next state. -/
theorem step_next (s : State) (hf : s.fatal = none) : ∃ t, step s = .next t := by
  unfold step
  rw [hf]
  simp only [State.liveStep]
  split_ifs
  · exact ⟨_, rfl⟩
  · unfold State.awakeStep
    split
    · exact ⟨_, rfl⟩
    · obtain ⟨u, _, he⟩ := State.runNext_outcome { s with halted := false }
      exact ⟨_, he⟩

/-! ## Runs -/

/-- One step first, then the rest of the run. -/
theorem core_run_succ (s : State) (k : Nat) :
    core.run (k + 1) s =
      match step s with
      | .next t => core.run k t
      | .fault r => .fault r
      | .refused r => .refused r := by
  have h : core.step s = step s := rfl
  simp only [Host.Core.run]
  rw [h]
  cases step s <;> rfl

/-- The iteration ends its Tick where the video signals a frame (40_engine.md R208). -/
theorem State.iterate_tickEnded (s : State) : s.iterate.tickEnded = s.agentTurn.frameReady := rfl

end Sys2Proof.Machine
end

