-- ==== Sys2Proof/Laws/Stores.lean ====
section
/-! SUPPORT. The counter DIVCNT through a step: what clears it is a store to 0xFF04 and nothing else (60_exceptions.md R435). -/

namespace Sys2Proof.Machine

/-- DIVCNT after stores to the addresses `l`, from `d` (60_exceptions.md R435). -/
def divAfter (l : List Word) (d : Word) : Word := if 0xFF04 ∈ l then 0 else d

@[simp] theorem divAfter_nil (d : Word) : divAfter [] d = d := by simp [divAfter]

theorem divAfter_cons (a : Word) (l : List Word) (d : Word) : divAfter (a :: l) d = divAfter l (divAfter [a] d) := by
  unfold divAfter
  split_ifs <;> simp_all

/-! ## The accesses -/

theorem State.read8_ok_div {s u : State} {a : Word} {v : Byte} (h : s.read8 a = .ok v u) : u.timer.div = s.timer.div := by
  have hs := s.busRead_state a .read
  unfold State.read8 at h
  rw [h] at hs
  simp only [Res.state] at hs
  rw [hs]

theorem State.write8_ok_div {s u : State} {a : Word} {v : Byte} (h : s.write8 a v = .ok () u) :
    u.timer.div = divAfter [a] s.timer.div := by
  have hz : zoneOf a ≠ .io → divAfter [a] s.timer.div = s.timer.div := fun hz => by
    unfold divAfter
    rw [if_neg]
    rw [List.mem_singleton]
    rintro rfl
    exact hz (by decide)
  unfold State.write8 State.busWrite at h
  cases hzn : zoneOf a <;> rw [hzn] at h <;> simp only at h <;> first
    | (cases h; done)
    | (cases h; exact (hz (by rw [hzn]; decide)).symm)
    | skip
  unfold State.ioWrite at h
  cases hr : ioRegOf a with
  | none =>
    have ha : a ≠ 0xFF04 := by rintro rfl; exact absurd hr (by decide)
    rw [hr] at h
    have hd : divAfter [a] s.timer.div = s.timer.div := by
      unfold divAfter
      rw [if_neg]
      rw [List.mem_singleton]
      exact fun e => ha e.symm
    simp only [State.pIoWrite] at h
    split at h <;> cases h <;> exact hd.symm
  | some r =>
    rw [hr] at h
    have ha := (ioRegOf_eq_some a r).1 hr
    subst ha
    cases h
    cases r <;> rfl

/-- An operation that stores to the addresses `l`, where it is answered: DIVCNT is then as those stores leave it; where it is
refused no count is returned. -/
def Res.Div {α : Type} (l : List Word) (s : State) : Res α → Prop
  | .ok _ t => t.timer.div = divAfter l s.timer.div
  | .fatal t => t.elapsed = none

/-- The answer of a meaning that stores to the addresses `l`: where a count is returned, DIVCNT is as those stores leave it. -/
def DivAnswer (l : List Word) (s : State) (r : Result) : Prop :=
  ∀ t, r = .next t → t.elapsed ≠ none → t.timer.div = divAfter l s.timer.div

theorem Res.Div.done {α : Type} {l : List Word} {s : State} {r : Res α} {m : Nat} (h : r.Div l s) : DivAnswer l s (r.done m) := by
  intro t ht he
  injection ht with ht
  subst ht
  cases r with
  | ok v u => exact h
  | fatal u => exact absurd h he

theorem Res.Sound.div {α : Type} {l : List Word} {s : State} {r : Res α} (hs : r.Sound s)
    (h : ∀ v t, r = .ok v t → t.timer.div = divAfter l s.timer.div) : r.Div l s := by
  cases r with
  | ok v t => exact h v t rfl
  | fatal t => exact hs.2.2

/-- A meaning that writes registers and control bits only. -/
theorem DivAnswer.plain {s t : State} {m : Nat} (h : t.timer = s.timer) : DivAnswer [] s (t.done m) := by
  intro u hu _
  injection hu with hu
  subst hu
  rw [divAfter_nil, ← h]
  rfl

theorem DivAnswer.raise {l : List Word} (s t : State) (f : FatalRecord) : DivAnswer l s (.next (t.raise f)) := by
  intro u hu he
  injection hu with hu
  subst hu
  exact absurd rfl he

theorem DivAnswer.ite {l k : List Word} {s : State} {c : Prop} [Decidable c] {r q : Result} (h : DivAnswer l s r)
    (h' : DivAnswer k s q) : DivAnswer (if c then l else k) s (if c then r else q) := by
  split_ifs
  · exact h
  · exact h'

/-! ## The shapes -/

theorem read_div {α : Type} {s : State} {a : Word} {k : Byte → State → Res α}
    (hk : ∀ v t, ∃ w u, k v t = .ok w u ∧ u.timer = t.timer) : ((s.read8 a).bind k).Div [] s := by
  cases h : s.read8 a with
  | fatal t =>
    have hs := s.busRead_sound a .read
    unfold State.read8 at h
    rw [h] at hs
    exact hs.2.2
  | ok v t =>
    obtain ⟨w, u, hu, ht⟩ := hk v t
    simp only [Res.bind_ok, hu, Res.Div, divAfter_nil, ht]
    exact State.read8_ok_div h

theorem write_div {α : Type} {s : State} {a : Word} {v : Byte} {k : Unit → State → Res α}
    (hk : ∀ t, ∃ w u, k () t = .ok w u ∧ u.timer = t.timer) : ((s.write8 a v).bind k).Div [a] s := by
  cases h : s.write8 a v with
  | fatal t =>
    have hs := s.busWrite_sound a v
    unfold State.write8 at h
    rw [h] at hs
    exact hs.2.2
  | ok _ t =>
    obtain ⟨w, u, hu, ht⟩ := hk t
    simp only [Res.bind_ok, hu, Res.Div, ht]
    exact State.write8_ok_div h

theorem State.write8_div (s : State) (a : Word) (v : Byte) : (s.write8 a v).Div [a] s :=
  (s.busWrite_sound a v).div fun _ _ h => State.write8_ok_div h

/-- Two writes, one after the other. -/
theorem write8_write8_div {s u w : State} {a b : Word} {x y : Byte} (h : s.write8 a x = .ok () u)
    (h' : u.write8 b y = .ok () w) : w.timer.div = divAfter [a, b] s.timer.div := by
  rw [divAfter_cons, State.write8_ok_div h', State.write8_ok_div h]

theorem State.write16_div (s : State) (a v : Word) : (s.write16 a v).Div [a, a + 1] s := by
  refine (s.write16_sound a v).div fun _ t h => ?_
  unfold State.write16 at h
  cases h1 : s.write8 a (loByte v) with
  | fatal u => rw [h1] at h; cases h
  | ok _ u => rw [h1] at h; exact write8_write8_div h1 h

theorem State.push16_div (s : State) (v : Word) : (s.push16 v).Div s.pushSlots s := by
  refine (s.push16_sound v).div fun _ t h => ?_
  cases h1 : s.write8 (s.regs.sp - 1) (hiByte v) with
  | fatal u => rw [push16_fatal1 h1] at h; cases h
  | ok _ u =>
    cases h2 : u.write8 (s.regs.sp - 2) (loByte v) with
    | fatal w => rw [push16_fatal2 h1 h2] at h; cases h
    | ok _ w =>
      rw [push16_ok h1 h2] at h
      injection h with _ h
      subst h
      exact write8_write8_div (w := w) h1 h2

theorem State.pop16_div (s : State) : s.pop16.Div [] s := by
  refine s.pop16_sound.div fun _ t h => ?_
  rw [divAfter_nil]
  cases h1 : s.read8 s.regs.sp with
  | fatal u => rw [pop16_fatal1 h1] at h; cases h
  | ok lo u =>
    cases h2 : u.read8 (s.regs.sp + 1) with
    | fatal w => rw [pop16_fatal2 h1 h2] at h; cases h
    | ok hi w =>
      rw [pop16_ok h1 h2] at h
      cases h
      exact (State.read8_ok_div h2).trans (State.read8_ok_div h1)

/-- Going on without a bus access. -/
theorem Res.Div.bind {α β : Type} {l : List Word} {s : State} {r : Res α} {k : α → State → Res β} (h : r.Div l s)
    (hk : ∀ v t, ∃ w u, k v t = .ok w u ∧ u.timer = t.timer) : (r.bind k).Div l s := by
  cases r with
  | fatal t => exact h
  | ok v t =>
    obtain ⟨w, u, hu, ht⟩ := hk v t
    simp only [Res.bind_ok, hu, Res.Div, ht]
    exact h

theorem aluHl_div (op : Byte → Byte → Flags → Byte × Flags) (s : State) : DivAnswer [] s (aluHl op s) :=
  Res.Div.done (read_div (s := s.advance 1) fun _ _ => ⟨_, _, rfl, rfl⟩)

theorem loadTo_div (dst : R8) (n : Word) (m : Nat) (addr : State → Word) (s : State) : DivAnswer [] s (loadTo dst n m addr s) :=
  Res.Div.done (read_div (s := s.advance n) fun _ _ => ⟨_, _, rfl, rfl⟩)

theorem loadStep_div (d : Word) (s : State) : DivAnswer [] s (loadStep d s) :=
  Res.Div.done (read_div (s := s.advance 1) fun _ _ => ⟨_, _, rfl, rfl⟩)

theorem storeAt_div (n : Word) (m : Nat) (addr : State → Word) (val : State → Byte) (s : State) :
    DivAnswer [addr (s.advance n)] s (storeAt n m addr val s) :=
  Res.Div.done ((s.advance n).write8_div _ _)

theorem storeStep_div (d : Word) (s : State) : DivAnswer [s.hl] s (storeStep d s) :=
  Res.Div.done (write_div (s := s.advance 1) fun _ => ⟨_, _, rfl, rfl⟩)

theorem modify_div (op : Byte → Flags → Byte × Flags) (o : Opnd8) (n : Word) (m : Nat) (s : State) :
    DivAnswer (opndStores o s) s (((s.advance n).modify op o).done m) := by
  cases o with
  | reg r => exact DivAnswer.plain rfl
  | atHl =>
    refine Res.Div.done (((s.advance n).modify_sound op .atHl).div fun _ t h => ?_) |> fun (h : DivAnswer [s.hl] s _) => h
    cases h1 : s.read8 s.hl with
    | fatal u => rw [modify_atHl_fatal_read h1] at h; cases h
    | ok v u =>
      cases h2 : u.write8 s.hl (op v s.regs.f).1 with
      | fatal w => rw [modify_atHl_fatal_write h1 h2] at h; cases h
      | ok _ w =>
        rw [modify_atHl_ok h1 h2] at h
        cases h
        show w.timer.div = divAfter [s.hl] s.timer.div
        rw [State.write8_ok_div h2, State.read8_ok_div h1]

theorem execBitB_div (b : BitVec 3) (o : Opnd8) (s : State) : DivAnswer [] s (execBitB b o s) := by
  cases o with
  | reg r => exact DivAnswer.plain rfl
  | atHl => exact Res.Div.done (read_div (s := s.advance 2) fun _ _ => ⟨_, _, rfl, rfl⟩)

theorem callTo_div (n v : Word) (s : State) (m : Nat) : DivAnswer s.pushSlots s (((s.advance n).callTo v).done m) :=
  Res.Div.done (((s.advance n).push16_div _).bind fun _ _ => ⟨_, _, rfl, rfl⟩)

theorem State.popPc_div (s : State) : s.popPc.Div [] s := s.pop16_div.bind fun _ _ => ⟨_, _, rfl, rfl⟩

theorem popPc_done_div (s : State) (m : Nat) : DivAnswer [] s ((s.advance 1).popPc.done m) :=
  Res.Div.done (s.advance 1).popPc_div

/-- Every instruction that returns a count leaves DIVCNT as its stores do. -/
theorem exec_div (i : Instr) (s : State) : DivAnswer (instrStores i s) s (exec i s) := by
  cases i
  case ldRHl dst => exact loadTo_div dst 1 2 State.hl s
  case ldHlR src => exact storeAt_div 1 2 State.hl (fun t => t.getR8 src) s
  case ldHlN n => exact storeAt_div 2 3 State.hl (fun _ => n) s
  case ldABc => exact loadTo_div .a 1 2 (fun t => t.getRR .bc) s
  case ldADe => exact loadTo_div .a 1 2 (fun t => t.getRR .de) s
  case ldBcA => exact storeAt_div 1 2 (fun t => t.getRR .bc) (fun t => t.getR8 .a) s
  case ldDeA => exact storeAt_div 1 2 (fun t => t.getRR .de) (fun t => t.getR8 .a) s
  case ldAHli => exact loadStep_div _ s
  case ldAHld => exact loadStep_div _ s
  case ldHliA => exact storeStep_div _ s
  case ldHldA => exact storeStep_div _ s
  case ldANn nn => exact loadTo_div .a 3 4 (fun _ => nn) s
  case ldNnA nn => exact storeAt_div 3 4 (fun _ => nn) (fun t => t.getR8 .a) s
  case ldhAN n => exact loadTo_div .a 2 3 (fun _ => topPage n) s
  case ldhNA n => exact storeAt_div 2 3 (fun _ => topPage n) (fun t => t.getR8 .a) s
  case ldhAC => exact loadTo_div .a 1 2 (fun t => topPage (t.getR8 .c)) s
  case ldhCA => exact storeAt_div 1 2 (fun t => topPage (t.getR8 .c)) (fun t => t.getR8 .a) s
  case ldNnSp nn => exact Res.Div.done ((s.advance 3).write16_div nn _)
  case push => exact Res.Div.done ((s.advance 1).push16_div _)
  case pop => exact Res.Div.done ((s.advance 1).pop16_div.bind fun _ _ => ⟨_, _, rfl, rfl⟩)
  case incHl => exact modify_div _ .atHl 1 _ s
  case decHl => exact modify_div _ .atHl 1 _ s
  case incR r => exact modify_div _ (.reg r) 1 _ s
  case decR r => exact modify_div _ (.reg r) 1 _ s
  case addHl => exact aluHl_div aluAdd s
  case adcHl => exact aluHl_div aluAdc s
  case subHl => exact aluHl_div aluSub s
  case sbcHl => exact aluHl_div aluSbc s
  case andHl => exact aluHl_div aluAnd s
  case xorHl => exact aluHl_div aluXor s
  case orHl => exact aluHl_div aluOr s
  case cpHl => exact aluHl_div aluCp s
  case jpCcNn cc nn =>
    show DivAnswer [] s (if condHolds cc (s.advance 3).regs.f then _ else _)
    split_ifs <;> exact DivAnswer.plain rfl
  case jrCcE cc e =>
    show DivAnswer [] s (if condHolds cc (s.advance 2).regs.f then _ else _)
    split_ifs <;> exact DivAnswer.plain rfl
  case callNn => exact callTo_div _ _ s _
  case callCcNn cc nn =>
    exact DivAnswer.ite (c := condHolds cc s.regs.f = true) (callTo_div 3 nn s 6) (DivAnswer.plain rfl)
  case rst => exact callTo_div _ _ s _
  case ret => exact popPc_done_div s _
  case retCc cc =>
    show DivAnswer [] s (if condHolds cc (s.advance 1).regs.f then _ else _)
    split_ifs
    · exact popPc_done_div s 5
    · exact DivAnswer.plain rfl
  case reti =>
    exact Res.Div.done ((s.advance 1).popPc_div.bind fun _ t => ⟨(), { t with ime := true, imePending := false }, rfl, rfl⟩)
  case halt =>
    show DivAnswer [] s (execHalt s)
    unfold execHalt
    simp only
    split_ifs
    · exact DivAnswer.raise _ _ _
    · exact DivAnswer.plain rfl
  case stop => exact DivAnswer.raise _ _ _
  case illegal => exact DivAnswer.raise _ _ _
  case prefixCb c =>
    show DivAnswer (if fieldX c = 0b01#2 then [] else opndStores (opnd8Of (fieldZ c)) s) s (execPrefixCb c s)
    unfold execPrefixCb
    simp only
    split_ifs
    · exact execBitB_div _ _ s
    all_goals exact modify_div _ _ 2 _ s
  case bitB b o => exact execBitB_div b o s
  case rlc o => exact modify_div rlc8 o 2 _ s
  case rrc o => exact modify_div rrc8 o 2 _ s
  case rl o => exact modify_div rl8 o 2 _ s
  case rr o => exact modify_div rr8 o 2 _ s
  case sla o => exact modify_div sla8 o 2 _ s
  case sra o => exact modify_div sra8 o 2 _ s
  case swap o => exact modify_div swap8 o 2 _ s
  case srl o => exact modify_div srl8 o 2 _ s
  case resB b o => exact modify_div (fun v f => (res8 b v, f)) o 2 _ s
  case setB b o => exact modify_div (fun v f => (set8 b v, f)) o 2 _ s
  all_goals exact DivAnswer.plain rfl

/-! ## The rest of the CPU's step -/

/-- A dispatch that returns a count leaves DIVCNT as its two stack bytes do. -/
theorem State.takeInterrupt_div (s : State) (i : Source) (h : (s.takeInterrupt i).elapsed ≠ none) :
    (s.takeInterrupt i).timer.div = divAfter s.pushSlots s.timer.div :=
  Res.Div.done (m := 5)
    ((State.push16_div { s.resetIfBit i with ime := false, imePending := false } s.regs.pc).bind
      fun _ t => ⟨(), t.setPc i.vector, rfl, rfl⟩) _ rfl h

theorem State.busRead_div (s : State) (a : Word) (k : Access) : (s.busRead a k).Div [] s :=
  (s.busRead_sound a k).div fun v t h => by
    have hs := s.busRead_state a k
    rw [h] at hs
    simp only [Res.state] at hs
    rw [hs, divAfter_nil]

/-- One operation that stores nothing after another. -/
theorem Res.Div.andThen {α β : Type} {s : State} {r : Res α} {k : α → State → Res β} (h : r.Div [] s)
    (hk : ∀ v t, (k v t).Div [] t) : (r.bind k).Div [] s := by
  cases r with
  | fatal t => exact h
  | ok v t =>
    have := hk v t
    simp only [Res.bind_ok]
    simp only [Res.Div, divAfter_nil] at h
    cases hr : k v t <;> rw [hr] at this <;> simp only [Res.Div, divAfter_nil] at this ⊢
    · exact this.trans h
    · exact this

theorem State.fetchMore_div (s : State) (o : Byte) : (s.fetchMore o).Div [] s := by
  unfold State.fetchMore State.fetchRest
  simp only
  split_ifs
  · refine (s.busRead_div _ _).andThen fun c u => ?_
    unfold State.checkCb
    split_ifs
    · rfl
    · exact divAfter_nil _ |>.symm
  · exact divAfter_nil _ |>.symm
  · exact (s.busRead_div _ _).andThen fun b1 u => divAfter_nil _ |>.symm
  · refine (s.busRead_div _ _).andThen fun b1 u => ?_
    exact (u.busRead_div _ _).andThen fun b2 w => divAfter_nil _ |>.symm

/-- Decoding leaves DIVCNT. -/
theorem State.fetch_div (s : State) : s.fetch.Div [] s := by
  refine (s.busRead_div _ _).andThen fun o t => ?_
  split_ifs
  · rfl
  · exact t.fetchMore_div o

end Sys2Proof.Machine
end

