-- ==== Sys2Proof/Machine/Asm.lean ====
section
/-! DEFINITION. Assembler text of the instructions, in the upper case of the spec (30_encoding.md R174). It is a host's aid
(60_exceptions.md R453): nothing in the machine reads it. -/

namespace Sys2Proof.Machine

/-- A hexadecimal digit. -/
def hexDigit (n : Nat) : Char := "0123456789ABCDEF".toList.getD n '0'

/-- A byte as `0xNN` (30_encoding.md R174). -/
def hex8 (v : Byte) : String := "0x" ++ String.ofList [hexDigit (v.toNat / 16), hexDigit (v.toNat % 16)]

/-- A word as `0xNNNN` (30_encoding.md R174). -/
def hex16 (v : Word) : String :=
  "0x" ++ String.ofList ([4096, 256, 16, 1].map fun p => hexDigit (v.toNat / p % 16))

/-- The name of an 8-bit register. -/
def R8.asm : R8 → String
  | .b => "B"
  | .c => "C"
  | .d => "D"
  | .e => "E"
  | .h => "H"
  | .l => "L"
  | .a => "A"

/-- The name of an r8 operand; a memory operand stands in parentheses (30_encoding.md R174). -/
def Opnd8.asm : Opnd8 → String
  | .reg r => R8.asm r
  | .atHl => "(HL)"

/-- The name of a pair. -/
def RR.asm : RR → String
  | .bc => "BC"
  | .de => "DE"
  | .hl => "HL"
  | .sp => "SP"

/-- The name of a stack pair. -/
def QQ.asm : QQ → String
  | .bc => "BC"
  | .de => "DE"
  | .hl => "HL"
  | .af => "AF"

/-- The name of a condition (30_encoding.md R160). -/
def Cond.asm : Cond → String
  | .nz => "NZ"
  | .z => "Z"
  | .nc => "NC"
  | .c => "C"

/-- A bit number as one digit. -/
def bitAsm (b : BitVec 3) : String := String.ofList [hexDigit b.toNat]

/-- The text of an instruction: the destination first, then the source (30_encoding.md R174; log 23). -/
def Instr.asm : Instr → String
  | .ldRR dst src => "LD " ++ R8.asm dst ++ "," ++ R8.asm src
  | .ldRHl dst => "LD " ++ R8.asm dst ++ ",(HL)"
  | .ldHlR src => "LD (HL)," ++ R8.asm src
  | .ldRN dst n => "LD " ++ R8.asm dst ++ "," ++ hex8 n
  | .ldHlN n => "LD (HL)," ++ hex8 n
  | .ldABc => "LD A,(BC)"
  | .ldADe => "LD A,(DE)"
  | .ldBcA => "LD (BC),A"
  | .ldDeA => "LD (DE),A"
  | .ldAHli => "LD A,(HL+)"
  | .ldAHld => "LD A,(HL-)"
  | .ldHliA => "LD (HL+),A"
  | .ldHldA => "LD (HL-),A"
  | .ldANn nn => "LD A,(" ++ hex16 nn ++ ")"
  | .ldNnA nn => "LD (" ++ hex16 nn ++ "),A"
  | .ldhAN n => "LDH A,(" ++ hex8 n ++ ")"
  | .ldhNA n => "LDH (" ++ hex8 n ++ "),A"
  | .ldhAC => "LDH A,(C)"
  | .ldhCA => "LDH (C),A"
  | .ldRrNn p nn => "LD " ++ RR.asm p ++ "," ++ hex16 nn
  | .ldNnSp nn => "LD (" ++ hex16 nn ++ "),SP"
  | .ldSpHl => "LD SP,HL"
  | .push q => "PUSH " ++ QQ.asm q
  | .pop q => "POP " ++ QQ.asm q
  | .ldHlSpE e => "LD HL,SP+" ++ hex8 e
  | .addR src => "ADD A," ++ R8.asm src
  | .addHl => "ADD A,(HL)"
  | .addN n => "ADD A," ++ hex8 n
  | .adcR src => "ADC A," ++ R8.asm src
  | .adcHl => "ADC A,(HL)"
  | .adcN n => "ADC A," ++ hex8 n
  | .subR src => "SUB " ++ R8.asm src
  | .subHl => "SUB (HL)"
  | .subN n => "SUB " ++ hex8 n
  | .sbcR src => "SBC A," ++ R8.asm src
  | .sbcHl => "SBC A,(HL)"
  | .sbcN n => "SBC A," ++ hex8 n
  | .andR src => "AND " ++ R8.asm src
  | .andHl => "AND (HL)"
  | .andN n => "AND " ++ hex8 n
  | .xorR src => "XOR " ++ R8.asm src
  | .xorHl => "XOR (HL)"
  | .xorN n => "XOR " ++ hex8 n
  | .orR src => "OR " ++ R8.asm src
  | .orHl => "OR (HL)"
  | .orN n => "OR " ++ hex8 n
  | .cpR src => "CP " ++ R8.asm src
  | .cpHl => "CP (HL)"
  | .cpN n => "CP " ++ hex8 n
  | .incR dst => "INC " ++ R8.asm dst
  | .incHl => "INC (HL)"
  | .decR dst => "DEC " ++ R8.asm dst
  | .decHl => "DEC (HL)"
  | .daa => "DAA"
  | .cpl => "CPL"
  | .scf => "SCF"
  | .ccf => "CCF"
  | .addHlRr p => "ADD HL," ++ RR.asm p
  | .incRr p => "INC " ++ RR.asm p
  | .decRr p => "DEC " ++ RR.asm p
  | .addSpE e => "ADD SP," ++ hex8 e
  | .rlca => "RLCA"
  | .rrca => "RRCA"
  | .rla => "RLA"
  | .rra => "RRA"
  | .jpNn nn => "JP " ++ hex16 nn
  | .jpCcNn cc nn => "JP " ++ Cond.asm cc ++ "," ++ hex16 nn
  | .jpHl => "JP HL"
  | .jrE e => "JR " ++ hex8 e
  | .jrCcE cc e => "JR " ++ Cond.asm cc ++ "," ++ hex8 e
  | .callNn nn => "CALL " ++ hex16 nn
  | .callCcNn cc nn => "CALL " ++ Cond.asm cc ++ "," ++ hex16 nn
  | .ret => "RET"
  | .retCc cc => "RET " ++ Cond.asm cc
  | .reti => "RETI"
  | .rst t => "RST " ++ hex8 (t.setWidth 8 * 8)
  | .nop => "NOP"
  | .halt => "HALT"
  | .stop _ => "STOP"
  | .di => "DI"
  | .ei => "EI"
  | .prefixCb c => "PREFIX CB " ++ hex8 c
  | .rlc o => "RLC " ++ Opnd8.asm o
  | .rrc o => "RRC " ++ Opnd8.asm o
  | .rl o => "RL " ++ Opnd8.asm o
  | .rr o => "RR " ++ Opnd8.asm o
  | .sla o => "SLA " ++ Opnd8.asm o
  | .sra o => "SRA " ++ Opnd8.asm o
  | .swap o => "SWAP " ++ Opnd8.asm o
  | .srl o => "SRL " ++ Opnd8.asm o
  | .bitB b o => "BIT " ++ bitAsm b ++ "," ++ Opnd8.asm o
  | .resB b o => "RES " ++ bitAsm b ++ "," ++ Opnd8.asm o
  | .setB b o => "SET " ++ bitAsm b ++ "," ++ Opnd8.asm o
  | .illegal op => "(illegal) " ++ hex8 op

/-- The other spellings of R175 with an immediate byte `n` where they take one, each with the form whose row it encodes. -/
def spellings (n : Byte) : List (String × Instr) :=
  [("LDI A,(HL)", .ldAHli), ("LDI (HL),A", .ldHliA), ("LDD A,(HL)", .ldAHld), ("LDD (HL),A", .ldHldA),
   ("LD A,(FF00+" ++ hex8 n ++ ")", .ldhAN n), ("LD (C),A", .ldhCA), ("JP (HL)", .jpHl), ("LDHL SP," ++ hex8 n, .ldHlSpE n)]

end Sys2Proof.Machine
end

