-- ==== Sys2Proof/Tests/Slice0.lean ====
section
/-! SUPPORT. The model's own tests: well-formedness, words decoded as the spec writes them out, one step per case with the result
the spec's vectors and examples give (95_test_vectors.md), and a witness for the hypotheses of every obligation. -/

namespace Sys2Proof.Tests

open Sys2Proof Sys2Proof.Machine

/-! ## Helpers -/

/-- The base state of the spec's unit vectors, the bytes placed from `pc` on (95_test_vectors.md, conventions). -/
def base (pc : Word) (bytes : List Byte) : State :=
  { bytes.zipIdx.foldl (fun s x => s.place (pc + BitVec.ofNat 16 x.2) x.1) State.reset with
    regs := { State.reset.regs with pc := pc } }

/-- Every list of bytes decodes, whole, to its instruction. -/
def decodes (l : List (List Byte × Instr)) : Bool := l.all (fun x => decide (decode x.1 = .ok (x.2, [])))

/-- What a test looks at after one step that raised nothing; none: the step raised, or there is none. -/
def after {α : Type} (s : State) (f : State → α) : Option α :=
  match step s with
  | .next t => if t.fatal.isSome then none else some (f t)
  | .fault _ => none
  | .refused _ => none

/-- The fatal a step raises, and the PC and SP it leaves. -/
def raised (s : State) : Option (FatalRecord × Word × Word) :=
  match step s with
  | .next t => t.fatal.map (fun f => (f, t.regs.pc, t.regs.sp))
  | .fault _ => none
  | .refused _ => none

/-- A general register, `F`, PC and the cost. -/
def look (r : R8) (t : State) : Byte × Byte × Word × Option Nat := (t.getR8 r, t.regs.f.toByte, t.regs.pc, t.elapsed)

/-- SP, PC and the cost. -/
def jump (t : State) : Word × Word × Option Nat := (t.regs.sp, t.regs.pc, t.elapsed)

/-- The byte at an address, and the cost. -/
def cell (a : Word) (t : State) : Option Byte × Option Nat := (t.peek a, t.elapsed)

/-- `F <- v`. -/
def withF (s : State) (v : Byte) : State := s.setF (Flags.ofByte v)

/-- `HL <- a` and the byte `v` at `a`. -/
def atHl (s : State) (a : Word) (v : Byte) : State := (s.place a v).setRR .hl a

/-! ## Well-formedness -/

theorem test_wf_illegal : ¬ (Instr.illegal 0x00).WellFormed ∧ ¬ (Instr.illegal 0xCB).WellFormed := by decide
theorem test_wf_prefix_byte : ¬ (Instr.prefixCb 0x37).WellFormed := by decide
theorem test_wf_accepts : (Instr.illegal 0xFD).WellFormed ∧ (Instr.ldRR .b .b).WellFormed ∧ (Instr.bitB 7 .atHl).WellFormed := by
  decide

/-! ## Words written out from the encodings of spec/ -/

/-- 41_load8.md R230 to R248. -/
theorem test_decode_load8 :
    decodes [
      ([0b01_000_001], .ldRR .b .c), ([0b01_111_110], .ldRHl .a), ([0b01110_100], .ldHlR .h),
      ([0b00_001_110, 0xA7], .ldRN .c 0xA7), ([0b00110110, 0x5E], .ldHlN 0x5E), ([0b00001010], .ldABc),
      ([0b00011010], .ldADe), ([0b00000010], .ldBcA), ([0b00010010], .ldDeA), ([0b00101010], .ldAHli),
      ([0b00111010], .ldAHld), ([0b00100010], .ldHliA), ([0b00110010], .ldHldA),
      ([0b11111010, 0x34, 0xC2], .ldANn 0xC234), ([0b11101010, 0x00, 0xE0], .ldNnA 0xE000),
      ([0b11110000, 0x0F], .ldhAN 0x0F), ([0b11100000, 0x80], .ldhNA 0x80), ([0b11110010], .ldhAC),
      ([0b11100010], .ldhCA)] = true := by
  decide

/-- 42_load16.md R260 to R265. -/
theorem test_decode_load16 :
    decodes [
      ([0b00_11_0001, 0x00, 0xD0], .ldRrNn .sp 0xD000), ([0b00001000, 0x00, 0xC3], .ldNnSp 0xC300),
      ([0b11111001], .ldSpHl), ([0b11_00_0101], .push .bc), ([0b11_11_0001], .pop .af),
      ([0b11111000, 0xFF], .ldHlSpE 0xFF)] = true := by
  decide

/-- 43_alu8.md R280 to R288. -/
theorem test_decode_alu8 :
    decodes [
      ([0b10_000_000], .addR .b), ([0b10_000_110], .addHl), ([0b11_000_110, 0x0F], .addN 0x0F),
      ([0b10_001_000], .adcR .b), ([0b10_001_110], .adcHl), ([0b11_001_110, 0x0E], .adcN 0x0E),
      ([0b10_010_001], .subR .c), ([0b10_010_110], .subHl), ([0b11_010_110, 0x0F], .subN 0x0F),
      ([0b10_011_010], .sbcR .d), ([0b10_011_110], .sbcHl), ([0b11_011_110, 0x3A], .sbcN 0x3A),
      ([0b10_100_001], .andR .c), ([0b10_100_110], .andHl), ([0b11_100_110, 0x00], .andN 0x00),
      ([0b10_101_111], .xorR .a), ([0b10_101_110], .xorHl), ([0b11_101_110, 0x55], .xorN 0x55),
      ([0b10_110_010], .orR .d), ([0b10_110_110], .orHl), ([0b11_110_110, 0x01], .orN 0x01),
      ([0b10_111_101], .cpR .l), ([0b10_111_110], .cpHl), ([0b11_111_110, 0x3C], .cpN 0x3C)] = true := by
  decide

/-- 43_alu8.md R289 to R296, 45_rotate_shift.md R320 to R323. -/
theorem test_decode_step_and_acc :
    decodes [
      ([0b00_000_100], .incR .b), ([0b00110100], .incHl), ([0b00_001_101], .decR .c), ([0b00110101], .decHl),
      ([0b00100111], .daa), ([0b00101111], .cpl), ([0b00110111], .scf), ([0b00111111], .ccf),
      ([0b00000111], .rlca), ([0b00001111], .rrca), ([0b00010111], .rla), ([0b00011111], .rra)] = true := by
  decide

/-- 44_alu16.md R310 to R313. -/
theorem test_decode_alu16 :
    decodes [
      ([0b00_10_1001], .addHlRr .hl), ([0b00_00_0011], .incRr .bc), ([0b00_11_1011], .decRr .sp),
      ([0b11101000, 0xFE], .addSpE 0xFE)] = true := by
  decide

/-- 47_control.md R350 to R361. -/
theorem test_decode_control :
    decodes [
      ([0b11000011, 0x37, 0x06], .jpNn 0x0637), ([0b110_00_010, 0x00, 0xD0], .jpCcNn .nz 0xD000),
      ([0b11101001], .jpHl), ([0b00011000, 0xFE], .jrE 0xFE), ([0b001_11_000, 0x10], .jrCcE .c 0x10),
      ([0b11001101, 0x00, 0xD0], .callNn 0xD000), ([0b110_01_100, 0x00, 0xD0], .callCcNn .z 0xD000),
      ([0b11001001], .ret), ([0b110_10_000], .retCc .nc), ([0b11011001], .reti), ([0b11_111_111], .rst 7)] = true := by
  decide

/-- 48_misc.md R370 to R376. -/
theorem test_decode_misc :
    decodes [
      ([0b00000000], .nop), ([0b01110110], .halt), ([0b00010000, 0x00], .stop 0x00), ([0b11110011], .di),
      ([0b11111011], .ei), ([0b11010011], .illegal 0xD3)] = true := by
  decide

/-- 45_rotate_shift.md R324 to R332, 46_bit.md R340 to R342. -/
theorem test_decode_cb :
    decodes [
      ([0xCB, 0b00000_000], .rlc (.reg .b)), ([0xCB, 0b00001_001], .rrc (.reg .c)),
      ([0xCB, 0b00010_010], .rl (.reg .d)), ([0xCB, 0b00011_011], .rr (.reg .e)),
      ([0xCB, 0b00100_111], .sla (.reg .a)), ([0xCB, 0b00101_110], .sra .atHl),
      ([0xCB, 0b00110_111], .swap (.reg .a)), ([0xCB, 0b00111_101], .srl (.reg .l)),
      ([0xCB, 0b01_111_100], .bitB 7 (.reg .h)), ([0xCB, 0b10_111_110], .resB 7 .atHl),
      ([0xCB, 0b11_000_000], .setB 0 (.reg .b))] = true := by
  decide

/-- 48_misc.md R375: the row PREFIX_CB is the escape byte; a pair decodes to its CB row, and 0xCB alone is truncated. -/
theorem test_decode_escape : decode [0xCB] = .error (.truncated 0xCB) ∧ execPrefixCb 0x00 = execRlc (.reg .b) := ⟨by decide, rfl⟩

theorem test_decode_truncated : decode [] = .error .noBytes ∧ decode [0xC3, 0x37] = .error (.truncated 0xC3) := by decide

/-- 30_encoding.md R162: the low byte is the lower one in the table's numbering too. -/
theorem test_table_word : decodeTableWord 24 0x0637C3 = some (.jpNn 0x0637) ∧ decodeTableWord 8 0x3E = some (.ldRN .a 0x00) ∧
    decodeTableWord 16 0x37CB = some (.swap (.reg .a)) := by
  decide

/-- 30_encoding.md R174: assembler text. -/
theorem test_asm : Instr.asm (.jpNn 0x0637) = "JP 0x0637" ∧ Instr.asm (.ldRHl .a) = "LD A,(HL)" ∧
    Instr.asm (.bitB 7 .atHl) = "BIT 7,(HL)" ∧ Instr.asm .ldAHli = "LD A,(HL+)" := by
  decide

/-! ## One step, results from 95_test_vectors.md -/

/-- L1. -/
theorem test_ldRR : after ((base 0xC000 [0x41]).setRR .bc 0x005A) (look .b) = some (0x5A, 0xB0, 0xC001, some 1) := by decide

/-- L3. -/
theorem test_ldRHl :
    after (atHl (base 0xC000 [0x7E]) 0xC100 0x9C) (look .a) = some (0x9C, 0xB0, 0xC001, some 2) := by decide

/-- L17. -/
theorem test_ldRHl_forbidden :
    raised ((base 0xC000 [0x46]).setRR .hl 0xFEA0) = some (.forbiddenAddress 0xFEA0 .read, 0xC001, 0xFFFE) := by decide

/-- L4: H is stored to the address that holds it. -/
theorem test_ldHlR : after ((base 0xC000 [0x74]).setRR .hl 0xC123) (cell 0xC123) = some (some 0xC1, some 2) := by decide

/-- L5. -/
theorem test_ldRN : after (base 0xC000 [0x0E, 0xA7]) (look .c) = some (0xA7, 0xB0, 0xC002, some 2) := by decide

/-- L6. -/
theorem test_ldHlN :
    after ((base 0xC000 [0x36, 0x5E]).setRR .hl 0xFF90) (cell 0xFF90) = some (some 0x5E, some 3) := by decide

/-- L7. -/
theorem test_ldABc :
    after (((base 0xC000 [0x0A]).place 0xC200 0x11).setRR .bc 0xC200) (look .a) =
      some (0x11, 0xB0, 0xC001, some 2) := by decide

/-- R236, as L7. -/
theorem test_ldADe :
    after (((base 0xC000 [0x1A]).place 0xC200 0x11).setRR .de 0xC200) (look .a) =
      some (0x11, 0xB0, 0xC001, some 2) := by decide

/-- L8. -/
theorem test_ldDeA :
    after (((base 0xC000 [0x12]).setRR .de 0xC201).setR8 .a 0x77) (cell 0xC201) = some (some 0x77, some 2) := by decide

/-- R237, as L8. -/
theorem test_ldBcA :
    after (((base 0xC000 [0x02]).setRR .bc 0xC201).setR8 .a 0x77) (cell 0xC201) = some (some 0x77, some 2) := by decide

/-- L9: the carry goes into H. -/
theorem test_ldAHli :
    after (atHl (base 0xC000 [0x2A]) 0xC0FF 0x42) (fun t => (t.regs.a, t.getRR .hl)) = some (0x42, 0xC100) := by decide

/-- R240: HL wraps below 0x0000. -/
theorem test_ldAHld :
    after (atHl (base 0xC000 [0x3A]) 0x0000 0x42) (fun t => (t.regs.a, t.getRR .hl)) = some (0x42, 0xFFFF) := by decide

/-- L10. -/
theorem test_ldHldA :
    after (((base 0xC000 [0x32]).setRR .hl 0xC100).setR8 .a 0x99) (fun t => (t.peek 0xC100, t.getRR .hl)) =
      some (some 0x99, 0xC0FF) := by decide

/-- R241. -/
theorem test_ldHliA :
    after (((base 0xC000 [0x22]).setRR .hl 0xC100).setR8 .a 0x99) (fun t => (t.peek 0xC100, t.getRR .hl)) =
      some (some 0x99, 0xC101) := by decide

/-- L11. -/
theorem test_ldANn :
    after ((base 0xC000 [0xFA, 0x34, 0xC2]).place 0xC234 0xE1) (look .a) = some (0xE1, 0xB0, 0xC003, some 4) := by decide

/-- L12. -/
theorem test_ldNnA_forbidden :
    raised (base 0xC000 [0xEA, 0x00, 0xE0]) = some (.forbiddenAddress 0xE000 .write, 0xC003, 0xFFFE) := by decide

/-- L13. -/
theorem test_ldhNA : after ((base 0xC000 [0xE0, 0x80]).setR8 .a 0x5A) (cell 0xFF80) = some (some 0x5A, some 3) := by decide

/-- L14: IF holds 01 at reset. -/
theorem test_ldhAN :
    after ((base 0xC000 [0xF0, 0x0F]).setR8 .a 0x00) (look .a) = some (0x01, 0xB0, 0xC002, some 3) := by decide

/-- L15. -/
theorem test_ldhCA :
    after (((base 0xC000 [0xE2]).setR8 .c 0xFF).setR8 .a 0x1F) (fun t => (t.ie, t.elapsed)) =
      some (0x1F, some 2) := by decide

/-- L16. -/
theorem test_ldhAC :
    after ({ (base 0xC000 [0xF2]).setR8 .c 0x07 with timer := { State.reset.timer with tac := 5 } }) (look .a) =
      some (0x05, 0xB0, 0xC001, some 2) := by decide

/-- W1. -/
theorem test_ldRrNn :
    after (base 0xC000 [0x01, 0x34, 0x12]) (fun t => (t.regs.b, t.regs.c, t.elapsed)) =
      some (0x12, 0x34, some 3) := by decide

/-- W3: the low byte lies lower. -/
theorem test_ldNnSp :
    after ((base 0xC000 [0x08, 0x00, 0xC3]).setSp 0xABCD) (fun t => (t.peek 0xC300, t.peek 0xC301, t.elapsed)) =
      some (some 0xCD, some 0xAB, some 5) := by decide

/-- W4. -/
theorem test_ldSpHl : after ((base 0xC000 [0xF9]).setRR .hl 0xC800) jump = some (0xC800, 0xC001, some 2) := by decide

/-- W5: the high byte lies higher. -/
theorem test_push :
    after (((base 0xC000 [0xC5]).setRR .bc 0x1234).setSp 0xD000) (fun t => (t.peek 0xCFFF, t.peek 0xCFFE, t.regs.sp)) =
      some (some 0x12, some 0x34, 0xCFFE) := by decide

/-- W8: SP is left at the refused byte. -/
theorem test_push_fault :
    raised (((base 0xC000 [0xD5]).setRR .de 0xBEEF).setSp 0xE002) =
      some (.forbiddenAddress 0xE001 .write, 0xC001, 0xE001) := by decide

/-- W6: the low nibble of F reads 0. -/
theorem test_pop_af :
    after ((((base 0xC000 [0xF1]).place 0xCFFE 0xFF).place 0xCFFF 0x12).setSp 0xCFFE) (fun t => (t.getQQ .af, t.regs.sp)) =
      some (0x12F0, 0xD000) := by decide

/-- W11. -/
theorem test_pop_wraps :
    after { (base 0xC000 [0xC1]).setSp 0xFFFE with ie := 0x1F } (fun t => (t.getQQ .bc, t.regs.sp)) =
      some (0x1F00, 0x0000) := by decide

/-- W9. -/
theorem test_ldHlSpE_minus :
    after ((base 0xC000 [0xF8, 0xFF]).setSp 0x0000) (fun t => (t.getRR .hl, t.regs.f.toByte)) =
      some (0xFFFF, 0x00) := by decide

/-- W10. -/
theorem test_ldHlSpE_plus :
    after ((base 0xC000 [0xF8, 0x01]).setSp 0x00FF) (fun t => (t.getRR .hl, t.regs.f.toByte)) =
      some (0x0100, 0x30) := by decide

/-- A1. -/
theorem test_addR :
    after (withF (((base 0xC000 [0x80]).setR8 .a 0x3A).setR8 .b 0xC6) 0x00) (look .a) =
      some (0x00, 0xB0, 0xC001, some 1) := by decide

/-- A2. -/
theorem test_addN :
    after (withF (((base 0xC000 [0xC6, 0x0F]).setR8 .a 0x01).setR8 .b 0x00) 0x00) (look .a) =
      some (0x10, 0x20, 0xC002, some 2) := by decide

/-- A3. -/
theorem test_adcN :
    after (withF (((base 0xC000 [0xCE, 0x0E]).setR8 .a 0x01).setR8 .b 0x00) 0x10) (look .a) =
      some (0x10, 0x20, 0xC002, some 2) := by decide

/-- A4. -/
theorem test_adcR :
    after (withF (((base 0xC000 [0x88]).setR8 .a 0xFF).setR8 .b 0x00) 0x10) (look .a) =
      some (0x00, 0xB0, 0xC001, some 1) := by decide

/-- A5. -/
theorem test_subR :
    after (withF (((base 0xC000 [0x90]).setR8 .a 0x3E).setR8 .b 0x3E) 0x00) (look .a) =
      some (0x00, 0xC0, 0xC001, some 1) := by decide

/-- A6. -/
theorem test_subN :
    after (withF (((base 0xC000 [0xD6, 0x0F]).setR8 .a 0x3E).setR8 .b 0x00) 0x00) (look .a) =
      some (0x2F, 0x60, 0xC002, some 2) := by decide

/-- A7. -/
theorem test_subHl :
    after (withF ((atHl (base 0xC000 [0x96]) 0xC100 0x40).setR8 .a 0x3E) 0x00) (look .a) =
      some (0xFE, 0x50, 0xC001, some 2) := by decide

/-- A8. -/
theorem test_sbcN :
    after (withF (((base 0xC000 [0xDE, 0x3A]).setR8 .a 0x3B).setR8 .b 0x00) 0x10) (look .a) =
      some (0x00, 0xC0, 0xC002, some 2) := by decide

/-- A9. -/
theorem test_sbcR :
    after (withF (((base 0xC000 [0x98]).setR8 .a 0x00).setR8 .b 0xFF) 0x10) (look .a) =
      some (0x00, 0xF0, 0xC001, some 1) := by decide

/-- A10. -/
theorem test_andR :
    after (withF (((base 0xC000 [0xA1]).setR8 .a 0x5A).setR8 .c 0x3F) 0x00) (look .a) =
      some (0x1A, 0x20, 0xC001, some 1) := by decide

/-- A11. -/
theorem test_andN :
    after (withF (((base 0xC000 [0xE6, 0x00]).setR8 .a 0xFF).setR8 .b 0x00) 0x10) (look .a) =
      some (0x00, 0xA0, 0xC002, some 2) := by decide

/-- A12: both operands are A. -/
theorem test_xorR :
    after (withF (((base 0xC000 [0xAF]).setR8 .a 0x55).setR8 .b 0x00) 0xF0) (look .a) =
      some (0x00, 0x80, 0xC001, some 1) := by decide

/-- A13. -/
theorem test_orR :
    after (withF (((base 0xC000 [0xB2]).setR8 .a 0x10).setR8 .d 0x01) 0xF0) (look .a) =
      some (0x11, 0x00, 0xC001, some 1) := by decide

/-- A14. -/
theorem test_cpN_equal :
    after (withF (((base 0xC000 [0xFE, 0x3C]).setR8 .a 0x3C).setR8 .b 0x00) 0x00) (look .a) =
      some (0x3C, 0xC0, 0xC002, some 2) := by decide

/-- A15. -/
theorem test_cpN_less :
    after (withF (((base 0xC000 [0xFE, 0x40]).setR8 .a 0x3C).setR8 .b 0x00) 0x00) (look .a) =
      some (0x3C, 0x50, 0xC002, some 2) := by decide

/-- R280, R281, operands of A1. -/
theorem test_addHl :
    after (withF ((atHl (base 0xC000 [0x86]) 0xC100 0xC6).setR8 .a 0x3A) 0x00) (look .a) =
      some (0x00, 0xB0, 0xC001, some 2) := by decide

/-- R280, R282, operands of A3. -/
theorem test_adcHl :
    after (withF ((atHl (base 0xC000 [0x8E]) 0xC100 0x0E).setR8 .a 0x01) 0x10) (look .a) =
      some (0x10, 0x20, 0xC001, some 2) := by decide

/-- R280, R284, operands of A8. -/
theorem test_sbcHl :
    after (withF ((atHl (base 0xC000 [0x9E]) 0xC100 0x3A).setR8 .a 0x3B) 0x10) (look .a) =
      some (0x00, 0xC0, 0xC001, some 2) := by decide

/-- R280, R285, operands of A10. -/
theorem test_andHl :
    after (withF ((atHl (base 0xC000 [0xA6]) 0xC100 0x3F).setR8 .a 0x5A) 0x00) (look .a) =
      some (0x1A, 0x20, 0xC001, some 2) := by decide

/-- R280, R286. -/
theorem test_xorHl :
    after (withF ((atHl (base 0xC000 [0xAE]) 0xC100 0x0F).setR8 .a 0xFF) 0xF0) (look .a) =
      some (0xF0, 0x00, 0xC001, some 2) := by decide

/-- R280, R287, operands of A13. -/
theorem test_orHl :
    after (withF ((atHl (base 0xC000 [0xB6]) 0xC100 0x01).setR8 .a 0x10) 0xF0) (look .a) =
      some (0x11, 0x00, 0xC001, some 2) := by decide

/-- R280, R288, operands of A15. -/
theorem test_cpHl :
    after (withF ((atHl (base 0xC000 [0xBE]) 0xC100 0x40).setR8 .a 0x3C) 0x00) (look .a) =
      some (0x3C, 0x50, 0xC001, some 2) := by decide

/-- E4, A16. -/
theorem test_incR :
    after (withF ((base 0xC000 [0x04]).setR8 .b 0x0F) 0x00) (look .b) = some (0x10, 0x20, 0xC001, some 1) := by decide

/-- A17: C is kept. -/
theorem test_incR_wrap :
    after (withF (((base 0xC000 [0x3C]).setR8 .a 0xFF).setR8 .b 0x00) 0x10) (look .a) =
      some (0x00, 0xB0, 0xC001, some 1) := by decide

/-- A18. -/
theorem test_incHl : after (atHl (base 0xC000 [0x34]) 0xC100 0x7F) (cell 0xC100) = some (some 0x80, some 3) := by decide

/-- A19. -/
theorem test_decR :
    after (withF ((base 0xC000 [0x05]).setR8 .b 0x01) 0x00) (look .b) = some (0x00, 0xC0, 0xC001, some 1) := by decide

/-- A20: C is kept. -/
theorem test_decR_wrap :
    after (withF ((base 0xC000 [0x0D]).setR8 .c 0x00) 0x10) (look .c) = some (0xFF, 0x70, 0xC001, some 1) := by decide

/-- A21. -/
theorem test_decHl : after (atHl (base 0xC000 [0x35]) 0xC100 0x10) (cell 0xC100) = some (some 0x0F, some 3) := by decide

/-- A23. -/
theorem test_daa_add :
    after (withF (((base 0xC000 [0x27]).setR8 .a 0x9A).setR8 .b 0x00) 0x00) (look .a) =
      some (0x00, 0x90, 0xC001, some 1) := by decide

/-- A25. -/
theorem test_daa_sub :
    after (withF (((base 0xC000 [0x27]).setR8 .a 0x00).setR8 .b 0x00) 0xD0) (look .a) =
      some (0xA0, 0x50, 0xC001, some 1) := by decide

/-- A26. -/
theorem test_cpl :
    after (withF (((base 0xC000 [0x2F]).setR8 .a 0x35).setR8 .b 0x00) 0x00) (look .a) =
      some (0xCA, 0x60, 0xC001, some 1) := by decide

/-- A27. -/
theorem test_scf :
    after (withF (((base 0xC000 [0x37]).setR8 .a 0x01).setR8 .b 0x00) 0xE0) (look .a) =
      some (0x01, 0x90, 0xC001, some 1) := by decide

/-- A28. -/
theorem test_ccf :
    after (withF (((base 0xC000 [0x3F]).setR8 .a 0x01).setR8 .b 0x00) 0x90) (look .a) =
      some (0x01, 0x80, 0xC001, some 1) := by decide

/-- A29. -/
theorem test_ccf_from_zero :
    after (withF (((base 0xC000 [0x3F]).setR8 .a 0x01).setR8 .b 0x00) 0x60) (look .a) =
      some (0x01, 0x10, 0xC001, some 1) := by decide

/-- B1. -/
theorem test_addHlRr :
    after (withF (((base 0xC000 [0x09]).setRR .hl 0x8A23).setRR .bc 0x0605) 0x00)
      (fun t => (t.getRR .hl, t.regs.f.toByte)) =
      some (0x9028, 0x20) := by decide

/-- B2: Z is kept. -/
theorem test_addHlRr_self :
    after (withF ((base 0xC000 [0x29]).setRR .hl 0x8A23) 0x80) (fun t => (t.getRR .hl, t.regs.f.toByte)) =
      some (0x1446, 0xB0) := by decide

/-- B4. -/
theorem test_incRr :
    after (withF ((base 0xC000 [0x03]).setRR .bc 0xFFFF) 0x00) (fun t => (t.getRR .bc, t.regs.f.toByte)) =
      some (0x0000, 0x00) := by decide

/-- B5. -/
theorem test_decRr :
    after (withF ((base 0xC000 [0x3B]).setSp 0x0000) 0xF0) (fun t => (t.getRR .sp, t.regs.f.toByte)) =
      some (0xFFFF, 0xF0) := by decide

/-- B6. -/
theorem test_addSpE :
    after (withF ((base 0xC000 [0xE8, 0x08]).setSp 0xFFF8) 0x00) (fun t => (t.getRR .sp, t.regs.f.toByte)) =
      some (0x0000, 0x30) := by decide

/-- B7. -/
theorem test_addSpE_minus :
    after (withF ((base 0xC000 [0xE8, 0xFE]).setSp 0x0001) 0xC0) (fun t => (t.getRR .sp, t.regs.f.toByte)) =
      some (0xFFFF, 0x00) := by decide

/-- S1. -/
theorem test_rlca :
    after (withF (((base 0xC000 [0x07]).setR8 .a 0x85).setR8 .b 0x00) 0x00) (look .a) =
      some (0x0B, 0x10, 0xC001, some 1) := by decide

/-- S2: Z is cleared whatever the result. -/
theorem test_rlca_zero :
    after (withF (((base 0xC000 [0x07]).setR8 .a 0x00).setR8 .b 0x00) 0x80) (look .a) =
      some (0x00, 0x00, 0xC001, some 1) := by decide

/-- S3. -/
theorem test_rrca :
    after (withF (((base 0xC000 [0x0F]).setR8 .a 0x01).setR8 .b 0x00) 0x00) (look .a) =
      some (0x80, 0x10, 0xC001, some 1) := by decide

/-- S4. -/
theorem test_rla :
    after (withF (((base 0xC000 [0x17]).setR8 .a 0x80).setR8 .b 0x00) 0x00) (look .a) =
      some (0x00, 0x10, 0xC001, some 1) := by decide

/-- S5. -/
theorem test_rra :
    after (withF (((base 0xC000 [0x1F]).setR8 .a 0x01).setR8 .b 0x00) 0x10) (look .a) =
      some (0x80, 0x10, 0xC001, some 1) := by decide

/-- S6. -/
theorem test_rlc :
    after (withF ((base 0xC000 [0xCB, 0x00]).setR8 .b 0x00) 0x10) (look .b) = some (0x00, 0x80, 0xC002, some 2) := by decide

/-- S7. -/
theorem test_rlc_hl :
    after (atHl (base 0xC000 [0xCB, 0x06]) 0xC100 0x81) (cell 0xC100) = some (some 0x03, some 4) := by decide

/-- S8. -/
theorem test_rrc :
    after (withF ((base 0xC000 [0xCB, 0x09]).setR8 .c 0x01) 0x00) (look .c) = some (0x80, 0x10, 0xC002, some 2) := by decide

/-- S9. -/
theorem test_rl :
    after (withF ((base 0xC000 [0xCB, 0x12]).setR8 .d 0x80) 0x00) (look .d) = some (0x00, 0x90, 0xC002, some 2) := by decide

/-- S10. -/
theorem test_rr :
    after (withF ((base 0xC000 [0xCB, 0x1B]).setR8 .e 0x01) 0x10) (look .e) = some (0x80, 0x10, 0xC002, some 2) := by decide

/-- S11. -/
theorem test_sla :
    after (withF ((base 0xC000 [0xCB, 0x27]).setR8 .a 0x80) 0x00) (look .a) = some (0x00, 0x90, 0xC002, some 2) := by decide

/-- S12. -/
theorem test_sra :
    after (withF ((base 0xC000 [0xCB, 0x28]).setR8 .b 0x81) 0x00) (look .b) = some (0xC0, 0x10, 0xC002, some 2) := by decide

/-- S13. -/
theorem test_swap :
    after (withF ((base 0xC000 [0xCB, 0x37]).setR8 .a 0xF1) 0xF0) (look .a) = some (0x1F, 0x00, 0xC002, some 2) := by decide

/-- S15. -/
theorem test_srl :
    after (withF ((base 0xC000 [0xCB, 0x3F]).setR8 .a 0x01) 0x00) (look .a) = some (0x00, 0x90, 0xC002, some 2) := by decide

/-- T1. -/
theorem test_bitB :
    after (withF ((base 0xC000 [0xCB, 0x7C]).setR8 .h 0x80) 0x00) (look .h) = some (0x80, 0x20, 0xC002, some 2) := by decide

/-- T2: C is kept. -/
theorem test_bitB_clear :
    after (withF ((base 0xC000 [0xCB, 0x47]).setR8 .a 0x00) 0x10) (look .a) = some (0x00, 0xB0, 0xC002, some 2) := by decide

/-- T4. -/
theorem test_resB :
    after (withF ((base 0xC000 [0xCB, 0x87]).setR8 .a 0xFF) 0x00) (look .a) = some (0xFE, 0x00, 0xC002, some 2) := by decide

/-- T5. -/
theorem test_resB_hl :
    after (atHl (base 0xC000 [0xCB, 0xBE]) 0xC100 0xFF) (cell 0xC100) = some (some 0x7F, some 4) := by decide

/-- T7: the flags are kept. -/
theorem test_setB :
    after (withF ((base 0xC000 [0xCB, 0xC0]).setR8 .b 0x00) 0x50) (look .b) = some (0x01, 0x50, 0xC002, some 2) := by decide

/-- T6. -/
theorem test_setB_hl :
    after (atHl (base 0xC000 [0xCB, 0xFE]) 0xC100 0x00) (cell 0xC100) = some (some 0x80, some 4) := by decide

/-- E2, J1. -/
theorem test_jpNn : after (base 0x0100 [0xC3, 0x37, 0x06]) jump = some (0xFFFE, 0x0637, some 4) := by decide

/-- J2. -/
theorem test_jpCcNn_taken :
    after (withF (base 0xC000 [0xC2, 0x00, 0xD0]) 0x00) jump = some (0xFFFE, 0xD000, some 4) := by decide

/-- J3. -/
theorem test_jpCcNn_not_taken :
    after (withF (base 0xC000 [0xC2, 0x00, 0xD0]) 0x80) jump = some (0xFFFE, 0xC003, some 3) := by decide

/-- J4. -/
theorem test_jpHl : after ((base 0xC000 [0xE9]).setRR .hl 0x4000) jump = some (0xFFFE, 0x4000, some 1) := by decide

/-- J7. -/
theorem test_jrE : after (base 0xC000 [0x18, 0x80]) jump = some (0xFFFE, 0xBF82, some 3) := by decide

/-- J5. -/
theorem test_jrE_self : after (base 0xC000 [0x18, 0xFE]) jump = some (0xFFFE, 0xC000, some 3) := by decide

/-- J8. -/
theorem test_jrCcE_not_taken :
    after (withF (base 0xC000 [0x38, 0x10]) 0x00) jump = some (0xFFFE, 0xC002, some 2) := by decide

/-- J9. -/
theorem test_jrCcE_taken : after (withF (base 0xC000 [0x38, 0x10]) 0x10) jump = some (0xFFFE, 0xC012, some 3) := by decide

/-- J10. -/
theorem test_callNn :
    after ((base 0xC000 [0xCD, 0x00, 0xD0]).setSp 0xD000) jump = some (0xCFFE, 0xD000, some 6) := by decide

/-- J10: the address after the call is pushed. -/
theorem test_callNn_stack :
    after ((base 0xC000 [0xCD, 0x00, 0xD0]).setSp 0xD000) (cell 0xCFFE) = some (some 0x03, some 6) := by decide

/-- J11. -/
theorem test_callCcNn_not_taken :
    after (withF ((base 0xC000 [0xCC, 0x00, 0xD0]).setSp 0xD000) 0x00) jump = some (0xD000, 0xC003, some 3) := by decide

/-- J12. -/
theorem test_callCcNn_taken :
    after (withF ((base 0xC000 [0xDC, 0x00, 0xD0]).setSp 0xD000) 0x10) jump = some (0xCFFE, 0xD000, some 6) := by decide

/-- J13. -/
theorem test_ret :
    after ((((base 0xC000 [0xC9]).place 0xCFFE 0x37).place 0xCFFF 0x06).setSp 0xCFFE) jump =
      some (0xD000, 0x0637, some 4) := by decide

/-- J14. -/
theorem test_retCc_not_taken :
    after (withF ((((base 0xC000 [0xD0]).place 0xCFFE 0x37).place 0xCFFF 0x06).setSp 0xCFFE) 0x10) jump =
      some (0xCFFE, 0xC001, some 2) := by decide

/-- J15. -/
theorem test_retCc_taken :
    after (withF ((((base 0xC000 [0xD8]).place 0xCFFE 0x37).place 0xCFFF 0x06).setSp 0xCFFE) 0x10) jump =
      some (0xD000, 0x0637, some 5) := by decide

/-- J16: IME is set at once. -/
theorem test_reti :
    after ((((base 0xC000 [0xD9]).place 0xFFFC 0x53).place 0xFFFD 0x01).setSp 0xFFFC)
      (fun t => (t.regs.pc, t.regs.sp, t.ime, t.imePending)) =
      some (0x0153, 0xFFFE, true, false) := by decide

/-- J17. -/
theorem test_rst : after ((base 0xC000 [0xFF]).setSp 0xD000) jump = some (0xCFFE, 0x0038, some 4) := by decide

/-- E1. -/
theorem test_nop : after (base 0x0100 [0x00]) jump = some (0xFFFE, 0x0101, some 1) := by decide

/-- M2. -/
theorem test_halt : after (base 0xC000 [0x76]) (fun t => (t.halted, t.regs.pc)) = some (true, 0xC001) := by decide

/-- M4. -/
theorem test_halt_bug :
    raised ({ base 0xC000 [0x76] with ie := 0x01 }) = some (.haltBug 0xC000, 0xC001, 0xFFFE) := by decide

/-- M5. -/
theorem test_stop : raised (base 0xC000 [0x10, 0x00]) = some (.unsupportedStop 0xC000, 0xC002, 0xFFFE) := by decide

/-- M6. -/
theorem test_di :
    after { base 0xC000 [0xF3] with ime := true } (fun t => (t.ime, t.regs.pc)) = some (false, 0xC001) := by decide

/-- M7. -/
theorem test_ei :
    after { base 0xC000 [0xFB] with ie := 0x01 } (fun t => (t.ime, t.imePending)) = some (false, true) := by decide

/-- M8, its second step. -/
theorem test_ei_commits :
    after { base 0xC000 [0x00] with ie := 0x01, imePending := true } (fun t => (t.ime, t.imePending)) =
      some (true, false) := by decide

/-- M11: PC stays at the origin. -/
theorem test_illegal : raised (base 0xC000 [0xD3]) = some (.unknownOpcode 0xD3 none 0xC000, 0xC000, 0xFFFE) := by decide

/-- R375, the pair of S13. -/
theorem test_prefixCb :
    (match exec (.prefixCb 0x37) ((base 0xC000 [0xCB, 0x37]).setR8 .a 0xF1) with | .next t => some (look .a t) | _ => none) =
      some (0x1F, 0x00, 0xC002, some 2) := by decide

/-- R376: 0xCB outside `P_IMPLEMENTED` (PREFIX_CB is row 81 of the table); its second byte, in a forbidden zone, is not read. -/
theorem test_prefixCb_outside :
    raised { base 0xDFFF [0xCB] with unimplemented := [81] } = some (.unknownOpcode 0xCB none 0xDFFF, 0xDFFF, 0xFFFE) := by
  decide

/-! ## Interrupts, the timer and the cartridge -/

/-- I1: vblank goes first; IME and the request are cleared. -/
theorem test_dispatch_order :
    after { (base 0xC123 [0x00]).setSp 0xD000 with ime := true, ie := 0x05, ifl := 0x05 }
      (fun t => (t.regs.pc, t.regs.sp, t.ime, t.ifl, t.peek 0xCFFF)) =
      some (0x0040, 0xCFFE, false, 0x04, some 0xC1) := by decide

/-- I2: the request that is not enabled is skipped. -/
theorem test_dispatch_scenario :
    after { (base 0xC123 [0x00]).setSp 0xD000 with ime := true, ie := 0x04, ifl := 0x05 } jump =
      some (0xCFFE, 0x0050, some 5) := by decide

/-- I6. -/
theorem test_dispatch_push_fault :
    raised ({ (base 0xC000 [0x00]).setSp 0xE001 with ime := true, ie := 0x01 }) =
      some (.forbiddenAddress 0xE000 .write, 0xC000, 0xE000) := by decide

/-- I4. -/
theorem test_ime_gate :
    after ({ base 0xC000 [0x00] with ie := 0x1F, ifl := 0x1F }) jump = some (0xFFFE, 0xC001, some 1) := by decide

/-- X4. -/
theorem test_timer_overflow :
    after { base 0xC000 [0x00] with timer := { div := 0x000C, tima := 0xFF, tma := 0xAB, tac := 5 } }
      (fun t => (t.timer.tima, t.timer.div, t.ifl)) =
      some (0xAB, 0x0010, 0x05) := by decide

/-- X5, its first step. -/
theorem test_timer_disabled :
    after { base 0xC000 [0x00] with timer := { div := 0x0000, tima := 0x00, tma := 0x00, tac := 1 } }
      (fun t => (t.timer.tima, t.timer.div, t.ifl)) =
      some (0x00, 0x0004, 0x01) := by decide

/-- X6. -/
theorem test_timer_bit9 :
    after { base 0xC000 [0x00] with timer := { div := 0x03FC, tima := 0x00, tma := 0x00, tac := 4 } }
      (fun t => (t.timer.tima, t.timer.div, t.ifl)) =
      some (0x01, 0x0400, 0x01) := by decide

/-- X7: the write of DIV makes no edge. -/
theorem test_div_write :
    after { base 0xC000 [0xE0, 0x04] with timer := { div := 0x000F, tima := 0x00, tma := 0x00, tac := 5 } }
      (fun t => (t.timer.tima, t.timer.div, t.ifl)) =
      some (0x00, 0x000C, 0x01) := by decide

/-- X8. -/
theorem test_div_read :
    after ({ base 0xC000 [0xF0, 0x04] with timer := { div := 0xAB00, tima := 0x00, tma := 0x00, tac := 0 } }) (look .a) =
      some (0xAB, 0xB0, 0xC002, some 3) := by decide

/-- K7. -/
theorem test_romOnly_window :
    raised (base 0xC000 [0xFA, 0x00, 0xA0]) = some (.romOutOfBounds 0xA000, 0xC003, 0xFFFE) := by decide

/-- K9, its second step. -/
theorem test_fetch_forbidden : raised (base 0xE000 []) = some (.forbiddenAddress 0xE000 .fetch, 0xE000, 0xFFFE) := by decide

/-- K10. -/
theorem test_ie_masks :
    after ((base 0xC000 [0xE0, 0xFF]).setR8 .a 0xFF) (fun t => (t.ie, t.elapsed)) = some (0x1F, some 3) := by decide

/-- An image of an MBC1 cartridge with `0xB0 + k` at 0x3FFF of bank `k` (95_test_vectors.md, §6). -/
def mbc1Rom (code ram : Byte) : Image :=
  { size := 0x8000 <<< code.toNat
    bytes := [(0x147, 0x03), (0x148, code), (0x149, ram), (0x3FFF, 0xB0), (0x7FFF, 0xB1), (0xBFFF, 0xB2), (0xFFFF, 0xB3)] }

/-- The parameters of a block with that cartridge. -/
def mbc1Params (code ram : Byte) (save : Image) : Params :=
  { rom := mbc1Rom code ram, save := save, initMem := [], divInit := 0x0000, unimplemented := [], ioScript := [],
    agents := [] }

/-- The block, or the reset state where construction refuses. -/
def built (p : Params) : State :=
  match construct p with
  | .ok s => s
  | .error _ => State.reset

/-- A 64 KiB MBC1 cartridge with 8 KiB of RAM. -/
def mbc1Block : State := built (mbc1Params 0x01 0x02 { size := 0x2000, bytes := [(5, 0x66)] })

/-- That block with one MBC1 register file. -/
def withMbc1 (ramEn : Bool) (romb : BitVec 5) (bank2 : BitVec 2) (mode : BitVec 1) : State :=
  { mbc1Block with cart := { mbc1Block.cart with ctl := .mbc1 { ramEn := ramEn, romb := romb, bank2 := bank2, mode := mode } } }

/-- K2, K3: a stored 0 acts as 1; bank 7 of four reads bank 3. -/
theorem test_bank_windows : (withMbc1 false 0 0 0).peek 0x7FFF = some 0xB1 ∧ (withMbc1 false 7 0 0).peek 0x7FFF = some 0xB3 := by
  decide

/-- K4: with MODE 1 and BANK2 1 the low window reads bank 0x20, which is bank 0 of four. -/
theorem test_low_window : (withMbc1 false 1 1 1).peek 0x3FFF = some 0xB0 := by decide

/-- K5, K6: the RAM window. -/
theorem test_ram_window : (withMbc1 false 1 0 0).peek 0xA005 = some 0xFF ∧ (withMbc1 true 1 0 0).peek 0xA005 = some 0x66 := by
  decide

/-- 20_memory.md R121, R124 to R127: each check of the header refuses on its own. -/
theorem test_construction_checks :
    (construct { mbc1Params 0 0 { size := 0, bytes := [] } with rom := { size := 0x14F, bytes := [] } }).toOption = none ∧
    construct { mbc1Params 0 0 { size := 0, bytes := [] } with rom := { size := 0x8000, bytes := [(0x143, 0x7F)] } }
      = .error .badHeader ∧
    construct { mbc1Params 0 0 { size := 0, bytes := [] } with rom := { size := 0x8000, bytes := [(0x147, 0x04)] } }
      = .error .unknownCartType ∧
    construct (mbc1Params 9 0 { size := 0, bytes := [] }) = .error .badHeader ∧
    construct (mbc1Params 0 1 { size := 0, bytes := [] }) = .error .badHeader ∧
    construct { mbc1Params 0 0 { size := 0, bytes := [] } with rom := { size := 0x8001, bytes := [] } }
      = .error .romSizeMismatch := by
  decide

/-- 20_memory.md R123: the title has 15 bytes under a dual-mode target byte, else 16. -/
theorem test_title : ({ size := 0x8000, bytes := [(0x134, 0x5A), (0x143, 0x80)] } : Image).title.length = 15 ∧
    ({ size := 0x8000, bytes := [] } : Image).title.length = 16 := by
  decide

/-- 40_engine.md R205, R208: a Tick ends at the first iteration that is told frame-ready. -/
theorem test_tick : (match tick 3 { base 0xC000 [0x00, 0x00] with
      agents := [.quiet, { AgentTurn.quiet with frameReady := true }] } with
    | some (.next t) => some (t.regs.pc, t.tickEnded)
    | _ => none) = some (0xC002, true) := by
  decide

/-- The word is fetched and run as the first instruction. -/
theorem test_withFetchWord : after (State.reset.withFetchWord 24 0x0637C3) jump = some (0xFFFE, 0x0637, some 4) ∧
    after (State.reset.withFetchWord 16 0x423E) (look .a) = some (0x42, 0xB0, 0x0102, some 2) := by
  decide
/-! ## Witnesses for the hypotheses of the obligations

One concrete state or operand per clause, at the ends of the clause's range where it has one. -/

/-- A block that nothing stops: code in internal RAM, SP and the pairs in it too. -/
def plain (bytes : List Byte) : State := ((base 0xC000 bytes).setSp 0xD000).setRR .hl 0xC100

/-- The same block with `P_IO` refusing the next access. -/
def refusing (bytes : List Byte) : State := { plain bytes with ioScript := [.refuse] }

/-- The same block with `P_IO` answering one access and refusing the next. -/
def halfway (bytes : List Byte) : State := { plain bytes with ioScript := [.answer 0x12, .refuse] }

/-- A RomOnly cartridge of 64 KiB, where the RAM window is inside the image. -/
def bigRom : State := { State.reset with cart := { State.reset.cart with romBytes := 0x10000 } }

theorem witness_inv : State.reset.Inv ∧ (plain [0x00]).Inv ∧ (refusing [0x34]).Inv ∧ (halfway [0x34]).Inv ∧ mbc1Block.Inv := by
  decide

/-- FlagsByte has no hypothesis; PairViews: a pair other than AF, one other than SP, and registers outside the halves. -/
theorem witness_PairViews : QQ.bc ≠ .af ∧ RR.hl ≠ .sp ∧ R8.a ∉ QQ.hl.halves ∧ R8.b ∉ QQ.af.halves ∧ R8.h ∉ RR.bc.halves ∧
    R8.a ∉ RR.sp.halves := by
  decide

/-- ConstructedState, ConstructedInv: both controllers, and the windows' ends. -/
theorem witness_ConstructedState :
    construct (mbc1Params 0x01 0x02 { size := 0x2000, bytes := [(5, 0x66)] }) = .ok mbc1Block ∧
    mbc1Block.cart.ctl = .mbc1 { ramEn := false, romb := 0, bank2 := 0, mode := 0 } ∧
    zoneOf 0xA000 = .cartRam ∧ zoneOf 0xBFFF = .cartRam ∧ zoneOf 0x0000 = .rom ∧ zoneOf 0x7FFF = .rom := by
  decide

/-- ConstructedMemories: the array zones' ends, an offset in each array, and a buffer of the right and of a wrong size. -/
theorem witness_ConstructedMemories :
    (IsArray 0x8000 ∧ IsArray 0x9FFF ∧ IsArray 0xC000 ∧ IsArray 0xDFFF ∧ IsArray 0xFE00 ∧ IsArray 0xFE9F ∧ IsArray 0xFF80 ∧
      IsArray 0xFFFE) ∧
    0 < mbc1Block.cart.romBytes ∧ 0xFFFF < mbc1Block.cart.romBytes ∧ 0x1FFF < mbc1Block.cart.ramBytes ∧
    (construct (mbc1Params 0x00 0x02 { size := 0x1FFF, bytes := [] })).toOption.map (fun s => (s.cart.ramBytes, s.log)) =
      some (0x2000, [.saveRamSize]) ∧
    mbc1Block.cart.ramBytes = 0x2000 :=
  ⟨⟨.inl rfl, .inl rfl, .inr (.inl rfl), .inr (.inl rfl), .inr (.inr (.inl rfl)), .inr (.inr (.inl rfl)),
    .inr (.inr (.inr rfl)), .inr (.inr (.inr rfl))⟩, by decide, by decide, by decide, by decide, by decide⟩

/-- ConstructionChecks: the last branch at the ends of the sizes and of the target byte; `test_construction_checks` has the
others. -/
theorem witness_ConstructionChecks :
    (construct (mbc1Params 0x00 0x00 { size := 0, bytes := [] })).toOption.map (fun s => (s.cart.romBytes, s.cart.ramBytes)) =
      some (0x8000, 0) ∧
    (construct (mbc1Params 0x08 0x05 { size := 0, bytes := [] })).toOption.map (fun s => (s.cart.romBytes, s.cart.ramBytes)) =
      some (0x800000, 0x10000) ∧
    ([0x00, 0x20, 0x7E, 0x80, 0xC0].all fun v => (targetOf v).isSome) = true ∧
    ([0x1F, 0x7F, 0x81].all fun v => (targetOf v).isNone) = true := by
  decide

theorem witness_StepKeepsInv : State.reset.Inv ∧ ∃ t, step State.reset = .next t := ⟨by decide, _, rfl⟩

/-- PlainArrays: the ends of each array zone are in `witness_ConstructedMemories`; here one state and address. -/
theorem witness_PlainArrays : IsArray 0xC000 ∧ State.reset.peek 0xC000 = some 0x00 := by
  unfold IsArray
  decide

theorem witness_ForbiddenZones :
    (zoneOf 0xE000 = .forbidden ∧ zoneOf 0xFDFF = .forbidden ∧ zoneOf 0xFEA0 = .forbidden ∧ zoneOf 0xFEFF = .forbidden) ∧
    (zoneOf 0xDFFF ≠ .forbidden ∧ zoneOf 0xFE00 ≠ .forbidden ∧ zoneOf 0xFE9F ≠ .forbidden ∧ zoneOf 0xFF00 ≠ .forbidden) ∧
    (0xE000 ≤ (0xE000#16).toNat ∧ (0xFDFF#16).toNat ≤ 0xFDFF ∧ 0xFEA0 ≤ (0xFEA0#16).toNat ∧ (0xFEFF#16).toNat ≤ 0xFEFF) := by
  decide

/-- IoCollaborator: addresses next to the owned ones, and the three scripts. -/
theorem witness_IoCollaborator :
    (([0xFF00, 0xFF03, 0xFF08, 0xFF0E, 0xFF10, 0xFF7F] : List Word).all fun a => decide (0xFF00 ≤ a.toNat ∧ a.toNat ≤ 0xFF7F ∧
      a ≠ 0xFF04 ∧ a ≠ 0xFF05 ∧ a ≠ 0xFF06 ∧ a ≠ 0xFF07 ∧ a ≠ 0xFF0F)) = true ∧
    (halfway []).ioScript = .answer 0x12 :: [.refuse] ∧ (refusing []).ioScript = .refuse :: [] ∧ State.reset.ioScript = [] :=
  ⟨by decide, rfl, rfl, rfl⟩

/-- AnsweredAccesses: answered and refused accesses of each kind. -/
theorem witness_AnsweredAccesses :
    (¬ IsPIo 0xC000 ∧ State.reset.busRead 0xC000 .read = .ok 0x00 State.reset) ∧
    (∃ u, State.reset.busRead 0xE000 .fetch = .fatal u ∧ zoneOf 0xE000 = .forbidden) ∧
    (∃ u, (refusing []).busRead 0xFF00 .read = .fatal u ∧ IsPIo 0xFF00) ∧
    (∃ u, State.reset.busRead 0xA000 .read = .fatal u ∧ zoneOf 0xA000 = .cartRam) ∧
    (∃ u, { State.reset with cart := { State.reset.cart with romBytes := 0x4000 } }.busRead 0x4000 .read = .fatal u ∧
      zoneOf 0x4000 = .rom) ∧
    (∃ u, State.reset.write8 0xFEFF 0x00 = .fatal u ∧ zoneOf 0xFEFF = .forbidden) ∧
    (∃ u, (refusing []).write8 0xFF7F 0x00 = .fatal u ∧ IsPIo 0xFF7F) := by
  refine ⟨⟨by unfold IsPIo; decide, rfl⟩, ⟨_, rfl, by decide⟩, ⟨_, rfl, by unfold IsPIo; decide⟩, ⟨_, rfl, by decide⟩,
    ⟨_, rfl, by decide⟩, ⟨_, rfl, by decide⟩, ⟨_, rfl, by unfold IsPIo; decide⟩⟩

/-- Mbc1BankRegisters, Mbc1RomWindows: the ends of each range. -/
theorem witness_Mbc1Windows :
    (withMbc1 true 0 1 1).cart.ctl = .mbc1 { ramEn := true, romb := 0, bank2 := 1, mode := 1 } ∧
    (0x1FFF#16).toNat ≤ 0x1FFF ∧ 0x2000 ≤ (0x2000#16).toNat ∧ (0x3FFF#16).toNat ≤ 0x3FFF ∧ 0x4000 ≤ (0x4000#16).toNat ∧
    (0x5FFF#16).toNat ≤ 0x5FFF ∧ 0x6000 ≤ (0x6000#16).toNat ∧ (0x7FFF#16).toNat ≤ 0x7FFF := by
  decide

theorem witness_Mbc1BankWraps : (withMbc1 true 7 1 0).Inv ∧
    (withMbc1 true 7 1 0).cart.ctl = .mbc1 { ramEn := true, romb := 7, bank2 := 1, mode := 0 } := by
  decide

/-- Mbc1RamWindow: disabled, absent, and enabled with RAM. -/
theorem witness_Mbc1RamWindow :
    (withMbc1 false 1 0 0).cart.ctl = .mbc1 { ramEn := false, romb := 1, bank2 := 0, mode := 0 } ∧
    (built (mbc1Params 0x00 0x00 { size := 0, bytes := [] })).cart.ramBytes = 0 ∧
    (built (mbc1Params 0x00 0x00 { size := 0, bytes := [] })).cart.ctl =
      .mbc1 { ramEn := false, romb := 0, bank2 := 0, mode := 0 } ∧
    (withMbc1 true 1 3 1).cart.ctl = .mbc1 { ramEn := true, romb := 1, bank2 := 3, mode := 1 } ∧
    (withMbc1 true 1 3 1).cart.ramBytes ≠ 0 ∧ 0xA000 ≤ (0xA000#16).toNat ∧ (0xBFFF#16).toNat ≤ 0xBFFF := by
  decide

/-- RomOnlyCartridge: inside and outside the image, in both windows. -/
theorem witness_RomOnlyCartridge :
    State.reset.cart.ctl = .romOnly ∧ (0x7FFF#16).toNat < State.reset.cart.romBytes ∧
    State.reset.cart.romBytes ≤ (0xA000#16).toNat ∧ bigRom.cart.ctl = .romOnly ∧ (0xBFFF#16).toNat < bigRom.cart.romBytes := by
  decide

theorem witness_WordsInMemory : IsArray 0xC000 ∧ IsArray (0xC000 + 1) ∧ IsArray ((plain []).regs.sp - 1) ∧
    IsArray ((plain []).regs.sp - 2) ∧ State.reset.peek 0xFFFF = some 0x00 ∧ State.reset.peek 0x0000 = some 0x00 := by
  unfold IsArray
  decide

theorem witness_Encoding : (Instr.jpNn 0x0637).WellFormed ∧ (Instr.illegal 0xFD).WellFormed ∧
    decodes [([0xC3, 0x37, 0x06], .jpNn 0x0637)] = true ∧ (0xCC : Byte) ≠ 0xCB := by
  decide

/-- MemoryLoads, and the ALU and bit forms that read `(HL)`: answered reads of plain memory, of the cartridge, of an owned and
an unowned register, and refused ones. -/
theorem witness_Reads :
    Readable (plain []) (plain []).hl ∧ Readable State.reset 0x7FFF ∧ Readable State.reset 0xFF04 ∧ Readable State.reset 0xFF00 ∧
    Readable bigRom 0xA000 ∧ Readable State.reset 0xFFFF ∧
    (∃ u, ((plain []).setRR .hl 0xE000).read8 0xE000 = .fatal u) ∧ (∃ u, (refusing []).read8 0xFF00 = .fatal u) := by
  refine ⟨?_, ?_, ?_, ?_, ?_, ?_, ⟨_, rfl⟩, ⟨_, rfl⟩⟩ <;> (unfold Readable IsPIo; decide)

/-- MemoryStores: accepted and refused writes, with the invariant. -/
theorem witness_Writes :
    (plain []).Inv ∧ Writable (plain []) (plain []).hl ∧ Writable State.reset 0x2000 ∧ Writable State.reset 0xA000 ∧
    Writable State.reset 0xFF00 ∧ Writable State.reset 0xFFFF ∧
    (∃ u, (plain []).write8 0xFEA0 0x00 = .fatal u) ∧ (∃ u, (refusing []).write8 0xFF00 0x00 = .fatal u) := by
  refine ⟨by decide, ?_, ?_, ?_, ?_, ?_, ⟨_, rfl⟩, ⟨_, rfl⟩⟩ <;> (unfold Writable IsPIo; decide)

/-- PairLoads, PushAndPop, Calls: both writes accepted; the first refused; the second refused. -/
theorem witness_Writes2 (v w : Byte) :
    ((plain []).Inv ∧ Writable2 (plain []) 0xCFFF v 0xCFFE) ∧ (∃ u, (plain []).write8 0xE000 v = .fatal u) ∧
    (∃ u x, (plain []).write8 0xDFFF v = .ok () u ∧ u.write8 0xE000 w = .fatal x) ∧
    (∃ u x, (plain []).write8 0xFE00 v = .ok () u ∧ u.write8 0xFDFF w = .fatal x) := by
  refine ⟨⟨by decide, by unfold Writable IsPIo; decide, fun u h => ?_⟩, ⟨_, rfl⟩, ⟨_, _, rfl, rfl⟩, ⟨_, _, rfl, rfl⟩⟩
  rw [show (plain []).write8 0xCFFF v = .ok () ((plain []).storeMem 0xCFFF v) from rfl] at h
  cases h
  refine ⟨by decide, fun h => ?_⟩
  exact absurd h.1 (by decide)

/-- PushAndPop, Returns: both reads answered; the first refused; the second refused. -/
theorem witness_Reads2 :
    Readable2 (plain []) 0xD000 0xD001 ∧ (∃ u, (plain []).read8 0xE000 = .fatal u) ∧
    (∃ lo u x, (plain []).read8 0xDFFF = .ok lo u ∧ u.read8 0xE000 = .fatal x) := by
  refine ⟨⟨by unfold Readable IsPIo; decide, fun v u h => ?_⟩, ⟨_, rfl⟩, ⟨_, _, _, rfl, rfl⟩⟩
  rw [show (plain []).read8 0xD000 = .ok 0x00 (plain []) from rfl] at h
  cases h
  unfold Readable IsPIo
  decide

/-- IncrementsAndDecrements, RotatesAndShifts, SingleBits: the read and the write of `(HL)` accepted; the read refused; the
write refused after an answered read. -/
theorem witness_ModifyHl :
    ((plain []).Inv ∧ Readable (plain []) (plain []).hl ∧
      ∀ v u, (plain []).read8 (plain []).hl = .ok v u → Writable u (plain []).hl) ∧
    (∃ u, ((plain []).setRR .hl 0xFEFF).read8 0xFEFF = .fatal u) ∧
    (∃ v u w, (halfway []).read8 0xFF00 = .ok v u ∧ u.write8 0xFF00 (inc8 v (halfway []).regs.f).1 = .fatal w) := by
  refine ⟨⟨by decide, by unfold Readable IsPIo; decide, fun v u h => ?_⟩, ⟨_, rfl⟩, ⟨_, _, _, rfl, rfl⟩⟩
  rw [show (plain []).read8 (plain []).hl = .ok 0x00 (plain []) from rfl] at h
  cases h
  unfold Writable IsPIo
  decide

/-- DecimalAdjust: the greatest and the least decimal bytes. -/
theorem witness_DecimalAdjust : (0x99#8).toNat % 16 ≤ 9 ∧ (0x99#8).toNat / 16 ≤ 9 ∧ (0x00#8).toNat % 16 ≤ 9 ∧
    (0x00#8).toNat / 16 ≤ 9 := by
  decide

/-- Jumps, Calls, Returns: each condition holding and failing. -/
theorem witness_Conditions :
    (∀ cc ∈ [Cond.nz, .nc], condHolds cc { z := false, n := false, h := false, c := false } = true ∧
      condHolds cc { z := true, n := false, h := false, c := true } = false) ∧
    (∀ cc ∈ [Cond.z, .c], condHolds cc { z := true, n := false, h := false, c := true } = true ∧
      condHolds cc { z := false, n := false, h := false, c := false } = false) := by
  decide

/-- ReturnUndoesCall: the state the call leaves, given back to the return. -/
theorem witness_ReturnUndoesCall :
    IsArray ((plain []).regs.sp - 1) ∧ IsArray ((plain []).regs.sp - 2) ∧
    ∃ t v, exec (.callNn 0xD000) (plain []) = .next t ∧ exec .ret t = .next v := by
  refine ⟨by unfold IsArray; decide, by unfold IsArray; decide, _, _, rfl, rfl⟩

/-- NopDiEi, the commit: pending before and after (EI before a NOP), pending before only (EI before DI), not before. -/
theorem witness_NopDiEi :
    (∃ t u, { plain [0x00] with imePending := true }.fetch = .ok .nop t ∧ exec .nop t = .next u ∧ u.fatal = none ∧
      u.imePending = true) ∧
    (∃ t u, { plain [0xF3] with imePending := true }.fetch = .ok .di t ∧ exec .di t = .next u ∧ u.fatal = none ∧
      u.imePending = false) ∧
    (∃ t u, (plain [0xFB]).fetch = .ok .ei t ∧ exec .ei t = .next u ∧ u.fatal = none ∧ u.imePending = true) ∧
    ((plain [0x00]).fatal = none ∧ (plain [0x00]).halted = false ∧ (plain [0x00]).ime = false) ∧
    ({ plain [0x00] with ime := true }.ime = true ∧ { plain [0x00] with ime := true }.pending = false) :=
  ⟨⟨_, _, rfl, rfl, rfl, rfl⟩, ⟨_, _, rfl, rfl, rfl, rfl⟩, ⟨_, _, rfl, rfl, rfl, rfl⟩, by decide, by decide⟩

/-- HaltAndWake: HALT completing on either ground, its refusal, the halted step and the wake. -/
theorem witness_HaltAndWake :
    ({ plain [0x76] with ime := true, ie := 0x01 }.ime = true) ∧ ((plain [0x76]).ie &&& (plain [0x76]).ifl = 0) ∧
    ({ plain [0x76] with ie := 0x01 }.ime = false ∧
      { plain [0x76] with ie := 0x01 }.ie &&& { plain [0x76] with ie := 0x01 }.ifl ≠ 0) ∧
    ({ plain [] with halted := true }.fatal = none ∧ { plain [] with halted := true }.halted = true ∧
      { plain [] with halted := true }.ie &&& { plain [] with halted := true }.ifl = 0) ∧
    ({ plain [] with halted := true, ie := 0x01 }.ie &&& { plain [] with halted := true, ie := 0x01 }.ifl ≠ 0) := by
  decide

/-- StopRefuses: the second byte answered, and forbidden. -/
theorem witness_StopRefuses :
    ((plain [0x10, 0x5A]).fatal = none ∧ (plain [0x10, 0x5A]).halted = false ∧ (plain [0x10, 0x5A]).ime = false ∧
      (plain [0x10, 0x5A]).unimplemented = [] ∧ (plain [0x10, 0x5A]).peek 0xC000 = some 0x10 ∧
      (plain [0x10, 0x5A]).peek (0xC000 + 1) = some 0x5A) ∧
    ((base 0xDFFF [0x10]).peek (base 0xDFFF [0x10]).regs.pc = some 0x10 ∧
      zoneOf ((base 0xDFFF [0x10]).regs.pc + 1) = .forbidden) := by
  decide

/-- PrefixPair: a register operand, and `(HL)` in an array. -/
theorem witness_PrefixPair : opnd8Of (fieldZ 0x37) = .reg .a ∧ opnd8Of (fieldZ 0x7E) = .atHl ∧ IsArray (plain []).hl := by
  unfold IsArray
  decide

/-- StepRunsDecoded: awake, a CB form, and halted with a request that wakes. -/
theorem witness_StepRunsDecoded :
    ((plain [0x3E, 0x42]).fatal = none ∧ ((plain [0x3E, 0x42]).halted = true → (plain [0x3E, 0x42]).pending = true) ∧
      ((plain [0x3E, 0x42]).ime = false ∨ (plain [0x3E, 0x42]).pending = false) ∧
      (Instr.ldRN .a 0x42).row ∉ (plain [0x3E, 0x42]).unimplemented ∧ decodes [([0x3E, 0x42], .ldRN .a 0x42)] = true ∧
      (plain [0x3E, 0x42]).peek 0xC000 = some 0x3E ∧ (plain [0x3E, 0x42]).peek 0xC001 = some 0x42) ∧
    ((decodeCb 0x37).row ∉ (plain [0xCB, 0x37]).unimplemented ∧ [(0xCB : Byte), 0x37].head? = some 0xCB ∧
      (Instr.prefixCb 0).row ∉ (plain [0xCB, 0x37]).unimplemented ∧ decodes [([0xCB, 0x37], decodeCb 0x37)] = true ∧
      (plain [0xCB, 0x37]).peek 0xC000 = some 0xCB ∧ (plain [0xCB, 0x37]).peek 0xC001 = some 0x37) ∧
    ({ plain [0x00] with halted := true, ie := 0x01 }.halted = true ∧
      { plain [0x00] with halted := true, ie := 0x01 }.pending = true ∧
      { plain [0x00] with halted := true, ie := 0x01 }.ime = false) := by
  decide

/-- DecodeFatals: each clause; the rows excluded are those of NOP, PREFIX_CB and `RLC r`. -/
theorem witness_DecodeFatals :
    zoneOf (base 0xE000 []).regs.pc = .forbidden ∧
    ((plain [0xD3]).peek 0xC000 = some 0xD3 ∧ (0xD3 : Byte) ∈ illegalOpcodes) ∧
    (decodeFirst 0x00 0 0).row ∈ { plain [0x00] with unimplemented := [Instr.nop.row] }.unimplemented ∧
    (decodeFirst 0xCB 0 0).row ∈ { plain [0xCB] with unimplemented := [(Instr.prefixCb 0).row] }.unimplemented ∧
    ((base 0xDFFF [0x3E]).peek 0xDFFF = some 0x3E ∧ (0x3E : Byte) ∉ illegalOpcodes ∧ firstLength 0x3E = 2 ∧
      zoneOf ((base 0xDFFF [0x3E]).regs.pc + 1) = .forbidden) ∧
    ((base 0xDFFE [0xC3]).peek 0xDFFE = some 0xC3 ∧ firstLength 0xC3 = 3 ∧ (0xC3 : Byte) ∉ illegalOpcodes ∧
      ((base 0xDFFE [0xC3]).peek ((base 0xDFFE [0xC3]).regs.pc + 1)).isSome = true ∧
      zoneOf ((base 0xDFFE [0xC3]).regs.pc + 2) = .forbidden) ∧
    ((base 0xDFFF [0xCB]).peek 0xDFFF = some 0xCB ∧ (Instr.prefixCb 0).row ∉ (base 0xDFFF [0xCB]).unimplemented ∧
      zoneOf ((base 0xDFFF [0xCB]).regs.pc + 1) = .forbidden) ∧
    ((plain [0xCB, 0x00]).peek 0xC001 = some 0x00 ∧
      (Instr.prefixCb 0).row ∉ { plain [0xCB, 0x00] with unimplemented := [(Instr.rlc (.reg .b)).row] }.unimplemented ∧
      (decodeCb 0x00).row ∈ { plain [0xCB, 0x00] with unimplemented := [(Instr.rlc (.reg .b)).row] }.unimplemented) := by
  decide

/-- FatalIsTerminal, ParametersFixed: a fatal state, a step that raises, one that does not. -/
theorem witness_FatalIsTerminal :
    ({ State.reset with fatal := some (.io 0xFF00) }.fatal = some (.io 0xFF00)) ∧
    (∃ t, step (plain [0xD3]) = .next t ∧ t.fatal = some (.unknownOpcode 0xD3 none 0xC000)) ∧
    (∃ t, step State.reset = .next t ∧ t.fatal = none ∧ t.elapsed = some 1) :=
  ⟨rfl, ⟨_, rfl, rfl⟩, ⟨_, rfl, rfl, rfl⟩⟩

theorem witness_LeastPending : { State.reset with ie := 0x1F, ifl := 0x12 }.requested = some .lcdStat ∧
    { State.reset with ie := 0x10, ifl := 0x1F }.requested = some .joypad := by
  decide

/-- Dispatch: the push accepted, its first write refused, its second write refused, and IME clear. -/
theorem witness_Dispatch :
    ((plain []).fatal = none ∧ { plain [] with ime := true, ie := 0x01 }.requested = some .vblank) ∧
    (∃ u1 u2, { plain [] with ie := 0x01, ifl := 0x00 }.write8 0xCFFF 0xC0 = .ok () u1 ∧
      u1.write8 0xCFFE 0x00 = .ok () u2) ∧
    (∃ u, { plain [] with ie := 0x01, ifl := 0x00 }.write8 0xE000 0xC0 = .fatal u) ∧
    (∃ u1 u2, { plain [] with ie := 0x01, ifl := 0x00 }.write8 0xFE00 0xC0 = .ok () u1 ∧
      u1.write8 0xFDFF 0x00 = .fatal u2) ∧
    ((plain []).ime = false ∧ { plain [] with ie := 0x01 }.requested = some .vblank) :=
  ⟨by decide, ⟨_, _, rfl, rfl⟩, ⟨_, rfl⟩, ⟨_, _, rfl, rfl⟩, by decide⟩

/-- TimerTick: no fall, a fall, a fall that wraps, and the enables. -/
theorem witness_TimerTick :
    ({ div := 0x000E, tima := 0x00, tma := 0x00, tac := 5 } : Timer).edge = false ∧
    ({ div := 0x000F, tima := 0x00, tma := 0x00, tac := 5 } : Timer).edge = true ∧
    ({ div := 0x000F, tima := 0xFF, tma := 0xAB, tac := 5 } : Timer).overflows = true ∧
    (0b101 : BitVec 3) = 0b101 ∧ (0x0010#16).toNat % 16 = 0 ∧ (0b011 : BitVec 3).getLsbD 2 = false := by
  decide

/-- The NOP of `plain`, with the agents' choices of one iteration. -/
def agentStep (frameReady : Bool) : State := { plain [0x00] with agents := [{ AgentTurn.quiet with frameReady := frameReady }] }

/-- IterationAndTick: a byte outside OAM and the I/O zone, a set bit, an iteration with and without a script, and a Tick that
ends at its first iteration, one that has not ended, and one that ends by a fatal. -/
theorem witness_IterationAndTick :
    (zoneOf 0xC000 ≠ .oam ∧ zoneOf 0xC000 ≠ .io ∧ State.reset.ifl.getLsbD 0 = true) ∧
    (∃ t, step (plain [0x00]) = .next t ∧ t.fatal = none ∧ (plain [0x00]).agents = [] ∧ t.tickEnded = false) ∧
    (∃ t a rest, step (agentStep true) = .next t ∧ t.fatal = none ∧ (agentStep true).agents = a :: rest ∧ a.frameReady = true ∧
      tick 1 (agentStep true) = some (.next t)) ∧
    tick 1 (agentStep false) = none ∧
    (∃ t, tick 1 (plain [0xD3]) = some (.next t) ∧ t.fatal = some (.unknownOpcode 0xD3 none 0xC000)) :=
  ⟨by decide, ⟨_, rfl, rfl, rfl, rfl⟩, ⟨_, _, _, rfl, rfl, rfl, rfl, rfl⟩, rfl, ⟨_, rfl, rfl⟩⟩

/-- A dispatch whose push stores its high byte to DIV. -/
def pushToDiv : State := { (plain []).setSp 0xFF05 with ime := true, ie := 0x01 }

/-- DivAdvance: a step that stores to DIV by its instruction, one that does so by a dispatch, one that stores elsewhere, and a
halted one that stores nothing. -/
theorem witness_DivAdvance :
    (∃ t, step (plain [0xE0, 0x04]) = .next t ∧ t.elapsed = some 3 ∧ 0xFF04 ∈ (plain [0xE0, 0x04]).stepStores) ∧
    (∃ t, step pushToDiv = .next t ∧ t.fatal = none ∧ t.elapsed = some 5 ∧ 0xFF04 ∈ pushToDiv.stepStores) ∧
    (∃ t, step (plain [0xE0, 0x05]) = .next t ∧ t.elapsed = some 3 ∧ 0xFF04 ∉ (plain [0xE0, 0x05]).stepStores) ∧
    (∃ t, step { plain [] with halted := true } = .next t ∧ t.elapsed = some 1 ∧
      0xFF04 ∉ ({ plain [] with halted := true } : State).stepStores) :=
  ⟨⟨_, rfl, rfl, by decide⟩, ⟨_, rfl, rfl, rfl, by decide⟩, ⟨_, rfl, rfl, by decide⟩, ⟨_, rfl, rfl, by decide⟩⟩

/-- ControlBitWriters: an instruction of each kind answers. -/
theorem witness_ControlBitWriters : ∃ t, exec .nop (plain []) = .next t ∧ t.ime = (plain []).ime ∧ Instr.nop ≠ .di ∧
    Instr.nop ≠ .reti ∧ Instr.nop ≠ .ei ∧ Instr.nop ≠ .halt := ⟨_, rfl, rfl, by decide, by decide, by decide, by decide⟩

/-- FlagsKept: an instruction of each list, a POP, a halted step and a dispatch. -/
theorem witness_FlagsKept :
    (∃ t, exec .ldSpHl (plain []) = .next t) ∧ (∃ t, exec (.ldRR .a .b) (plain []) = .next t) ∧
    (∃ t, QQ.bc ≠ .af ∧ exec (.pop .bc) (plain []) = .next t) ∧
    (∃ t, { plain [] with halted := true }.pending = false ∧ step { plain [] with halted := true } = .next t) ∧
    (∃ t, { plain [] with ime := true, ie := 0x01 }.pending = true ∧
      step { plain [] with ime := true, ie := 0x01 } = .next t) :=
  ⟨⟨_, rfl⟩, ⟨_, rfl⟩, ⟨_, by decide, rfl⟩, ⟨_, by decide, rfl⟩, ⟨_, by decide, rfl⟩⟩

end Sys2Proof.Tests
end

/-! SUPPORT. The bytes behind `F` and the pairs: the flags byte bit by bit, and pairs read after a pair write and after a write
of a half (10_state.md R32 to R34, R36). -/

namespace Sys2Proof.Machine

/-! ## The byte `F` and the pairs -/

/-- `F` as a byte holds the four flags in bits 7:4 and zero below (10_state.md R32, R36). -/
theorem Flags.toByte_bits (f : Flags) :
    f.toByte.getLsbD 7 = f.z ∧ f.toByte.getLsbD 6 = f.n ∧ f.toByte.getLsbD 5 = f.h ∧ f.toByte.getLsbD 4 = f.c ∧
      f.toByte &&& 0x0F = 0 := by
  obtain ⟨z, n, h, c⟩ := f
  revert z n h c
  decide

/-- The high byte weighs 256 (00_scope.md R13). -/
theorem wordOf_toNat (hi lo : Byte) : (wordOf hi lo).toNat = hi.toNat * 256 + lo.toNat := by
  rw [wordOf, BitVec.toNat_append, ← Nat.shiftLeft_add_eq_or_of_lt lo.isLt, Nat.shiftLeft_eq]

/-- Masking the low byte of a word masks the word. -/
theorem wordOf_hi_lo_masked (v : Word) : wordOf (hiByte v) (loByte v &&& 0xF0) = v &&& 0xFFF0 := by
  have hhi : hiByte v &&& 0xFF = hiByte v := BitVec.and_allOnes
  calc wordOf (hiByte v) (loByte v &&& 0xF0)
      = wordOf (hiByte v &&& 0xFF) (loByte v &&& 0xF0) := by rw [hhi]
    _ = wordOf (hiByte v) (loByte v) &&& wordOf 0xFF 0xF0 := BitVec.and_append.symm
    _ = v &&& 0xFFF0 := by rw [wordOf_hi_lo]; rfl

/-- A write of AF masks the low byte (10_state.md R34). -/
theorem State.setQQ_af_getQQ (s : State) (v : Word) : (s.setQQ .af v).getQQ .af = v &&& 0xFFF0 := by
  show wordOf (hiByte v) (Flags.ofByte (loByte v)).toByte = _
  rw [Flags.toByte_ofByte, wordOf_hi_lo_masked]

/-- A write of a pair without `F` is read back whole. -/
theorem State.setQQ_getQQ_same (s : State) (q : QQ) (v : Word) (h : q ≠ .af) : (s.setQQ q v).getQQ q = v := by
  cases q with
  | af => exact absurd rfl h
  | bc | de | hl => exact wordOf_hi_lo v

theorem State.setQQ_f (s : State) (q : QQ) (v : Word) (h : q ≠ .af) : (s.setQQ q v).regs.f = s.regs.f := by
  cases q with
  | af => exact absurd rfl h
  | bc | de | hl => rfl

theorem State.setQQ_getR8_other (s : State) (q : QQ) (v : Word) (r : R8) (h : r ∉ q.halves) :
    (s.setQQ q v).getR8 r = s.getR8 r := by
  cases q <;> cases r <;> simp [QQ.halves] at h <;> rfl

theorem State.setRR_getR8_other (s : State) (p : RR) (v : Word) (r : R8) (h : r ∉ p.halves) :
    (s.setRR p v).getR8 r = s.getR8 r := by
  cases p <;> cases r <;> simp [RR.halves] at h <;> rfl

/-- Settles O1: the bits of the byte, and that both writes of it mask with 0xF0. -/
theorem flagsByte : Obligations.FlagsByte :=
  ⟨Flags.toByte_bits, Flags.toByte_ofByte, fun _ v => Flags.toByte_ofByte (loByte v)⟩

/-- Settles O2: the pairs as views, a pair write read back with its frame, and the write of a half seen in the pair. -/
theorem pairViews : Obligations.PairViews := by
  refine ⟨fun s => ⟨rfl, rfl, rfl, rfl, rfl, rfl, rfl, rfl⟩, wordOf_toNat, ?afterWrite,
    fun s q v hq => ⟨s.setQQ_getQQ_same q v hq, s.setQQ_f q v hq⟩, State.setQQ_getR8_other,
    fun s p v => ⟨s.setRR_getRR_same p v, Regs.setRR_f _ _ _, s.setRR_getR8_other p v⟩, ?frameQQ,
    fun s p v => ⟨?frameRR, Regs.setRR_sp _ p v⟩, ?halves⟩
  case afterWrite => exact fun s v => ⟨rfl, rfl, rfl, rfl, rfl, rfl, rfl, s.setQQ_af_getQQ v⟩
  case frameQQ => intro s q v; cases q <;> rfl
  case frameRR => cases p <;> rfl
  case halves =>
    intro s u
    have hf : (s.setF (Flags.ofByte u)).getQQ .af = wordOf (s.getR8 .a) (u &&& 0xF0) :=
      congrArg (wordOf _) (Flags.toByte_ofByte u)
    exact ⟨hf, hiByte_wordOf _ _, loByte_wordOf _ _, hiByte_wordOf _ _, loByte_wordOf _ _, hiByte_wordOf _ _,
      loByte_wordOf _ _, hiByte_wordOf _ _⟩

end Sys2Proof.Machine

/-! SUPPORT. Construction: what a constructed state and its cartridge are, and the invariant they meet (20_memory.md R121 to
R128, 70_reset_and_hazards.md R460). -/

namespace Sys2Proof.Machine

/-! ## Construction -/

/-- The image's cells inside a size are in canonical form. -/
theorem Image.memWf_cells (i : Image) (n : Nat) : memWf (i.cells n) = true := memWf_memWriteAll _ [] rfl

/-- The cells of a list that pass a filter have keys that pass it. -/
theorem memKeys_memWriteAll_filter (p : Nat → Bool) (cs : List Host.Cell) :
    memKeys p (memWriteAll [] (cs.filter (fun c => p c.1)).reverse) = true :=
  memKeys_memWriteAll p _ [] rfl fun _ hc => (List.mem_filter.1 (List.mem_reverse.1 hc)).2

theorem Image.memKeys_cells (i : Image) (n : Nat) : memKeys (fun a => decide (a < n)) (i.cells n) = true :=
  memKeys_memWriteAll_filter _ i.bytes

/-- The ROM sizes a header can name (20_memory.md R125). -/
theorem romBytesOf_legal {v : Byte} {n : Nat} (h : romBytesOf v = some n) :
    n ∈ [0x8000, 0x10000, 0x20000, 0x40000, 0x80000, 0x100000, 0x200000, 0x400000, 0x800000] := by
  unfold romBytesOf at h
  split_ifs at h with hv
  cases h
  interval_cases v.toNat <;> decide

/-- The RAM sizes a header can name (20_memory.md R126). -/
theorem ramBytesOf_legal {v : Byte} {n : Nat} (h : ramBytesOf v = some n) : n ∈ [0, 0x2000, 0x8000, 0x10000, 0x20000] := by
  unfold ramBytesOf at h
  split_ifs at h <;> cases h <;> decide

/-- A cartridge that is built has the header's controller and sizes, the image's ROM, and the save buffer's bytes where its
size fits; else its RAM is blank and the warning is logged (20_memory.md R121, R128). -/
theorem buildCart_cases {rom save : Image} {k : Cart} {log : List Warning} (h : buildCart rom save = .ok (k, log)) :
    controllerOf (rom.at 0x147) = some k.ctl ∧ romBytesOf (rom.at 0x148) = some k.romBytes ∧
      ramBytesOf (rom.at 0x149) = some k.ramBytes ∧ k.rom = rom.cells k.romBytes ∧
      ((save.size = k.ramBytes ∧ k.ram = save.cells k.ramBytes ∧ log = []) ∨
        (save.size ≠ k.ramBytes ∧ k.ram = [] ∧ log = [.saveRamSize])) := by
  unfold buildCart at h
  split_ifs at h
  split at h
  case h_5 hc hr hm =>
    split_ifs at h with _ hs <;> cases h
    · exact ⟨hc, hr, hm, rfl, .inl ⟨hs, rfl, rfl⟩⟩
    · exact ⟨hc, hr, hm, rfl, .inr ⟨hs, rfl, rfl⟩⟩
  all_goals cases h

/-- A cartridge that is built is well formed. -/
theorem buildCart_wf {rom save : Image} {k : Cart} {log : List Warning} (h : buildCart rom save = .ok (k, log)) :
    k.wf = true := by
  obtain ⟨_, hrb, hmb, hrom, hram⟩ := buildCart_cases h
  have hsizes : k.sizesLegal = true := by
    simpa only [Cart.sizesLegal, Bool.and_eq_true, List.contains_iff_mem] using
      ⟨romBytesOf_legal hrb, ramBytesOf_legal hmb⟩
  have hramWf : memWf k.ram = true ∧ memKeys (fun a => decide (a < k.ramBytes)) k.ram = true := by
    rcases hram with ⟨_, hr, _⟩ | ⟨_, hr, _⟩ <;> rw [hr]
    · exact ⟨save.memWf_cells _, save.memKeys_cells _⟩
    · exact ⟨rfl, rfl⟩
  rw [Cart.wf_iff, hrom]
  exact ⟨rom.memWf_cells _, rom.memKeys_cells _, hramWf.1, hramWf.2, hsizes⟩

/-- A constructed state is the reset state with the parameters, the built cartridge and its log (70_reset_and_hazards.md
R460). -/
theorem construct_cases {p : Params} {s : State} (h : construct p = .ok s) :
    ∃ k log, buildCart p.rom p.save = .ok (k, log) ∧
      s = { State.reset with
            timer := { State.reset.timer with div := p.divInit }
            mem := memWriteAll [] (p.initMem.filter (fun c => isArrayKey c.1)).reverse
            cart := k
            log := log
            unimplemented := p.unimplemented
            ioScript := p.ioScript
            agents := p.agents } := by
  unfold construct at h
  split at h
  next => cases h
  next k log hk => cases h; exact ⟨k, log, hk, rfl⟩

/-- Settles O8: the initial memory is filtered to the arrays' addresses, and a built cartridge is well formed. -/
theorem constructedInv : Obligations.ConstructedInv := by
  intro p s h
  obtain ⟨k, log, hk, rfl⟩ := construct_cases h
  exact (State.wf_iff _).2 ⟨memWf_memWriteAll _ [] rfl, memKeys_memWriteAll_filter isArrayKey _, buildCart_wf hk⟩

end Sys2Proof.Machine

/-! SUPPORT. A step as a whole: the invariant and the parameters through the CPU's part of a step and through its end. -/

namespace Sys2Proof.Machine

/-! ## The invariant and the parameters through a step -/

/-- The CPU's part of a step keeps the invariant: the request bits and the control bits play no part in it. -/
theorem CpuOutcome.inv {s u : State} (h : CpuOutcome s u) (hi : s.Inv) : u.Inv := by
  obtain ⟨q, hmoves, _⟩ := h
  have hstart : ({ s with ifl := q } : State).Inv := s.inv_congr _ rfl rfl hi
  exact State.inv_congr _ u rfl rfl (hmoves.inv hstart)

/-- The CPU's part of a step keeps the parameters of the block. -/
theorem CpuOutcome.params {s u : State} (h : CpuOutcome s u) : SameParams s u := by
  obtain ⟨q, hmoves, _⟩ := h
  exact hmoves.params

/-- The end of a step is idle after a fatal, and else the commit of EI and an iteration of the loop. -/
theorem State.endStep_cases (s : State) (b : Bool) : s.endStep b = s ∨ s.endStep b = (s.commitIme b).iterate := by
  cases h : s.fatal with
  | some f => exact .inl (s.endStep_fatal b f h)
  | none => exact .inr (s.endStep_live b h)

theorem State.inv_commitIme (s : State) (b : Bool) (h : s.Inv) : (s.commitIme b).Inv := by
  rw [s.commitIme_state b]
  exact s.inv_congr _ rfl rfl h

theorem State.inv_endStep (s : State) (b : Bool) (h : s.Inv) : (s.endStep b).Inv := by
  rcases s.endStep_cases b with he | he <;> rw [he]
  · exact h
  · exact State.inv_iterate _ (s.inv_commitIme b h)

theorem SameParams.commitIme (s : State) (b : Bool) : SameParams s (s.commitIme b) := by
  rw [s.commitIme_state b]
  exact .of_eq rfl rfl rfl

theorem SameParams.iterate (s : State) : SameParams s s.iterate := by
  rw [s.iterate_state]
  exact .of_eq rfl rfl rfl

theorem SameParams.endStep (s : State) (b : Bool) : SameParams s (s.endStep b) := by
  rcases s.endStep_cases b with he | he <;> rw [he]
  · exact .refl s
  · exact (SameParams.commitIme s b).trans (.iterate _)

/-- Settles O9: a step is a chain of register updates and bus accesses and then the end of the step, and each part keeps the
invariant. -/
theorem stepKeepsInv : Obligations.StepKeepsInv := by
  intro s t hi h
  obtain ⟨_, u, b, hu, rfl⟩ := step_cases h
  exact u.inv_endStep b (hu.inv hi)

/-- Settles O60: neither the CPU's part of a step nor its end writes a parameter. -/
theorem parametersFixed : Obligations.ParametersFixed := by
  intro s t h
  obtain ⟨_, u, b, hu, rfl⟩ := step_cases h
  exact hu.params.trans (.endStep u b)

end Sys2Proof.Machine

/-! SUPPORT. What the instructions keep of the flags and of the control bits IME, IME_PENDING and HALTED: a view of the state
that the bus and the register writes other than those of `F` leave, followed through each shape of meaning once (10_state.md
R37, R39 to R41). -/

namespace Sys2Proof

/-! ## The forms by what they write -/

/-- Loads and stores, the stack, INC and DEC of a pair, jumps, calls, returns and restarts, NOP, STOP and the illegal first
bytes: their rules write no control bit, and `F` in no form but POP AF and LD HL,SP+e, which are left out. -/
def Instr.moves : Instr → Bool
  | .ldRR _ _ | .ldRHl _ | .ldHlR _ | .ldRN _ _ | .ldHlN _ | .ldABc | .ldADe | .ldBcA | .ldDeA => true
  | .ldAHli | .ldAHld | .ldHliA | .ldHldA | .ldANn _ | .ldNnA _ | .ldhAN _ | .ldhNA _ | .ldhAC | .ldhCA => true
  | .ldRrNn _ _ | .ldNnSp _ | .ldSpHl | .push _ => true
  | .pop q => q != .af
  | .incRr _ | .decRr _ => true
  | .jpNn _ | .jpCcNn _ _ | .jpHl | .jrE _ | .jrCcE _ _ | .callNn _ | .callCcNn _ _ | .ret | .retCc _ | .rst _ => true
  | .nop | .stop _ | .illegal _ => true
  | _ => false

/-- The forms whose rules write no flag (10_state.md R37). -/
def Instr.keepsFlags : Instr → Bool
  | .reti | .halt | .di | .ei | .resB _ _ | .setB _ _ => true
  | i => i.moves

end Sys2Proof

namespace Sys2Proof.Machine

/-! ## Steady views -/

/-- A view of the state that no bus access, fatal, returned cost or register write changes, but for a write of `F`. -/
structure Steady {β : Type} (φ : State → β) : Prop where
  regs : ∀ (s : State) (g : Regs), g.f = s.regs.f → φ (s.withRegs g) = φ s
  read : ∀ (s : State) (a : Word) (k : Access), φ (s.busRead a k).state = φ s
  write : ∀ (s : State) (a : Word) (v : Byte), φ (s.busWrite a v).state = φ s
  raise : ∀ (s : State) (f : FatalRecord), φ (s.raise f) = φ s
  elapsed : ∀ (s : State) (m : Nat), φ (s.setElapsed m) = φ s

/-- The flags (10_state.md R36). -/
def State.flags (s : State) : Flags := s.regs.f

/-- IME, IME_PENDING and HALTED (10_state.md R39 to R41). -/
def State.control (s : State) : Bool × Bool × Bool := (s.ime, s.imePending, s.halted)

theorem steady_flags : Steady State.flags where
  regs _ _ h := h
  read s a k := congrArg Regs.f (s.busRead_regs a k)
  write s a v := congrArg Regs.f (s.busWrite_regs a v)
  raise _ _ := rfl
  elapsed _ _ := rfl

theorem steady_control : Steady State.control where
  regs _ _ _ := rfl
  read s a k := by rw [s.busRead_state a k]; rfl
  write s a v := by rw [s.busWrite_state a v]; rfl
  raise _ _ := rfl
  elapsed _ _ := rfl

/-- An operation from `s` leaves the view as it was, answered or refused. -/
def Res.Keeps {α β : Type} (φ : State → β) (s : State) (r : Res α) : Prop := φ r.state = φ s

/-- The next state a meaning answers has the view of `s`. -/
def AnswerKeeps {β : Type} (φ : State → β) (s : State) (r : Result) : Prop := ∀ t, r = .next t → φ t = φ s

theorem Res.Keeps.bind {α γ β : Type} {φ : State → β} {s : State} {r : Res α} {k : α → State → Res γ} (h : r.Keeps φ s)
    (hk : ∀ v t, r = .ok v t → (k v t).Keeps φ t) : (r.bind k).Keeps φ s := by
  cases r with
  | ok v t => exact (hk v t rfl).trans h
  | fatal t => exact h

theorem AnswerKeeps.next {β : Type} {φ : State → β} {s u : State} (h : φ u = φ s) : AnswerKeeps φ s (.next u) := by
  intro t ht
  cases ht
  exact h

theorem AnswerKeeps.ite {β : Type} {φ : State → β} {s : State} {c : Prop} [Decidable c] {r q : Result}
    (h : AnswerKeeps φ s r) (h' : AnswerKeeps φ s q) : AnswerKeeps φ s (if c then r else q) := by
  split_ifs
  · exact h
  · exact h'

/-! ## Steady views through the shapes of meaning -/

section Shapes

variable {α β : Type} {φ : State → β} (hφ : Steady φ)
include hφ

/-- What is computed from a steady view is steady. -/
theorem Steady.map {γ : Type} (f : β → γ) : Steady fun s => f (φ s) where
  regs s g h := congrArg f (hφ.regs s g h)
  read s a k := congrArg f (hφ.read s a k)
  write s a v := congrArg f (hφ.write s a v)
  raise s r := congrArg f (hφ.raise s r)
  elapsed s m := congrArg f (hφ.elapsed s m)

theorem Steady.settle {s : State} {r : Res α} (h : r.Keeps φ s) (m : Nat) : φ (r.settle m) = φ s := by
  cases r with
  | ok v t => exact (hφ.elapsed t m).trans h
  | fatal t => exact h

theorem Steady.done {s : State} {r : Res α} {m : Nat} (h : r.Keeps φ s) : AnswerKeeps φ s (r.done m) :=
  .next (hφ.settle h m)

/-- An operation from a state whose registers other than `F` were written before. -/
theorem Steady.after {s : State} {r : Res α} (g : Regs) (hg : g.f = s.regs.f) (h : r.Keeps φ (s.withRegs g)) :
    r.Keeps φ s := h.trans (hφ.regs s g hg)

/-- The value of an operation and a last write of registers other than `F`. -/
theorem Steady.ok (s : State) (v : α) (g : Regs) (hg : g.f = s.regs.f) : (Res.ok v (s.withRegs g)).Keeps φ s :=
  hφ.regs s g hg

/-- A meaning that writes registers other than `F` only. -/
theorem Steady.plain (s : State) (g : Regs) (m : Nat) (hg : g.f = s.regs.f) :
    AnswerKeeps φ s ((s.withRegs g).done m) := hφ.done (hφ.ok s () g hg)

theorem Steady.fatal (s : State) (g : Regs) (f : FatalRecord) (hg : g.f = s.regs.f) :
    AnswerKeeps φ s (.next ((s.withRegs g).raise f)) := .next ((hφ.raise _ f).trans (hφ.regs s g hg))

theorem Steady.push16 (s : State) (v : Word) : (s.push16 v).Keeps φ s :=
  hφ.after { s.regs with sp := s.regs.sp - 1 } rfl
    (Res.Keeps.bind (hφ.write _ _ _) fun _ t _ =>
      hφ.after { t.regs with sp := t.regs.sp - 1 } rfl (hφ.write _ _ _))

theorem Steady.pop16 (s : State) : s.pop16.Keeps φ s :=
  Res.Keeps.bind (hφ.read _ _ _) fun _ t _ =>
    hφ.after { t.regs with sp := t.regs.sp + 1 } rfl
      (Res.Keeps.bind (hφ.read _ _ _) fun _ u _ => hφ.ok u _ _ rfl)

theorem Steady.write16 (s : State) (a v : Word) : (s.write16 a v).Keeps φ s :=
  Res.Keeps.bind (hφ.write _ _ _) fun _ _ _ => hφ.write _ _ _

theorem Steady.popPc (s : State) : s.popPc.Keeps φ s := Res.Keeps.bind (hφ.pop16 s) fun _ u _ => hφ.ok u () _ rfl

theorem Steady.popPc_done (s : State) (m : Nat) : AnswerKeeps φ s ((s.advance 1).popPc.done m) :=
  hφ.done (hφ.after { s.regs with pc := s.regs.pc + 1 } rfl (hφ.popPc _))

theorem Steady.callTo_done (n v : Word) (s : State) (m : Nat) : AnswerKeeps φ s (((s.advance n).callTo v).done m) :=
  hφ.done (hφ.after { s.regs with pc := s.regs.pc + n } rfl
    (Res.Keeps.bind (hφ.push16 _ _) fun _ u _ => hφ.ok u () _ rfl))

theorem Steady.loadTo (dst : R8) (n : Word) (m : Nat) (addr : State → Word) (s : State) :
    AnswerKeeps φ s (loadTo dst n m addr s) :=
  hφ.done (hφ.after { s.regs with pc := s.regs.pc + n } rfl
    (Res.Keeps.bind (hφ.read _ _ _) fun _ u _ => hφ.ok u () _ (Regs.set_f _ _ _)))

theorem Steady.storeAt (n : Word) (m : Nat) (addr : State → Word) (val : State → Byte) (s : State) :
    AnswerKeeps φ s (storeAt n m addr val s) :=
  hφ.done (hφ.after { s.regs with pc := s.regs.pc + n } rfl (hφ.write _ _ _))

theorem Steady.loadStep (d : Word) (s : State) : AnswerKeeps φ s (loadStep d s) :=
  hφ.done (hφ.after { s.regs with pc := s.regs.pc + 1 } rfl
    (Res.Keeps.bind (hφ.read _ _ _) fun _ u _ => hφ.ok u () _ rfl))

theorem Steady.storeStep (d : Word) (s : State) : AnswerKeeps φ s (storeStep d s) :=
  hφ.done (hφ.after { s.regs with pc := s.regs.pc + 1 } rfl
    (Res.Keeps.bind (hφ.write _ _ _) fun _ u _ => hφ.ok u () _ rfl))

theorem Steady.readOpnd (s : State) (o : Opnd8) : (s.readOpnd o).Keeps φ s := by
  cases o with
  | reg r => rfl
  | atHl => exact hφ.read _ _ _

theorem Steady.writeOpnd (s : State) (o : Opnd8) (v : Byte) : (s.writeOpnd o v).Keeps φ s := by
  cases o with
  | reg r => exact hφ.ok s () _ (Regs.set_f _ _ _)
  | atHl => exact hφ.write _ _ _

/-- A form that writes its operand back keeps the view where its last write, that of the flags, does. -/
theorem Steady.modify (op : Byte → Flags → Byte × Flags) (o : Opnd8) (n : Word) (m : Nat) (s : State)
    (hop : ∀ (v : Byte) (u : State), φ (u.setF (op v u.regs.f).2) = φ u) :
    AnswerKeeps φ s (((s.advance n).modify op o).done m) := by
  refine hφ.done (hφ.after { s.regs with pc := s.regs.pc + n } rfl (Res.Keeps.bind (hφ.readOpnd _ o) fun v t _ =>
    Res.Keeps.bind (hφ.writeOpnd t o _) fun _ u hu => ?_))
  have hf : u.regs.f = t.regs.f := by
    have hw : (t.writeOpnd o (op v t.regs.f).1).Keeps State.flags t := steady_flags.writeOpnd t o _
    rwa [hu] at hw
  rw [← hf]
  exact hop v u

end Shapes

/-! ## The forms that move data and control -/

/-- Every form that moves data or control keeps a steady view, whether it completes or raises. -/
theorem Steady.exec_moves {β : Type} {φ : State → β} (hφ : Steady φ) {i : Instr} (hi : i.moves = true) (s : State) :
    AnswerKeeps φ s (exec i s) := by
  cases i
  case ldRR => exact hφ.plain s _ 1 (Regs.set_f _ _ _)
  case ldRHl dst => exact hφ.loadTo dst 1 2 State.hl s
  case ldHlR src => exact hφ.storeAt 1 2 State.hl (fun t => t.getR8 src) s
  case ldRN => exact hφ.plain s _ 2 (Regs.set_f _ _ _)
  case ldHlN n => exact hφ.storeAt 2 3 State.hl (fun _ => n) s
  case ldABc => exact hφ.loadTo .a 1 2 (fun t => t.getRR .bc) s
  case ldADe => exact hφ.loadTo .a 1 2 (fun t => t.getRR .de) s
  case ldBcA => exact hφ.storeAt 1 2 (fun t => t.getRR .bc) (fun t => t.getR8 .a) s
  case ldDeA => exact hφ.storeAt 1 2 (fun t => t.getRR .de) (fun t => t.getR8 .a) s
  case ldAHli => exact hφ.loadStep _ s
  case ldAHld => exact hφ.loadStep _ s
  case ldHliA => exact hφ.storeStep _ s
  case ldHldA => exact hφ.storeStep _ s
  case ldANn nn => exact hφ.loadTo .a 3 4 (fun _ => nn) s
  case ldNnA nn => exact hφ.storeAt 3 4 (fun _ => nn) (fun t => t.getR8 .a) s
  case ldhAN n => exact hφ.loadTo .a 2 3 (fun _ => topPage n) s
  case ldhNA n => exact hφ.storeAt 2 3 (fun _ => topPage n) (fun t => t.getR8 .a) s
  case ldhAC => exact hφ.loadTo .a 1 2 (fun t => topPage (t.getR8 .c)) s
  case ldhCA => exact hφ.storeAt 1 2 (fun t => topPage (t.getR8 .c)) (fun t => t.getR8 .a) s
  case ldRrNn => exact hφ.plain s _ 3 (Regs.setRR_f _ _ _)
  case ldNnSp => exact hφ.done (hφ.after { s.regs with pc := s.regs.pc + 3 } rfl (hφ.write16 _ _ _))
  case ldSpHl => exact hφ.plain s _ 2 rfl
  case push => exact hφ.done (hφ.after { s.regs with pc := s.regs.pc + 1 } rfl (hφ.push16 _ _))
  case pop q =>
    have hq : q ≠ .af := bne_iff_ne.1 hi
    exact hφ.done (hφ.after { s.regs with pc := s.regs.pc + 1 } rfl
      (Res.Keeps.bind (hφ.pop16 _) fun v u _ => hφ.ok u () _ (u.setQQ_f q v hq)))
  case incRr => exact hφ.plain s _ 2 (Regs.setRR_f _ _ _)
  case decRr => exact hφ.plain s _ 2 (Regs.setRR_f _ _ _)
  case jpNn => exact hφ.plain s _ 4 rfl
  case jpCcNn => exact AnswerKeeps.ite (hφ.plain s _ 4 rfl) (hφ.plain s _ 3 rfl)
  case jpHl => exact hφ.plain s _ 1 rfl
  case jrE => exact hφ.plain s _ 3 rfl
  case jrCcE => exact AnswerKeeps.ite (hφ.plain s _ 3 rfl) (hφ.plain s _ 2 rfl)
  case callNn => exact hφ.callTo_done 3 _ s 6
  case callCcNn => exact AnswerKeeps.ite (hφ.callTo_done 3 _ s 6) (hφ.plain s _ 3 rfl)
  case ret => exact hφ.popPc_done s 4
  case retCc => exact AnswerKeeps.ite (hφ.popPc_done s 5) (hφ.plain s _ 2 rfl)
  case rst => exact hφ.callTo_done 1 _ s 4
  case nop => exact hφ.plain s _ 1 rfl
  case stop => exact hφ.fatal s _ _ rfl
  case illegal => exact hφ.fatal s s.regs _ rfl
  all_goals cases hi

/-! ## The control bits -/

theorem aluHl_control (op : Byte → Byte → Flags → Byte × Flags) (s : State) : AnswerKeeps State.control s (aluHl op s) :=
  steady_control.done (s := s) (Res.Keeps.bind (steady_control.read (s.advance 1) _ _) fun _ _ _ => rfl)

theorem modify_control (op : Byte → Flags → Byte × Flags) (o : Opnd8) (n : Word) (m : Nat) (s : State) :
    AnswerKeeps State.control s (((s.advance n).modify op o).done m) :=
  steady_control.modify op o n m s fun _ _ => rfl

theorem execBitB_control (b : BitVec 3) (o : Opnd8) (s : State) : AnswerKeeps State.control s (execBitB b o s) :=
  steady_control.done (s := s) (Res.Keeps.bind (steady_control.readOpnd (s.advance 2) o) fun _ _ _ => rfl)

theorem execPrefixCb_control (c : Byte) (s : State) : AnswerKeeps State.control s (execPrefixCb c s) := by
  unfold execPrefixCb
  simp only
  split_ifs
  · exact execBitB_control _ _ s
  all_goals exact modify_control _ _ 2 _ s

/-- Every instruction but DI, EI, RETI and HALT keeps the control bits. -/
theorem exec_control (i : Instr) (s : State) (hdi : i ≠ .di) (hei : i ≠ .ei) (hreti : i ≠ .reti) (hhalt : i ≠ .halt) :
    AnswerKeeps State.control s (exec i s) := by
  by_cases hm : i.moves = true
  · exact steady_control.exec_moves hm s
  · -- The forms that move data were settled above; the try leaves the others and POP of any pair.
    cases i <;> try exact absurd rfl hm
    case di => exact absurd rfl hdi
    case ei => exact absurd rfl hei
    case reti => exact absurd rfl hreti
    case halt => exact absurd rfl hhalt
    case pop q => exact steady_control.done (s := s) (Res.Keeps.bind (steady_control.pop16 (s.advance 1)) fun _ _ _ => rfl)
    case addHl => exact aluHl_control aluAdd s
    case adcHl => exact aluHl_control aluAdc s
    case subHl => exact aluHl_control aluSub s
    case sbcHl => exact aluHl_control aluSbc s
    case andHl => exact aluHl_control aluAnd s
    case xorHl => exact aluHl_control aluXor s
    case orHl => exact aluHl_control aluOr s
    case cpHl => exact aluHl_control aluCp s
    case incHl => exact modify_control inc8 .atHl 1 3 s
    case decHl => exact modify_control dec8 .atHl 1 3 s
    case prefixCb c => exact execPrefixCb_control c s
    case bitB b o => exact execBitB_control b o s
    case rlc o => exact modify_control rlc8 o 2 _ s
    case rrc o => exact modify_control rrc8 o 2 _ s
    case rl o => exact modify_control rl8 o 2 _ s
    case rr o => exact modify_control rr8 o 2 _ s
    case sla o => exact modify_control sla8 o 2 _ s
    case sra o => exact modify_control sra8 o 2 _ s
    case swap o => exact modify_control swap8 o 2 _ s
    case srl o => exact modify_control srl8 o 2 _ s
    case resB b o => exact modify_control (fun v f => (res8 b v, f)) o 2 _ s
    case setB b o => exact modify_control (fun v f => (set8 b v, f)) o 2 _ s
    all_goals exact .next rfl

/-- HALT keeps IME and IME_PENDING, whether it halts or raises. -/
theorem execHalt_enables (s : State) : AnswerKeeps (fun u => (u.ime, u.imePending)) s (execHalt s) :=
  .ite (.next rfl) (.next rfl)

/-- RETI keeps HALTED: its last write is to IME and IME_PENDING. -/
theorem execReti_halted (s : State) : AnswerKeeps State.halted s (execReti s) := by
  have hhalted : Steady State.halted := steady_control.map fun c => c.2.2
  exact hhalted.done (s := s) (Res.Keeps.bind (hhalted.popPc (s.advance 1)) fun _ _ _ => rfl)

/-- Settles O58: every instruction but DI, EI, RETI and HALT keeps the three bits, and each of these four keeps those its rule
does not name. -/
theorem controlBitWriters : Obligations.ControlBitWriters := by
  intro i s t h
  by_cases hw : i = .di ∨ i = .ei ∨ i = .reti ∨ i = .halt
  · rcases hw with rfl | rfl | rfl | rfl
    · cases h
      exact ⟨fun hn _ => absurd rfl hn, fun hn _ _ => absurd rfl hn, fun _ => rfl⟩
    · cases h
      exact ⟨fun _ _ => rfl, fun _ hn _ => absurd rfl hn, fun _ => rfl⟩
    · exact ⟨fun _ hn => absurd rfl hn, fun _ _ hn => absurd rfl hn, fun _ => execReti_halted s t h⟩
    · obtain ⟨hime, hpend⟩ := Prod.mk.inj (execHalt_enables s t h)
      exact ⟨fun _ _ => hime, fun _ _ _ => hpend, fun hn => absurd rfl hn⟩
  · simp only [not_or] at hw
    obtain ⟨hdi, hei, hreti, hhalt⟩ := hw
    have hc : t.control = s.control := exec_control i s hdi hei hreti hhalt t h
    obtain ⟨hime, hc'⟩ := Prod.mk.inj hc
    obtain ⟨hpend, hhalted⟩ := Prod.mk.inj hc'
    exact ⟨fun _ _ => hime, fun _ _ _ => hpend, fun _ => hhalted⟩

/-! ## The flags -/

/-- A form whose rule writes no flag keeps them, whether it completes or raises. -/
theorem exec_flags {i : Instr} (hi : i.keepsFlags = true) (s : State) : AnswerKeeps State.flags s (exec i s) := by
  by_cases hm : i.moves = true
  · exact steady_flags.exec_moves hm s
  · cases i
    case reti =>
      exact steady_flags.done (s := s) (Res.Keeps.bind (steady_flags.popPc (s.advance 1)) fun _ _ _ => rfl)
    case halt => exact AnswerKeeps.ite (.next rfl) (.next rfl)
    case di => exact .next rfl
    case ei => exact .next rfl
    case resB b o => exact steady_flags.modify (fun v f => (res8 b v, f)) o 2 _ s fun _ _ => rfl
    case setB b o => exact steady_flags.modify (fun v f => (set8 b v, f)) o 2 _ s fun _ _ => rfl
    all_goals exact absurd hi hm

theorem exec_flags_of_mem {l : List Instr} {i : Instr} {s t : State} (hl : l.all Instr.keepsFlags = true) (hi : i ∈ l)
    (h : exec i s = .next t) : t.regs.f = s.regs.f := exec_flags (List.all_eq_true.1 hl i hi) s t h

/-! ## Halted steps and dispatches -/

/-- The end of a step writes no register. -/
theorem State.endStep_regs (s : State) (b : Bool) : (s.endStep b).regs = s.regs := by
  rcases s.endStep_cases b with he | he <;> rw [he]
  rw [State.iterate_state, s.commitIme_state b]

theorem step_live {s : State} (hf : s.fatal = none) : step s = s.liveStep := by
  unfold step
  rw [hf]

theorem step_halted {s t : State} (hh : s.halted = true) (hp : s.pending = false) (h : step s = .next t) :
    t = (s.setElapsed 1).endStep false := by
  obtain ⟨hf, _⟩ := step_cases h
  rw [step_live hf, State.liveStep, if_pos ⟨hh, hp⟩] at h
  cases h
  rfl

/-- Where an interrupt is pending, one is requested (60_exceptions.md R415, R416). -/
theorem State.requested_of_pending (s : State) (h : s.pending = true) : ∃ i, s.requested = some i := by
  have hb : s.pendingBits ≠ 0 := by simpa [State.pending] using h
  have hbits : ∀ b : BitVec 5, b ≠ 0 → ¬ b.getLsbD 0 = true → ¬ b.getLsbD 1 = true → ¬ b.getLsbD 2 = true →
      ¬ b.getLsbD 3 = true → b.getLsbD 4 = true := by decide
  unfold State.requested
  split_ifs with h0 h1 h2 h3 h4
  case neg => exact absurd (hbits _ hb h0 h1 h2 h3) h4
  all_goals exact ⟨_, rfl⟩

theorem State.awakeStep_dispatch {s : State} {i : Source} (hi : s.ime = true) (hr : s.requested = some i) :
    s.awakeStep = .next ((s.takeInterrupt i).endStep false) := by
  unfold State.awakeStep
  rw [hi, hr]

theorem step_dispatch {s t : State} (hi : s.ime = true) (hp : s.pending = true) (h : step s = .next t) :
    ∃ i, t = (State.takeInterrupt { s with halted := false } i).endStep false := by
  obtain ⟨hf, _⟩ := step_cases h
  obtain ⟨i, hr⟩ := s.requested_of_pending hp
  have hawake : ¬ (s.halted = true ∧ s.pending = false) := by simp [hp]
  rw [step_live hf, State.liveStep, if_neg hawake, State.awakeStep_dispatch (s := { s with halted := false }) hi hr] at h
  cases h
  exact ⟨i, rfl⟩

/-- A dispatch keeps the flags, whether its push is answered or refused. -/
theorem State.takeInterrupt_flags (s : State) (i : Source) : (s.takeInterrupt i).flags = s.flags :=
  steady_flags.settle (s := s)
    (Res.Keeps.bind (steady_flags.push16 { s.resetIfBit i with ime := false, imePending := false } s.regs.pc)
      fun _ t _ => steady_flags.ok t () { t.regs with pc := i.vector } rfl) 5

/-- Settles O59: the listed forms keep the flags by their shapes, a halted step writes no register, and a dispatch pushes
without a flag. -/
theorem flagsKept : Obligations.FlagsKept := by
  refine ⟨fun s t i h hi => ?_, fun s t dst src n nn p q cc b o i h hi => ?_, fun s t q hq h => ?_, fun s t hh hp h => ?_,
    fun s t hi hp h => ?_⟩
  · exact exec_flags_of_mem rfl hi h
  · exact exec_flags_of_mem rfl hi h
  · have hk : (Instr.pop q).keepsFlags = true := bne_iff_ne.2 hq
    exact exec_flags hk s t h
  · rw [step_halted hh hp h, State.endStep_regs]
    rfl
  · obtain ⟨i, rfl⟩ := step_dispatch hi hp h
    rw [State.endStep_regs]
    exact State.takeInterrupt_flags _ i

end Sys2Proof.Machine

/-! SUPPORT. The bus by zones: the range of each zone, and what a read and a write answer in it (20_memory.md R81, R82, R90 to
R99). -/

namespace Sys2Proof.Machine

/-! ## The address map -/

theorem zoneOf_eq_vram (a : Word) : zoneOf a = .vram ↔ 0x8000 ≤ a.toNat ∧ a.toNat ≤ 0x9FFF := by
  simp only [zoneOf]
  split_ifs <;> simp <;> omega

theorem zoneOf_eq_wram (a : Word) : zoneOf a = .wram ↔ 0xC000 ≤ a.toNat ∧ a.toNat ≤ 0xDFFF := by
  simp only [zoneOf]
  split_ifs <;> simp <;> omega

theorem zoneOf_eq_forbidden (a : Word) :
    zoneOf a = .forbidden ↔ (0xE000 ≤ a.toNat ∧ a.toNat ≤ 0xFDFF) ∨ (0xFEA0 ≤ a.toNat ∧ a.toNat ≤ 0xFEFF) := by
  simp only [zoneOf]
  split_ifs <;> simp <;> omega

theorem zoneOf_eq_oam (a : Word) : zoneOf a = .oam ↔ 0xFE00 ≤ a.toNat ∧ a.toNat ≤ 0xFE9F := by
  simp only [zoneOf]
  split_ifs <;> simp <;> omega

theorem zoneOf_eq_io (a : Word) : zoneOf a = .io ↔ 0xFF00 ≤ a.toNat ∧ a.toNat ≤ 0xFF7F := by
  simp only [zoneOf]
  split_ifs <;> simp <;> omega

theorem zoneOf_eq_hram (a : Word) : zoneOf a = .hram ↔ 0xFF80 ≤ a.toNat ∧ a.toNat ≤ 0xFFFE := by
  simp only [zoneOf]
  split_ifs <;> simp <;> omega

/-- Settles O10: the range of each zone. -/
theorem addressMap : Obligations.AddressMap := fun a =>
  ⟨zoneOf_eq_rom a, zoneOf_eq_vram a, zoneOf_eq_cartRam a, zoneOf_eq_wram a, zoneOf_eq_forbidden a, zoneOf_eq_oam a,
    zoneOf_eq_io a, zoneOf_eq_hram a, zoneOf_eq_ie a⟩

/-! ## The forbidden zones -/

theorem State.busRead_forbidden (s : State) (a : Word) (k : Access) (h : zoneOf a = .forbidden) :
    s.busRead a k = .fatal (s.raise (.forbiddenAddress a k)) := by
  unfold State.busRead
  rw [h]

theorem State.busWrite_forbidden (s : State) (a : Word) (v : Byte) (h : zoneOf a = .forbidden) :
    s.busWrite a v = .fatal (s.raise (.forbiddenAddress a .write)) := by
  unfold State.busWrite
  rw [h]

/-- Settles O12: both ranges are the forbidden zone, where every access raises and does nothing else. -/
theorem forbiddenZones : Obligations.ForbiddenZones := by
  intro s a h
  have hz : zoneOf a = .forbidden := (zoneOf_eq_forbidden a).2 h
  exact ⟨fun k => s.busRead_forbidden a k hz, fun v => s.busWrite_forbidden a v hz⟩

/-! ## The plain arrays -/

theorem State.peek_array (s : State) (a : Word) (h : IsArray a) : s.peek a = some (memRead s.mem a.toNat) := by
  unfold State.peek
  rcases h with h | h | h | h <;> rw [h]

theorem State.busWrite_array (s : State) (a : Word) (v : Byte) (h : IsArray a) : s.busWrite a v = .ok () (s.storeMem a v) := by
  unfold State.busWrite
  rcases h with h | h | h | h <;> rw [h]

theorem State.busRead_array (s : State) (a : Word) (k : Access) (h : IsArray a) :
    s.busRead a k = .ok (memRead s.mem a.toNat) s :=
  s.busRead_of_peek a k _ (s.peek_array a h)

theorem State.peek_storeMem_same (s : State) (a : Word) (v : Byte) (h : IsArray a) : (s.storeMem a v).peek a = some v := by
  rw [State.peek_array _ a h]
  exact congrArg some (memRead_memWrite_same s.mem a.toNat v)

/-- Settles O11: a write in the arrays is one store, and a read gives what the array holds. -/
theorem plainArrays : Obligations.PlainArrays := by
  intro s a v ha
  exact ⟨⟨s.storeMem a v, s.busWrite_array a v ha, rfl, s.peek_storeMem_same a v ha,
      fun b hb => s.peek_storeMem_other a b v hb⟩,
    fun k => ⟨_, s.peek_array a ha, s.busRead_array a k ha⟩⟩

/-! ## The registers the block owns -/

theorem State.busRead_ioReg (s : State) (r : IoReg) (k : Access) : s.busRead r.addr k = .ok (s.readIoReg r) s := by
  cases r <;> rfl

theorem State.busWrite_ioReg (s : State) (r : IoReg) (v : Byte) : s.busWrite r.addr v = .ok () (s.writeIoReg r v) := by
  cases r <;> rfl

/-- A mask that keeps the stored bits does not change what is stored. -/
theorem setWidth_and_of_allOnes {n w : Nat} (v m : BitVec n) (h : m.setWidth w = BitVec.allOnes w) :
    (v &&& m).setWidth w = v.setWidth w := by
  rw [BitVec.setWidth_and, h, BitVec.and_allOnes]

/-- Settles O13: the read and the write of each register, with the masks of TAC, IF and IE. -/
theorem ownedRegisters : Obligations.OwnedRegisters := by
  intro s k v
  have h3 : (v &&& 0x07).setWidth 3 = v.setWidth 3 := setWidth_and_of_allOnes v _ rfl
  have h5 : (v &&& 0x1F).setWidth 5 = v.setWidth 5 := setWidth_and_of_allOnes v _ rfl
  rw [h3, h5]
  exact ⟨s.busRead_ioReg .div k, s.busWrite_ioReg .div v, s.busRead_ioReg .tima k, s.busWrite_ioReg .tima v,
    s.busRead_ioReg .tma k, s.busWrite_ioReg .tma v, s.busRead_ioReg .tac k, s.busWrite_ioReg .tac v,
    s.busRead_ioReg .ifl k, s.busWrite_ioReg .ifl v, rfl, rfl⟩

/-! ## The collaborator's addresses -/

/-- The I/O addresses other than the five the block owns are the collaborator's (20_memory.md R96). -/
theorem isPIo_of_ne {a : Word} (ha : 0xFF00 ≤ a.toNat ∧ a.toNat ≤ 0xFF7F) (h : ∀ r : IoReg, a ≠ r.addr) : IsPIo a := by
  refine ⟨(zoneOf_eq_io a).2 ha, ?_⟩
  cases hr : ioRegOf a with
  | none => rfl
  | some r => exact absurd ((ioRegOf_eq_some a r).1 hr) (h r)

/-- A write of an address the block does not own is the collaborator's. -/
theorem State.busWrite_pIo (s : State) (a : Word) (v : Byte) (h : IsPIo a) : s.busWrite a v = s.pIoWrite a := by
  unfold State.busWrite State.ioWrite
  rw [h.1, h.2]

theorem State.pIoRead_answer {s : State} {w : Byte} {rest : List IoAnswer} (a : Word) (h : s.ioScript = .answer w :: rest) :
    s.pIoRead a = .ok w { s with ioScript := rest } := by
  unfold State.pIoRead
  rw [h]

theorem State.pIoRead_refuse {s : State} {rest : List IoAnswer} (a : Word) (h : s.ioScript = .refuse :: rest) :
    s.pIoRead a = .fatal ({ s with ioScript := rest }.raise (.io a)) := by
  unfold State.pIoRead
  rw [h]

theorem State.pIoRead_unscripted {s : State} (a : Word) (h : s.ioScript = []) :
    s.pIoRead a = .ok (Config.ioByte s.draws a) { s with draws := s.draws + 1 } := by
  unfold State.pIoRead
  rw [h]

theorem State.pIoWrite_answer {s : State} {w : Byte} {rest : List IoAnswer} (a : Word) (h : s.ioScript = .answer w :: rest) :
    s.pIoWrite a = .ok () { s with ioScript := rest } := by
  unfold State.pIoWrite
  rw [h]

theorem State.pIoWrite_refuse {s : State} {rest : List IoAnswer} (a : Word) (h : s.ioScript = .refuse :: rest) :
    s.pIoWrite a = .fatal ({ s with ioScript := rest }.raise (.io a)) := by
  unfold State.pIoWrite
  rw [h]

theorem State.pIoWrite_unscripted {s : State} (a : Word) (h : s.ioScript = []) : s.pIoWrite a = .ok () s := by
  unfold State.pIoWrite
  rw [h]

/-- Settles O14: both accesses are the collaborator's, case by case of its script. -/
theorem ioCollaborator : Obligations.IoCollaborator := by
  intro s a k v ha hdiv htima htma htac hifl
  have hp : IsPIo a := isPIo_of_ne ha fun r => by cases r <;> assumption
  rw [s.busRead_pIo a k hp, s.busWrite_pIo a v hp]
  exact ⟨fun w rest hs => ⟨State.pIoRead_answer a hs, State.pIoWrite_answer a hs⟩,
    fun rest hs => ⟨State.pIoRead_refuse a hs, State.pIoWrite_refuse a hs⟩,
    fun hs => ⟨⟨_, State.pIoRead_unscripted a hs⟩, State.pIoWrite_unscripted a hs⟩⟩

end Sys2Proof.Machine

/-! SUPPORT. The cartridge by controller and window: what a read answers and what a write leaves (20_memory.md R110 to
R120). -/

namespace Sys2Proof.Machine

/-! ## The cartridge on the bus -/

/-- A cartridge address is in a ROM window or in the RAM window (20_memory.md R81, R110). -/
def IsCart (a : Word) : Prop := zoneOf a = .rom ∨ zoneOf a = .cartRam

theorem isCart_iff (a : Word) : IsCart a ↔ a.toNat ≤ 0x7FFF ∨ (0xA000 ≤ a.toNat ∧ a.toNat ≤ 0xBFFF) := by
  rw [IsCart, zoneOf_eq_rom, zoneOf_eq_cartRam]

theorem State.busRead_cart (s : State) (a : Word) (k : Access) (h : IsCart a) : s.busRead a k = s.cartRead a := by
  unfold State.busRead
  rcases h with h | h <;> rw [h]

theorem State.busWrite_cart (s : State) (a : Word) (v : Byte) (h : IsCart a) : s.busWrite a v = .ok () (s.cartWrite a v) := by
  unfold State.busWrite
  rcases h with h | h <;> rw [h]

theorem State.cartRead_ok {s : State} {a : Word} {v : Byte} (h : s.cart.read a = .ok v) : s.cartRead a = .ok v s := by
  unfold State.cartRead
  rw [h]

theorem State.cartRead_error {s : State} {a : Word} {f : FatalRecord} (h : s.cart.read a = .error f) :
    s.cartRead a = .fatal (s.raise f) := by
  unfold State.cartRead
  rw [h]

/-! ## RomOnly -/

section RomOnly
variable {k : Cart} {a : Word} (hk : k.ctl = .romOnly)
include hk

theorem Cart.read_romOnly_inside (h : a.toNat < k.romBytes) : k.read a = .ok (memRead k.rom a.toNat) := by
  simp only [Cart.read, hk, if_pos h]

theorem Cart.read_romOnly_outside (h : k.romBytes ≤ a.toNat) : k.read a = .error (.romOutOfBounds a) := by
  simp only [Cart.read, hk, if_neg (Nat.not_lt.2 h)]

theorem Cart.write_romOnly (v : Byte) : k.write a v = k := by
  simp only [Cart.write, hk]

end RomOnly

/-- Settles O20: the read by the side of the bound the address lies on, and the write that leaves the cartridge as it was. -/
theorem romOnlyCartridge : Obligations.RomOnlyCartridge := by
  intro s a k v hk ha
  have hc : IsCart a := (isCart_iff a).2 ha
  rw [s.busRead_cart a k hc, s.busWrite_cart a v hc]
  refine ⟨fun h => State.cartRead_ok (Cart.read_romOnly_inside hk h),
    fun h => State.cartRead_error (Cart.read_romOnly_outside hk h), ?_⟩
  rw [State.cartWrite, Cart.write_romOnly hk]

/-! ## The offsets of MBC1 in the spec's arithmetic -/

theorem Mbc1.lowOffset_eq (m : Mbc1) (n a : Nat) :
    m.lowOffset n a = ((if m.mode = 1 then m.bank2.toNat * 32 else 0) * 0x4000 + a) % n := by
  simp only [Mbc1.lowOffset, Nat.shiftLeft_eq, Nat.reducePow]

/-- `BANK2` and the five bits below it share no bit, so the bank number is their sum (20_memory.md R118). -/
theorem Mbc1.highBank_eq (m : Mbc1) :
    m.highBank = m.bank2.toNat * 32 + (if m.romb.toNat = 0 then 1 else m.romb.toNat) := by
  have hzero : m.romb = 0 ↔ m.romb.toNat = 0 := BitVec.toNat_inj.symm
  have hlo : (if m.romb.toNat = 0 then 1 else m.romb.toNat) < 2 ^ 5 := by
    split_ifs
    · decide
    · exact m.romb.isLt
  simp only [Mbc1.highBank, hzero]
  rw [← Nat.shiftLeft_add_eq_or_of_lt hlo, Nat.shiftLeft_eq]

theorem Mbc1.highOffset_eq (m : Mbc1) (n a : Nat) (h : 0x4000 ≤ a) (h' : a ≤ 0x7FFF) :
    m.highOffset n a = (m.highBank * 0x4000 + (a - 0x4000)) % n := by
  have ha : a % 0x4000 = a - 0x4000 := by omega
  rw [Mbc1.highOffset, ha]

theorem Mbc1.ramOffset_eq (m : Mbc1) (n a : Nat) (h : 0xA000 ≤ a) (h' : a ≤ 0xBFFF) :
    m.ramOffset n a = ((if m.mode = 1 then m.bank2.toNat else 0) * 0x2000 + (a - 0xA000)) % n := by
  have ha : a % 0x2000 = a - 0xA000 := by omega
  simp only [Mbc1.ramOffset, ha]

/-- An array of whole banks wraps by bank: the offset into the bank stays (20_memory.md R118). -/
theorem bank_offset_mod {size n : Nat} (bank off : Nat) (hd : size ∣ n) (hoff : off < size) :
    (bank * size + off) % n = bank % (n / size) * size + off := by
  obtain ⟨banks, rfl⟩ := hd
  have hpos : 0 < size := by omega
  have hdiv : (bank * size + off) / size = bank := by
    rw [Nat.mul_comm, Nat.mul_add_div hpos, Nat.div_eq_of_lt hoff, Nat.add_zero]
  rw [Nat.mod_mul, hdiv, Nat.mul_add_mod_of_lt hoff, Nat.mul_div_cancel_left _ hpos, Nat.mul_comm, Nat.add_comm]

/-- Every legal ROM size is a number of whole banks (20_memory.md R125). -/
theorem Cart.bank_dvd_romBytes (k : Cart) (h : k.wf = true) : 0x4000 ∣ k.romBytes := by
  have hs := k.sizes_rom h
  have hall : ∀ n ∈ [0x8000, 0x10000, 0x20000, 0x40000, 0x80000, 0x100000, 0x200000, 0x400000, 0x800000], 0x4000 ∣ n := by
    decide
  exact hall _ hs

/-! ## The windows of MBC1 -/

section Mbc1
variable {k : Cart} {m : Mbc1} {a : Word} (hk : k.ctl = .mbc1 m)
include hk

theorem Cart.read_mbc1_low (h : a.toNat ≤ 0x3FFF) : k.read a = .ok (memRead k.rom (m.lowOffset k.romBytes a.toNat)) := by
  simp only [Cart.read, hk, if_pos h]

theorem Cart.read_mbc1_high (h : 0x4000 ≤ a.toNat) (h' : a.toNat ≤ 0x7FFF) :
    k.read a = .ok (memRead k.rom (m.highOffset k.romBytes a.toNat)) := by
  have hlow : ¬ a.toNat ≤ 0x3FFF := by omega
  simp only [Cart.read, hk, if_neg hlow, if_pos h']

theorem Cart.read_mbc1_ram_off (h : 0xA000 ≤ a.toNat) (hoff : m.ramEn = false ∨ k.ramBytes = 0) : k.read a = .ok openBus := by
  have hlow : ¬ a.toNat ≤ 0x3FFF := by omega
  have hhigh : ¬ a.toNat ≤ 0x7FFF := by omega
  simp only [Cart.read, hk, if_neg hlow, if_neg hhigh, if_pos hoff]

theorem Cart.read_mbc1_ram_on (h : 0xA000 ≤ a.toNat) (hon : ¬ (m.ramEn = false ∨ k.ramBytes = 0)) :
    k.read a = .ok (memRead k.ram (m.ramOffset k.ramBytes a.toNat)) := by
  have hlow : ¬ a.toNat ≤ 0x3FFF := by omega
  have hhigh : ¬ a.toNat ≤ 0x7FFF := by omega
  simp only [Cart.read, hk, if_neg hlow, if_neg hhigh, if_neg hon]

theorem Cart.write_mbc1_reg (v : Byte) (h : a.toNat ≤ 0x7FFF) : k.write a v = { k with ctl := .mbc1 (m.writeReg a v) } := by
  simp only [Cart.write, hk, if_pos h]

theorem Cart.write_mbc1_ram_off (v : Byte) (h : 0xA000 ≤ a.toNat) (hoff : m.ramEn = false ∨ k.ramBytes = 0) :
    k.write a v = k := by
  have hhigh : ¬ a.toNat ≤ 0x7FFF := by omega
  simp only [Cart.write, hk, if_neg hhigh, if_pos hoff]

theorem Cart.write_mbc1_ram_on (v : Byte) (h : 0xA000 ≤ a.toNat) (hon : ¬ (m.ramEn = false ∨ k.ramBytes = 0)) :
    k.write a v = { k with ram := memWrite k.ram (m.ramOffset k.ramBytes a.toNat) v } := by
  have hhigh : ¬ a.toNat ≤ 0x7FFF := by omega
  simp only [Cart.write, hk, if_neg hhigh, if_neg hon]

end Mbc1

/-- Settles O17: the two windows read at the model's offsets, which are the spec's. -/
theorem mbc1RomWindows : Obligations.Mbc1RomWindows := by
  intro s m a k hk
  refine ⟨fun h => ?_, fun h h' => ?_⟩
  · rw [s.busRead_cart a k ((isCart_iff a).2 (.inl (by omega))), State.cartRead_ok (Cart.read_mbc1_low hk h), m.lowOffset_eq]
  · rw [s.busRead_cart a k ((isCart_iff a).2 (.inl h')), State.cartRead_ok (Cart.read_mbc1_high hk h h'),
      m.highOffset_eq _ _ h h', m.highBank_eq]

/-- Settles O18: the ROM of a state that meets the invariant is whole banks, so the modulus of the window is one of the bank
number. -/
theorem mbc1BankWraps : Obligations.Mbc1BankWraps := by
  intro s m a k hi hk h h' bank
  have hwf : s.cart.wf = true := ((State.wf_iff s).1 hi).2.2
  rw [(mbc1RomWindows s m a k hk).2 h h', bank_offset_mod bank _ (s.cart.bank_dvd_romBytes hwf) (by omega)]

/-- Settles O19: the window off and on, and the one byte of CRAM a write stores. -/
theorem mbc1RamWindow : Obligations.Mbc1RamWindow := by
  intro s m a k v hk h h' off
  have hc : IsCart a := (isCart_iff a).2 (.inr ⟨h, h'⟩)
  have hoffset : m.ramOffset s.cart.ramBytes a.toNat = off := m.ramOffset_eq _ _ h h'
  rw [s.busRead_cart a k hc, s.busWrite_cart a v hc]
  refine ⟨fun hoff => ⟨State.cartRead_ok (Cart.read_mbc1_ram_off hk h hoff), ?_⟩, fun hen hram => ?_⟩
  · rw [State.cartWrite, Cart.write_mbc1_ram_off hk v h hoff]
  · have hon : ¬ (m.ramEn = false ∨ s.cart.ramBytes = 0) := by simp [hen, hram]
    rw [State.cartRead_ok (Cart.read_mbc1_ram_on hk h hon), State.cartWrite, Cart.write_mbc1_ram_on hk v h hon, hoffset]
    refine ⟨rfl, _, rfl, rfl, fun j => ?_⟩
    split_ifs with hj
    · rw [hj]
      exact memRead_memWrite_same _ _ _
    · exact memRead_memWrite_other _ _ _ _ hj

/-! ## The bank registers -/

/-- A masked byte as a number of `w` bits is its low `w` bits. -/
theorem ofNat_and_of_allOnes {n w : Nat} (v mask : BitVec n) (h : mask.setWidth w = BitVec.allOnes w) :
    BitVec.ofNat w (v &&& mask).toNat = v.setWidth w := by
  rw [BitVec.ofNat_toNat, setWidth_and_of_allOnes v mask h]

theorem setWidth_beq_ofNat {n w : Nat} (v : BitVec n) (x : Nat) (hx : x < 2 ^ w) :
    (v.setWidth w == BitVec.ofNat w x) = decide (v.toNat % 2 ^ w = x) := by
  rw [Bool.eq_iff_iff, beq_iff_eq, decide_eq_true_iff, ← BitVec.toNat_inj, BitVec.toNat_setWidth, BitVec.toNat_ofNat,
    Nat.mod_eq_of_lt hx]

theorem Mbc1.writeReg_ramEn (m : Mbc1) (a : Word) (v : Byte) (h : a.toNat ≤ 0x1FFF) :
    m.writeReg a v = { m with ramEn := decide (v.toNat % 16 = 0xA) } := by
  rw [Mbc1.writeReg, if_pos h, setWidth_beq_ofNat v 0xA (by decide)]
  rfl

theorem Mbc1.writeReg_romb (m : Mbc1) (a : Word) (v : Byte) (h : 0x2000 ≤ a.toNat) (h' : a.toNat ≤ 0x3FFF) :
    m.writeReg a v = { m with romb := BitVec.ofNat 5 (v &&& 0x1F).toNat } := by
  rw [Mbc1.writeReg, if_neg (by omega), if_pos h', ofNat_and_of_allOnes v 0x1F rfl]

theorem Mbc1.writeReg_bank2 (m : Mbc1) (a : Word) (v : Byte) (h : 0x4000 ≤ a.toNat) (h' : a.toNat ≤ 0x5FFF) :
    m.writeReg a v = { m with bank2 := BitVec.ofNat 2 (v &&& 0x03).toNat } := by
  rw [Mbc1.writeReg, if_neg (by omega), if_neg (by omega), if_pos h', ofNat_and_of_allOnes v 0x03 rfl]

theorem Mbc1.writeReg_mode (m : Mbc1) (a : Word) (v : Byte) (h : 0x6000 ≤ a.toNat) :
    m.writeReg a v = { m with mode := BitVec.ofNat 1 (v &&& 0x01).toNat } := by
  rw [Mbc1.writeReg, if_neg (by omega), if_neg (by omega), if_neg (by omega), ofNat_and_of_allOnes v 0x01 rfl]

/-- A write to the ROM range under MBC1 writes the controller's registers and nothing else. -/
theorem State.write8_mbc1_reg {s : State} {m : Mbc1} {a : Word} (hk : s.cart.ctl = .mbc1 m) (v : Byte) (h : a.toNat ≤ 0x7FFF) :
    s.write8 a v = .ok () { s with cart := { s.cart with ctl := .mbc1 (m.writeReg a v) } } := by
  rw [State.write8, s.busWrite_cart a v ((isCart_iff a).2 (.inl h)), State.cartWrite, Cart.write_mbc1_reg hk v h]

/-- Settles O16: the register of each quarter of the ROM range. -/
theorem mbc1BankRegisters : Obligations.Mbc1BankRegisters := by
  intro s m a v hk
  refine ⟨fun h => ?_, fun h h' => ?_, fun h h' => ?_, fun h h' => ?_⟩
  · rw [State.write8_mbc1_reg hk v (by omega), m.writeReg_ramEn a v h]
  · rw [State.write8_mbc1_reg hk v (by omega), m.writeReg_romb a v h h']
  · rw [State.write8_mbc1_reg hk v (by omega), m.writeReg_bank2 a v h h']
  · rw [State.write8_mbc1_reg hk v h', m.writeReg_mode a v h]

end Sys2Proof.Machine

/-! SUPPORT. Where an access is refused, exactly, and the fatal it raises (20_memory.md R96, R98, R99, R111). -/

namespace Sys2Proof.Machine

/-! ## The collaborator and the cartridge -/

theorem State.pIoRead_eq_fatal {s u : State} {a : Word} :
    s.pIoRead a = .fatal u ↔ ∃ rest, s.ioScript = .refuse :: rest ∧ u = { s with ioScript := rest }.raise (.io a) := by
  constructor
  · intro h
    rcases s.pIoRead_cases a with ⟨_, _, _, hr⟩ | ⟨rest, hs, hr⟩ | ⟨_, hr⟩ <;> rw [hr] at h <;> cases h
    exact ⟨rest, hs, rfl⟩
  · rintro ⟨rest, hs, rfl⟩
    exact State.pIoRead_refuse a hs

theorem State.pIoWrite_eq_fatal {s u : State} {a : Word} :
    s.pIoWrite a = .fatal u ↔ ∃ rest, s.ioScript = .refuse :: rest ∧ u = { s with ioScript := rest }.raise (.io a) := by
  constructor
  · intro h
    unfold State.pIoWrite at h
    split at h <;> cases h
    exact ⟨_, ‹_›, rfl⟩
  · rintro ⟨rest, hs, rfl⟩
    exact State.pIoWrite_refuse a hs

theorem Cart.read_mbc1_ok {k : Cart} {m : Mbc1} (hk : k.ctl = .mbc1 m) (a : Word) : ∃ v, k.read a = .ok v := by
  simp only [Cart.read, hk]
  split_ifs <;> exact ⟨_, rfl⟩

/-- The cartridge refuses a read only under RomOnly and out of the image's bounds (20_memory.md R111). -/
theorem State.cartRead_eq_fatal {s u : State} {a : Word} :
    s.cartRead a = .fatal u ↔
      s.cart.ctl = .romOnly ∧ s.cart.romBytes ≤ a.toNat ∧ u = s.raise (.romOutOfBounds a) := by
  constructor
  · intro h
    cases hk : s.cart.ctl with
    | mbc1 m =>
      obtain ⟨v, hv⟩ := Cart.read_mbc1_ok hk a
      rw [State.cartRead_ok hv] at h
      cases h
    | romOnly =>
      rcases Nat.lt_or_ge a.toNat s.cart.romBytes with hin | hout
      · rw [State.cartRead_ok (Cart.read_romOnly_inside hk hin)] at h
        cases h
      · rw [State.cartRead_error (Cart.read_romOnly_outside hk hout)] at h
        cases h
        exact ⟨rfl, hout, rfl⟩
  · rintro ⟨hk, hout, rfl⟩
    exact State.cartRead_error (Cart.read_romOnly_outside hk hout)

/-! ## The bus -/

theorem State.busRead_ie (s : State) (a : Word) (k : Access) (h : zoneOf a = .ie) : s.busRead a k = .ok (s.ie.setWidth 8) s := by
  unfold State.busRead
  rw [h]

/-- Every address is forbidden, the cartridge's, the collaborator's, or one whose accesses the block answers itself. -/
theorem address_cases (a : Word) :
    zoneOf a = .forbidden ∨ IsCart a ∨ IsPIo a ∨ IsArray a ∨ (∃ r : IoReg, a = r.addr) ∨ zoneOf a = .ie := by
  cases hz : zoneOf a with
  | rom => exact .inr (.inl (.inl hz))
  | cartRam => exact .inr (.inl (.inr hz))
  | forbidden => exact .inl rfl
  | io =>
    cases hr : ioRegOf a with
    | none => exact .inr (.inr (.inl ⟨hz, hr⟩))
    | some r => exact .inr (.inr (.inr (.inr (.inl ⟨r, (ioRegOf_eq_some a r).1 hr⟩))))
  | ie => exact .inr (.inr (.inr (.inr (.inr rfl))))
  | vram => exact .inr (.inr (.inr (.inl (.inl hz))))
  | wram => exact .inr (.inr (.inr (.inl (.inr (.inl hz)))))
  | oam => exact .inr (.inr (.inr (.inl (.inr (.inr (.inl hz))))))
  | hram => exact .inr (.inr (.inr (.inl (.inr (.inr (.inr hz))))))

/-- A read is refused in the forbidden zones, by RomOnly out of bounds, and by the collaborator, each with its fatal. -/
theorem State.busRead_eq_fatal {s u : State} {a : Word} {k : Access} :
    s.busRead a k = .fatal u ↔
      (zoneOf a = .forbidden ∧ u = s.raise (.forbiddenAddress a k)) ∨
      (IsCart a ∧ s.cart.ctl = .romOnly ∧ s.cart.romBytes ≤ a.toNat ∧ u = s.raise (.romOutOfBounds a)) ∨
      (IsPIo a ∧ ∃ rest, s.ioScript = .refuse :: rest ∧ u = { s with ioScript := rest }.raise (.io a)) := by
  constructor
  · intro h
    rcases address_cases a with hz | hz | hz | hz | ⟨r, rfl⟩ | hz
    · rw [s.busRead_forbidden a k hz] at h
      cases h
      exact .inl ⟨hz, rfl⟩
    · rw [s.busRead_cart a k hz] at h
      exact .inr (.inl ⟨hz, State.cartRead_eq_fatal.1 h⟩)
    · rw [s.busRead_pIo a k hz] at h
      exact .inr (.inr ⟨hz, State.pIoRead_eq_fatal.1 h⟩)
    · rw [s.busRead_array a k hz] at h
      cases h
    · rw [s.busRead_ioReg r k] at h
      cases h
    · rw [s.busRead_ie a k hz] at h
      cases h
  · rintro (⟨hz, rfl⟩ | ⟨hz, h⟩ | ⟨hz, h⟩)
    · exact s.busRead_forbidden a k hz
    · rw [s.busRead_cart a k hz]
      exact State.cartRead_eq_fatal.2 h
    · rw [s.busRead_pIo a k hz]
      exact State.pIoRead_eq_fatal.2 h

/-- A write is refused in the forbidden zones and by the collaborator, each with its fatal. -/
theorem State.busWrite_eq_fatal {s u : State} {a : Word} {v : Byte} :
    s.busWrite a v = .fatal u ↔
      (zoneOf a = .forbidden ∧ u = s.raise (.forbiddenAddress a .write)) ∨
      (IsPIo a ∧ ∃ rest, s.ioScript = .refuse :: rest ∧ u = { s with ioScript := rest }.raise (.io a)) := by
  constructor
  · intro h
    by_cases hf : zoneOf a = .forbidden
    · rw [s.busWrite_forbidden a v hf] at h
      cases h
      exact .inl ⟨hf, rfl⟩
    by_cases hp : IsPIo a
    · rw [s.busWrite_pIo a v hp] at h
      exact .inr ⟨hp, State.pIoWrite_eq_fatal.1 h⟩
    · obtain ⟨w, hw⟩ := s.write8_of_writable a v ⟨hf, fun h' => absurd h' hp⟩
      rw [State.write8, h] at hw
      cases hw
  · rintro (⟨hz, rfl⟩ | ⟨hz, h⟩)
    · exact s.busWrite_forbidden a v hz
    · rw [s.busWrite_pIo a v hz]
      exact State.pIoWrite_eq_fatal.2 h

theorem Res.ok_ne_fatal {α : Type} {r : Res α} {v : α} {t u : State} (h : r = .ok v t) : r ≠ .fatal u := by
  rw [h]
  exact nofun

theorem State.readable_of_read8 {s u : State} {a : Word} {v : Byte} (h : s.read8 a = .ok v u) : Readable s a := by
  refine ⟨fun hz => ?_, fun hz hk => ?_, fun hp hs => ?_⟩
  · exact Res.ok_ne_fatal h (State.busRead_eq_fatal.2 (.inl ⟨hz, rfl⟩))
  · by_contra hout
    exact Res.ok_ne_fatal h (State.busRead_eq_fatal.2 (.inr (.inl ⟨hz, hk, Nat.not_lt.1 hout, rfl⟩)))
  · obtain ⟨rest, hs⟩ := List.head?_eq_some_iff.1 hs
    exact Res.ok_ne_fatal h (State.busRead_eq_fatal.2 (.inr (.inr ⟨hp, rest, hs, rfl⟩)))

theorem State.writable_of_write8 {s u : State} {a : Word} {v : Byte} (h : s.write8 a v = .ok () u) : Writable s a := by
  refine ⟨fun hz => ?_, fun hp hs => ?_⟩
  · exact Res.ok_ne_fatal h (State.busWrite_eq_fatal.2 (.inl ⟨hz, rfl⟩))
  · obtain ⟨rest, hs⟩ := List.head?_eq_some_iff.1 hs
    exact Res.ok_ne_fatal h (State.busWrite_eq_fatal.2 (.inr ⟨hp, rest, hs, rfl⟩))

/-- A read the block answers itself changes nothing, and answers every kind of access alike. -/
theorem State.busRead_owned {s u : State} {a : Word} {k : Access} {v : Byte} (hp : ¬ IsPIo a) (h : s.busRead a k = .ok v u) :
    u = s ∧ ∀ k', s.busRead a k' = .ok v s := by
  rcases s.busRead_cases a k with ⟨w, hw, hr⟩ | ⟨hn, _⟩ | ⟨f, hr⟩
  · rw [hr] at h
    cases h
    exact ⟨rfl, fun k' => s.busRead_of_peek a k' v hw⟩
  · exact absurd hn hp
  · rw [hr] at h
    cases h

/-- An address of the collaborator is in no other zone. -/
theorem IsPIo.zone_ne {a : Word} (h : IsPIo a) {z : Zone} (hz : z ≠ .io) : zoneOf a ≠ z := by
  rw [h.1]
  exact hz.symm

theorem IsCart.zone_ne_forbidden {a : Word} (h : IsCart a) : zoneOf a ≠ .forbidden := by
  rcases h with h | h <;> rw [h] <;> decide

theorem IsCart.not_pIo {a : Word} (h : IsCart a) : ¬ IsPIo a := fun hp =>
  h.elim (hp.zone_ne (by decide)) (hp.zone_ne (by decide))

/-- Settles O15: answered is the opposite of refused, and each refusal names its zone's fatal. -/
theorem answeredAccesses : Obligations.AnsweredAccesses := by
  refine ⟨fun s a => ⟨fun ⟨_, _, h⟩ => State.readable_of_read8 h, s.read8_of_readable a⟩,
    fun s a v => ⟨fun ⟨_, h⟩ => State.writable_of_write8 h, s.write8_of_writable a v⟩, ?owned, ?reads, ?writes⟩
  case owned =>
    intro s u a k k' v hp h
    obtain ⟨rfl, hall⟩ := State.busRead_owned hp h
    exact ⟨rfl, hall k'⟩
  case reads =>
    intro s u a k h
    rcases State.busRead_eq_fatal.1 h with ⟨hz, rfl⟩ | ⟨hz, _, _, rfl⟩ | ⟨hz, rest, _, rfl⟩
    · exact ⟨_, rfl, fun _ => rfl, fun hp => absurd hz (hp.zone_ne (by decide)),
        fun hc => absurd hz (IsCart.zone_ne_forbidden hc)⟩
    · exact ⟨_, rfl, fun hf => absurd hf hz.zone_ne_forbidden, fun hp => absurd hp hz.not_pIo, fun _ => rfl⟩
    · exact ⟨_, rfl, fun hf => absurd hf (hz.zone_ne (by decide)), fun _ => rfl, fun hc => absurd hz (IsCart.not_pIo hc)⟩
  case writes =>
    intro s u a v h
    rcases State.busWrite_eq_fatal.1 h with ⟨hz, rfl⟩ | ⟨hz, rest, _, rfl⟩
    · exact ⟨_, rfl, fun _ => rfl, fun hp => absurd hz (hp.zone_ne (by decide))⟩
    · exact ⟨_, rfl, fun hf => absurd hf (hz.zone_ne (by decide)), fun _ => rfl⟩

end Sys2Proof.Machine

/-! SUPPORT. Words and the stack in the plain arrays: what a 16-bit access and a push leave, and what reads them back
(20_memory.md R100 to R104). -/

namespace Sys2Proof.Machine

/-! ## Reading what `peek` shows -/

theorem State.read8_of_peek {s : State} {a : Word} {v : Byte} (h : s.peek a = some v) : s.read8 a = .ok v s :=
  s.busRead_of_peek a .read v h

/-- A word read is the two bytes, the low one at the address (20_memory.md R100, R102). -/
theorem State.read16_of_peek {s : State} {a : Word} {lo hi : Byte} (h : s.peek a = some lo) (h' : s.peek (a + 1) = some hi) :
    s.read16 a = .ok (wordOf hi lo) s := by
  rw [State.read16, State.read8_of_peek h, Res.bind_ok, State.read8_of_peek h', Res.bind_ok]

/-- A pop is the same word, with SP two higher (20_memory.md R104). -/
theorem State.pop16_of_peek {s : State} {lo hi : Byte} (h : s.peek s.regs.sp = some lo)
    (h' : s.peek (s.regs.sp + 1) = some hi) : s.pop16 = .ok (wordOf hi lo) (s.setSp (s.regs.sp + 2)) :=
  pop16_ok (State.read8_of_peek h) (State.read8_of_peek h')

/-! ## Two stores -/

/-- The state after a store of `v` at `a` and then one of `w` at `b`. -/
def State.storeTwo (s : State) (a : Word) (v : Byte) (b : Word) (w : Byte) : State := (s.storeMem a v).storeMem b w

section StoreTwo
variable (s : State) {a b : Word} (v w : Byte)

theorem State.peek_storeTwo_first (ha : IsArray a) (hab : a ≠ b) : (s.storeTwo a v b w).peek a = some v := by
  rw [State.storeTwo, State.peek_storeMem_other _ b a w hab, s.peek_storeMem_same a v ha]

theorem State.peek_storeTwo_second (hb : IsArray b) : (s.storeTwo a v b w).peek b = some w :=
  (s.storeMem a v).peek_storeMem_same b w hb

theorem State.peek_storeTwo_other {c : Word} (hca : c ≠ a) (hcb : c ≠ b) : (s.storeTwo a v b w).peek c = s.peek c := by
  rw [State.storeTwo, State.peek_storeMem_other _ b c w hcb, State.peek_storeMem_other s a c v hca]

end StoreTwo

theorem State.write16_array (s : State) (a v : Word) (ha : IsArray a) (hb : IsArray (a + 1)) :
    s.write16 a v = .ok () (s.storeTwo a (loByte v) (a + 1) (hiByte v)) := by
  rw [State.write16, State.write8, s.busWrite_array a _ ha, Res.bind_ok, State.write8, State.busWrite_array _ _ _ hb,
    State.storeTwo]

/-! ## A push -/

@[simp] theorem State.peek_setSp (s : State) (x a : Word) : (s.setSp x).peek a = s.peek a := by
  rw [State.setSp_eq, State.peek_withRegs]

/-- The state an accepted push in the arrays leaves: the high byte stored, then the low one, and SP at it (20_memory.md
R103). -/
def State.afterPush (s : State) (v : Word) : State :=
  (s.storeTwo (s.regs.sp - 1) (hiByte v) (s.regs.sp - 2) (loByte v)).setSp (s.regs.sp - 2)

section Push
variable (s : State) (v : Word)

theorem State.push16_array (ha : IsArray (s.regs.sp - 1)) (hb : IsArray (s.regs.sp - 2)) :
    s.push16 v = .ok () (s.afterPush v) :=
  push16_ok (s.busWrite_array _ _ ha) (State.busWrite_array _ _ _ hb)

@[simp] theorem State.afterPush_sp : (s.afterPush v).regs.sp = s.regs.sp - 2 := rfl

theorem State.peek_afterPush_high (ha : IsArray (s.regs.sp - 1)) :
    (s.afterPush v).peek (s.regs.sp - 1) = some (hiByte v) := by
  have hne : s.regs.sp - 1 ≠ s.regs.sp - 2 := by bv_omega
  rw [State.afterPush, State.peek_setSp, s.peek_storeTwo_first _ _ ha hne]

theorem State.peek_afterPush_low (hb : IsArray (s.regs.sp - 2)) :
    (s.afterPush v).peek (s.regs.sp - 2) = some (loByte v) := by
  rw [State.afterPush, State.peek_setSp, s.peek_storeTwo_second _ _ hb]

theorem State.peek_afterPush_other {b : Word} (hhi : b ≠ s.regs.sp - 1) (hlo : b ≠ s.regs.sp - 2) :
    (s.afterPush v).peek b = s.peek b := by
  rw [State.afterPush, State.peek_setSp, s.peek_storeTwo_other _ _ hhi hlo]

end Push

/-! ## A word read back -/

/-- Settles O21: a word written and a word pushed are two stores of its bytes, which a read and a pop put together again. -/
theorem wordsInMemory : Obligations.WordsInMemory := by
  refine ⟨fun s a v ha hb => ?written, fun s v ha hb => ?pushed, fun s lo hi hlo hhi => State.read16_of_peek hlo hhi⟩
  case written =>
    have hne : a ≠ a + 1 := by bv_omega
    have hlo := s.peek_storeTwo_first (loByte v) (hiByte v) ha hne
    have hhi := s.peek_storeTwo_second (a := a) (loByte v) (hiByte v) hb
    refine ⟨_, s.write16_array a v ha hb, rfl, hlo, hhi, ?_, fun b h1 h2 => s.peek_storeTwo_other _ _ h1 h2⟩
    rw [State.read16_of_peek hlo hhi, wordOf_hi_lo]
  case pushed =>
    have hnext : s.regs.sp - 2 + 1 = s.regs.sp - 1 := by bv_omega
    have hback : s.regs.sp - 2 + 2 = s.regs.sp := by bv_omega
    have hhi := s.peek_afterPush_high v ha
    have hlo : (s.afterPush v).peek (s.afterPush v).regs.sp = some (loByte v) := s.peek_afterPush_low v hb
    have hhi' : (s.afterPush v).peek ((s.afterPush v).regs.sp + 1) = some (hiByte v) := by
      rw [State.afterPush_sp, hnext, hhi]
    have hread : (s.afterPush v).read16 (s.afterPush v).regs.sp = .ok v (s.afterPush v) := by
      rw [State.read16_of_peek hlo hhi', wordOf_hi_lo]
    have hpop : (s.afterPush v).pop16 = .ok v { s.afterPush v with regs := s.regs } := by
      rw [State.pop16_of_peek hlo hhi', wordOf_hi_lo, State.afterPush_sp, hback]
      rfl
    exact ⟨_, s.push16_array v ha hb, rfl, hhi, hlo, hread, hpop, fun b h1 h2 => s.peek_afterPush_other v h1 h2⟩

end Sys2Proof.Machine

/-! SUPPORT. Construction: what the memories of a constructed block hold, and the header's checks by the number in each byte
(20_memory.md R121 to R128, 60_exceptions.md R403, R404). -/

namespace Sys2Proof.Machine

/-! ## The memories -/

theorem memWriteAll_concat (cs m : List Host.Cell) (c : Host.Cell) :
    memWriteAll m (cs ++ [c]) = memWrite (memWriteAll m cs) c.1 c.2 := by
  induction cs generalizing m with
  | nil => rfl
  | cons d cs ih => exact ih _

/-- Storing a list's cells from the last to the first keeps the first of each key, the one a read of the list finds; a filter
on the keys is not seen at a key that passes it. -/
theorem memRead_memWriteAll_filter (p : Nat → Bool) (cs : List Host.Cell) (a : Nat) (ha : p a = true) :
    memRead (memWriteAll [] (cs.filter (fun c => p c.1)).reverse) a = memRead cs a := by
  induction cs with
  | nil => rfl
  | cons c cs ih =>
    rw [memRead_cons, List.filter_cons]
    by_cases hc : p c.1 = true
    · rw [if_pos hc, List.reverse_cons, memWriteAll_concat]
      split_ifs with he
      · rw [← he, memRead_memWrite_same]
      · rw [memRead_memWrite_other _ _ _ _ (Ne.symm he), ih]
    · have hne : c.1 ≠ a := fun e => hc (e ▸ ha)
      rw [if_neg hc, if_neg hne, ih]

/-- The cells of an image read as the image inside their size. -/
theorem Image.memRead_cells (i : Image) (n k : Nat) (h : k < n) : memRead (i.cells n) k = i.at k :=
  memRead_memWriteAll_filter (fun a => decide (a < n)) i.bytes k (decide_eq_true h)

/-- Settles O5: the arrays are stored from `P_INIT_MEM`, and the cartridge is built from the image and the save buffer. -/
theorem constructedMemories : Obligations.ConstructedMemories := by
  intro p s h
  obtain ⟨k, log, hk, rfl⟩ := construct_cases h
  obtain ⟨_, _, _, hrom, hram⟩ := buildCart_cases hk
  refine ⟨fun a ha => ?arrays, fun j hj => ?rom, fun hs => ?saved, fun hs => ?blank, rfl, fun _ => rfl⟩
  case arrays =>
    rw [State.peek_array _ a ha]
    exact congrArg some (memRead_memWriteAll_filter isArrayKey p.initMem a.toNat (isArrayKey_of_isArray a ha))
  case rom =>
    show memRead k.rom j = _
    rw [hrom]
    exact p.rom.memRead_cells _ j hj
  case saved =>
    obtain ⟨_, hr, hl⟩ := hram.resolve_right fun hn => hn.1 hs
    refine ⟨hl, fun j hj => ?_⟩
    show memRead k.ram j = _
    rw [hr]
    exact p.save.memRead_cells _ j hj
  case blank =>
    obtain ⟨_, hr, hl⟩ := hram.resolve_left fun hn => hs hn.1
    refine ⟨hl, fun j => ?_⟩
    show memRead k.ram j = _
    rw [hr]
    rfl

/-! ## The header's bytes -/

theorem targetOf_eq_none (v : Byte) : targetOf v = none ↔
    ¬ (v.toNat = 0x80 ∨ v.toNat = 0xC0 ∨ v.toNat = 0x00 ∨ (0x20 ≤ v.toNat ∧ v.toNat ≤ 0x7E)) := by
  simp only [targetOf, ← BitVec.toNat_inj, BitVec.reduceToNat]
  split_ifs <;> simp <;> omega

theorem controllerOf_eq_none (v : Byte) : controllerOf v = none ↔ v.toNat > 0x03 := by
  simp only [controllerOf, ← BitVec.toNat_inj, BitVec.reduceToNat]
  split_ifs <;> simp <;> omega

/-- RomOnly is the type 0x00, and every other known type is MBC1 (20_memory.md R124). -/
theorem controllerOf_eq_some {v : Byte} {c : Controller} (h : controllerOf v = some c) :
    (v.toNat = 0 → c = .romOnly) ∧ (v.toNat ≠ 0 → ∃ m, c = .mbc1 m) := by
  simp only [controllerOf, ← BitVec.toNat_inj, BitVec.reduceToNat] at h
  split_ifs at h with h0 <;> cases h
  · exact ⟨fun _ => rfl, fun hn => absurd h0 hn⟩
  · exact ⟨fun hz => absurd hz h0, fun _ => ⟨_, rfl⟩⟩

theorem romBytesOf_eq_none (v : Byte) : romBytesOf v = none ↔ v.toNat > 8 := by
  simp only [romBytesOf]
  split_ifs <;> simp <;> omega

theorem romBytesOf_eq_some {v : Byte} {n : Nat} (h : romBytesOf v = some n) : n = 0x8000 * 2 ^ v.toNat := by
  simp only [romBytesOf, Nat.shiftLeft_eq] at h
  split_ifs at h
  cases h
  rfl

theorem ramBytesOf_eq_none (v : Byte) : ramBytesOf v = none ↔ v.toNat = 1 ∨ v.toNat > 5 := by
  simp only [ramBytesOf, ← BitVec.toNat_inj, BitVec.reduceToNat]
  split_ifs <;> simp <;> omega

theorem ramBytesOf_eq_some {v : Byte} {n : Nat} (h : ramBytesOf v = some n) :
    n = if v.toNat = 0 then 0 else if v.toNat = 2 then 8 * 1024 else if v.toNat = 3 then 32 * 1024
      else if v.toNat = 4 then 128 * 1024 else 64 * 1024 := by
  simp only [ramBytesOf, ← BitVec.toNat_inj, BitVec.reduceToNat] at h
  split_ifs at h ⊢ <;> simp_all

/-! ## The checks in their order -/

theorem construct_error {p : Params} {f : ConfigFatal} (h : buildCart p.rom p.save = .error f) : construct p = .error f := by
  unfold construct
  rw [h]

theorem construct_ok {p : Params} {k : Cart} {log : List Warning} (h : buildCart p.rom p.save = .ok (k, log)) :
    ∃ s, construct p = .ok s ∧ s.cart = k := by
  unfold construct
  rw [h]
  exact ⟨_, rfl, rfl⟩

/-- An image that passes every check is built. -/
theorem buildCart_ok {rom save : Image} {t : Target} {c : Controller} {n r : Nat} (hsize : ¬ rom.size < 0x150)
    (ht : targetOf (rom.at 0x143) = some t) (hc : controllerOf (rom.at 0x147) = some c)
    (hn : romBytesOf (rom.at 0x148) = some n) (hr : ramBytesOf (rom.at 0x149) = some r) (hfit : rom.size = n) :
    ∃ k log, buildCart rom save = .ok (k, log) := by
  subst hfit
  simp only [buildCart, if_neg hsize, ht, hc, hn, hr, ne_eq, not_true_eq_false, if_false]
  split_ifs <;> exact ⟨_, _, rfl⟩

/-- Settles O6: each check is one function of the header's byte, and the first that gives none ends the construction. -/
theorem constructionChecks : Obligations.ConstructionChecks := by
  refine ⟨rfl, rfl, rfl, fun p => ?_⟩
  intro target kind romCode ramCode
  by_cases hsize : p.rom.size < 0x150
  · rw [if_pos hsize]
    exact construct_error (by simp only [buildCart, if_pos hsize])
  rw [if_neg hsize]
  rcases ht : targetOf (p.rom.at 0x143) with _ | t
  · rw [if_pos ((targetOf_eq_none _).1 ht)]
    exact construct_error (by simp only [buildCart, if_neg hsize, ht])
  rw [if_neg (mt (targetOf_eq_none _).2 (by simp [ht]))]
  rcases hc : controllerOf (p.rom.at 0x147) with _ | c
  · rw [if_pos ((controllerOf_eq_none _).1 hc)]
    exact construct_error (by simp only [buildCart, if_neg hsize, ht, hc])
  rw [if_neg (mt (controllerOf_eq_none _).2 (by simp [hc]))]
  rcases hn : romBytesOf (p.rom.at 0x148) with _ | n
  · rw [if_pos ((romBytesOf_eq_none _).1 hn)]
    exact construct_error (by simp only [buildCart, if_neg hsize, ht, hc, hn])
  rw [if_neg (mt (romBytesOf_eq_none _).2 (by simp [hn])), ← romBytesOf_eq_some hn]
  rcases hr : ramBytesOf (p.rom.at 0x149) with _ | r
  · rw [if_pos ((ramBytesOf_eq_none _).1 hr)]
    exact construct_error (by simp only [buildCart, if_neg hsize, ht, hc, hn, hr])
  rw [if_neg (mt (ramBytesOf_eq_none _).2 (by simp [hr])), ← ramBytesOf_eq_some hr]
  by_cases hfit : p.rom.size = n
  · rw [if_neg (not_not.2 hfit)]
    obtain ⟨k, log, hk⟩ := buildCart_ok (save := p.save) hsize ht hc hn hr hfit
    obtain ⟨s, hs, rfl⟩ := construct_ok hk
    obtain ⟨hctl, hrom, hram, _⟩ := buildCart_cases hk
    obtain ⟨hromOnly, hmbc1⟩ := controllerOf_eq_some hctl
    exact ⟨s, hs, Option.some.inj (hrom.symm.trans hn), hromOnly, hmbc1, Option.some.inj (hram.symm.trans hr)⟩
  · rw [if_pos hfit]
    exact construct_error (by simp only [buildCart, if_neg hsize, ht, hc, hn, hr, ne_eq, if_pos hfit])

end Sys2Proof.Machine

/-! SUPPORT. The encoder and the decoder against each other: the fields of a byte, each form's bytes decoded, what the first
byte fixes and what the bytes after it fill in, and the opcode table's selection (30_encoding.md R150 to R173). -/

namespace Sys2Proof.Machine

/-! ## A byte and its fields -/

@[simp] theorem fieldX_byteXyz (x : BitVec 2) (y z : BitVec 3) : fieldX (byteXyz x y z) = x := by
  revert x y z; decide

@[simp] theorem fieldY_byteXyz (x : BitVec 2) (y z : BitVec 3) : fieldY (byteXyz x y z) = y := by
  revert x y z; decide

@[simp] theorem fieldZ_byteXyz (x : BitVec 2) (y z : BitVec 3) : fieldZ (byteXyz x y z) = z := by
  revert x y z; decide

theorem byteXyz_fields (o : Byte) : byteXyz (fieldX o) (fieldY o) (fieldZ o) = o := by
  revert o; decide

@[simp] theorem opnd8Of_field (o : Opnd8) : opnd8Of o.field = o := by
  rcases o with r | _
  · cases r <;> rfl
  · rfl

/-! ## From an instruction to its bytes and back -/

/-- A form with a word after its first byte, low byte first (30_encoding.md R156). -/
theorem spells_word {o : Byte} {f : Word → Instr} (hl : firstLength o = 3)
    (hw : ∀ lo hi, decodeWords o lo hi = f (wordOf hi lo)) (nn : Word) (hi : (f nn).WellFormed) :
    Spells [o, loByte nn, hiByte nn] (f nn) :=
  spells_of_length3 hl (by rw [hw, wordOf_hi_lo]) hi

/-- A CB form, from the map of the second byte (30_encoding.md R166). -/
theorem spells_cb_of_eq {c : Byte} {i : Instr} (h : decodeCb c = i) : Spells [0xCB, c] i := h ▸ spells_cb c

/-! The CB families that name a bit: `y` is the bit and `z` the operand (30_encoding.md R166). -/

theorem decodeCb_bitB (b : BitVec 3) (o : Opnd8) : decodeCb (byteXyz 0b01 b o.field) = .bitB b o := by simp [decodeCb]

theorem decodeCb_resB (b : BitVec 3) (o : Opnd8) : decodeCb (byteXyz 0b10 b o.field) = .resB b o := by simp [decodeCb]

theorem decodeCb_setB (b : BitVec 3) (o : Opnd8) : decodeCb (byteXyz 0b11 b o.field) = .setB b o := by simp [decodeCb]

/-- The quadrant 11 with `z` = 111, which the escape byte 0xCB is not in (30_encoding.md R165). -/
theorem decodeWords_rst (t : BitVec 3) (b1 b2 : Byte) : decodeWords (byteXyz 0b11 t 0b111) b1 b2 = .rst t := by
  have hz : fieldZ 0xCB ≠ 0b111#3 := by decide
  have hne : byteXyz 0b11 t 0b111 ≠ 0xCB := fun h => hz (h ▸ fieldZ_byteXyz _ _ _)
  rw [decodeWords, if_neg hne]
  simp [decodeFirst, decodeQ3]

theorem firstLength_rst (t : BitVec 3) : firstLength (byteXyz 0b11 t 0b111) = 1 := by
  simp [firstLength, decodeFirst, decodeQ3, Instr.length]

/-- The bytes of every instruction spell it: the forms by the operands they carry. -/
theorem spells_encode (i : Instr) (h : i.WellFormed) : Spells (encode i) i := by
  cases i
  case ldABc | ldADe | ldBcA | ldDeA | ldAHli | ldAHld | ldHliA | ldHldA | ldhAC | ldhCA | ldSpHl | addHl | adcHl | subHl
      | sbcHl | andHl | xorHl | orHl | cpHl | incHl | decHl | daa | cpl | scf | ccf | rlca | rrca | rla | rra | jpHl | ret
      | reti | nop | halt | di | ei =>
    exact spells_of_length1 rfl (fun _ _ => rfl) rfl
  case ldHlN | ldhAN | ldhNA | ldHlSpE | addN | adcN | subN | sbcN | andN | xorN | orN | cpN | addSpE | jrE | stop =>
    exact spells_of_length2 rfl (fun _ => rfl) rfl
  case ldANn nn | ldNnA nn | ldNnSp nn | jpNn nn | callNn nn => exact spells_word rfl (fun _ _ => rfl) nn rfl
  case ldRR dst src => cases dst <;> cases src <;> exact spells_of_length1 rfl (fun _ _ => rfl) rfl
  case ldRHl r | ldHlR r | addR r | adcR r | subR r | sbcR r | andR r | xorR r | orR r | cpR r | incR r | decR r =>
    cases r <;> exact spells_of_length1 rfl (fun _ _ => rfl) rfl
  case ldRN r n => cases r <;> exact spells_of_length2 rfl (fun _ => rfl) rfl
  case addHlRr p | incRr p | decRr p => cases p <;> exact spells_of_length1 rfl (fun _ _ => rfl) rfl
  case ldRrNn p nn => cases p <;> exact spells_word rfl (fun _ _ => rfl) nn rfl
  case push q | pop q => cases q <;> exact spells_of_length1 rfl (fun _ _ => rfl) rfl
  case retCc cc => cases cc <;> exact spells_of_length1 rfl (fun _ _ => rfl) rfl
  case jrCcE cc e => cases cc <;> exact spells_of_length2 rfl (fun _ => rfl) rfl
  case jpCcNn cc nn | callCcNn cc nn => cases cc <;> exact spells_word rfl (fun _ _ => rfl) nn rfl
  case rst t => exact spells_of_length1 (firstLength_rst t) (decodeWords_rst t) rfl
  case rlc o | rrc o | rl o | rr o | sla o | sra o | swap o | srl o =>
    rcases o with r | _
    · cases r <;> exact spells_cb_of_eq rfl
    · exact spells_cb_of_eq rfl
  case bitB b o => exact spells_cb_of_eq (decodeCb_bitB b o)
  case resB b o => exact spells_cb_of_eq (decodeCb_resB b o)
  case setB b o => exact spells_cb_of_eq (decodeCb_setB b o)
  case prefixCb => cases h
  case illegal op =>
    have hop : op ∈ illegalOpcodes := List.contains_iff_mem.1 h
    fin_cases hop <;> exact spells_of_length1 rfl (fun _ _ => rfl) rfl

/-- Settles O22: every instruction is spelled by its own bytes. -/
theorem decodeEncode : Obligations.DecodeEncode := fun i rest h => (spells_encode i h).2 rest

end Sys2Proof.Machine

namespace Sys2Proof

/-! ## From the bytes to an instruction and back -/

/-- The immediates of a form set to the bytes after its first byte, low byte first (30_encoding.md R156, R162); the second byte
of STOP and of the entry 0xCB counts as one. A CB row is left alone. -/
def Instr.withImmediates (b1 b2 : Byte) : Instr → Instr
  | .ldRN dst _ => .ldRN dst b1
  | .ldHlN _ => .ldHlN b1
  | .ldANn _ => .ldANn (wordOf b2 b1)
  | .ldNnA _ => .ldNnA (wordOf b2 b1)
  | .ldhAN _ => .ldhAN b1
  | .ldhNA _ => .ldhNA b1
  | .ldRrNn p _ => .ldRrNn p (wordOf b2 b1)
  | .ldNnSp _ => .ldNnSp (wordOf b2 b1)
  | .ldHlSpE _ => .ldHlSpE b1
  | .addN _ => .addN b1
  | .adcN _ => .adcN b1
  | .subN _ => .subN b1
  | .sbcN _ => .sbcN b1
  | .andN _ => .andN b1
  | .xorN _ => .xorN b1
  | .orN _ => .orN b1
  | .cpN _ => .cpN b1
  | .addSpE _ => .addSpE b1
  | .jpNn _ => .jpNn (wordOf b2 b1)
  | .jpCcNn cc _ => .jpCcNn cc (wordOf b2 b1)
  | .jrE _ => .jrE b1
  | .jrCcE cc _ => .jrCcE cc b1
  | .callNn _ => .callNn (wordOf b2 b1)
  | .callCcNn cc _ => .callCcNn cc (wordOf b2 b1)
  | .stop _ => .stop b1
  | .prefixCb _ => .prefixCb b1
  | i => i

section Immediates
variable (b1 b2 : Byte) (i : Instr)

@[simp] theorem Instr.length_withImmediates : (i.withImmediates b1 b2).length = i.length := by cases i <;> rfl

@[simp] theorem Instr.row_withImmediates : (i.withImmediates b1 b2).row = i.row := by cases i <;> rfl

@[simp] theorem Instr.wellFormed_withImmediates : (i.withImmediates b1 b2).wellFormed = i.wellFormed := by cases i <;> rfl

/-- Outside the CB rows the bytes after the first are the immediates alone. -/
theorem Instr.encode_withImmediates (h : i.row ∉ cbRows.map (·.row)) :
    encode (i.withImmediates b1 b2) = (encode i).take 1 ++ [b1, b2].take (i.length - 1) := by
  cases i
  case rlc | rrc | rl | rr | sla | sra | swap | srl | bitB | resB | setB => exact absurd (of_decide_eq_true rfl) h
  case ldANn | ldNnA | ldRrNn | ldNnSp | jpNn | jpCcNn | callNn | callCcNn =>
    exact congrArg₂ (fun lo hi => [_, lo, hi]) (Machine.loByte_wordOf b2 b1) (Machine.hiByte_wordOf b2 b1)
  all_goals rfl

end Immediates

theorem decodeQ0_eq_withImmediates (o b1 b2 : Byte) : decodeQ0 o b1 b2 = (decodeQ0 o 0 0).withImmediates b1 b2 := by
  unfold decodeQ0 decodeQ0Z0 decodeQ0Z2 decodeQ0Z7
  rcases opnd8Of (fieldY o) with r | _ <;> simp only [apply_ite (Instr.withImmediates b1 b2)] <;> rfl

theorem decodeQ1_withImmediates (o b1 b2 : Byte) : (decodeQ1 o).withImmediates b1 b2 = decodeQ1 o := by
  unfold decodeQ1
  rcases opnd8Of (fieldY o) with r | _ <;> rcases opnd8Of (fieldZ o) with r | _ <;> rfl

theorem decodeQ2_withImmediates (o b1 b2 : Byte) : (decodeQ2 o).withImmediates b1 b2 = decodeQ2 o := by
  unfold decodeQ2
  rcases opnd8Of (fieldZ o) with r | _ <;> simp only [apply_ite (Instr.withImmediates b1 b2)] <;> rfl

theorem decodeQ3_eq_withImmediates (o b1 b2 : Byte) : decodeQ3 o b1 b2 = (decodeQ3 o 0 0).withImmediates b1 b2 := by
  unfold decodeQ3 decodeQ3Z0 decodeQ3Z1 decodeQ3Z2 decodeQ3Z3 decodeQ3Z6
  simp only [apply_ite (Instr.withImmediates b1 b2)]
  rfl

theorem decodeFirst_eq_withImmediates (o b1 b2 : Byte) : decodeFirst o b1 b2 = (decodeFirst o 0 0).withImmediates b1 b2 := by
  simp only [decodeFirst, apply_ite (Instr.withImmediates b1 b2), decodeQ1_withImmediates, decodeQ2_withImmediates,
    ← decodeQ0_eq_withImmediates, ← decodeQ3_eq_withImmediates]

theorem length_decodeFirst (o b1 b2 : Byte) : (decodeFirst o b1 b2).length = firstLength o := by
  rw [decodeFirst_eq_withImmediates, Instr.length_withImmediates, firstLength]

theorem row_decodeFirst (o b1 b2 : Byte) : (decodeFirst o b1 b2).row = (decodeFirst o 0 0).row := by
  rw [decodeFirst_eq_withImmediates, Instr.row_withImmediates]

end Sys2Proof

namespace Sys2Proof.Machine

/-! ## The table of first bytes, entry by entry -/

theorem take_encode_decodeFirst : ∀ o : Byte, (encode (decodeFirst o 0 0)).take 1 = [o] := by decide

theorem decodeFirst_row_notCb : ∀ o : Byte, (decodeFirst o 0 0).row ∉ cbRows.map (·.row) := by decide

theorem decodeFirst_wellFormed : ∀ o : Byte, o ≠ 0xCB → (decodeFirst o 0 0).WellFormed := by decide

theorem encode_decodeCb : ∀ c : Byte, encode (decodeCb c) = [0xCB, c] := by decide

/-! ## The decoded instruction -/

theorem encode_length (i : Instr) : (encode i).length = i.length := by cases i <;> rfl

theorem firstLength_pos (o : Byte) : 0 < firstLength o := by
  unfold firstLength
  cases decodeFirst o 0 0 <;> exact Nat.succ_pos _

theorem firstLength_le (o : Byte) : firstLength o ≤ 3 := by
  unfold firstLength
  cases decodeFirst o 0 0 <;> exact Nat.le_of_ble_eq_true rfl

theorem encode_decodeFirst (o b1 b2 : Byte) : encode (decodeFirst o b1 b2) = [o, b1, b2].take (firstLength o) := by
  obtain ⟨n, hn⟩ := Nat.exists_eq_add_one.2 (firstLength_pos o)
  have hlen : (decodeFirst o 0 0).length = n + 1 := hn
  rw [decodeFirst_eq_withImmediates, Instr.encode_withImmediates _ _ _ (decodeFirst_row_notCb o), take_encode_decodeFirst,
    hlen, hn]
  rfl

section Decoded
variable (o b1 b2 : Byte)

theorem decodeWords_cb : decodeWords 0xCB b1 b2 = decodeCb b1 := rfl

theorem decodeWords_of_ne {o : Byte} (h : o ≠ 0xCB) : decodeWords o b1 b2 = decodeFirst o b1 b2 := if_neg h

/-- The bytes decoded are the encoding, as many of them as the first byte says (30_encoding.md R164). -/
theorem encode_decodeWords : encode (decodeWords o b1 b2) = [o, b1, b2].take (firstLength o) := by
  by_cases ho : o = 0xCB
  · subst ho
    exact encode_decodeCb b1
  · rw [decodeWords_of_ne b1 b2 ho, encode_decodeFirst]

theorem length_decodeWords : (decodeWords o b1 b2).length = firstLength o := by
  by_cases ho : o = 0xCB
  · subst ho
    rw [decodeWords_cb, ← encode_length, encode_decodeCb]
    rfl
  · rw [decodeWords_of_ne b1 b2 ho, length_decodeFirst]

theorem decodeWords_wellFormed : (decodeWords o b1 b2).WellFormed := by
  by_cases ho : o = 0xCB
  · subst ho
    exact (spells_cb b1).1
  · rw [decodeWords_of_ne b1 b2 ho, decodeFirst_eq_withImmediates, Instr.WellFormed, Instr.wellFormed_withImmediates]
    exact decodeFirst_wellFormed o ho

end Decoded

/-- What an answered decoding says of its bytes. -/
theorem decode_cons_eq_ok {o : Byte} {bs rest : List Byte} {i : Instr} (h : decode (o :: bs) = .ok (i, rest)) :
    firstLength o ≤ bs.length + 1 ∧ i = decodeWords o (bs.getD 0 0) (bs.getD 1 0) ∧ rest = bs.drop (firstLength o - 1) := by
  simp only [decode] at h
  split_ifs at h with hlen
  cases h
  exact ⟨by omega, rfl, rfl⟩

/-- The two bytes handed to the decoder are the list's own as far as the list reaches. -/
theorem take_getD_append_drop {bs : List Byte} {n : Nat} (h2 : n ≤ 2) (h : n ≤ bs.length) :
    [bs.getD 0 0, bs.getD 1 0].take n ++ bs.drop n = bs := by
  match n, bs with
  | 0, _ => rfl
  | 1, _ :: _ => rfl
  | 2, _ :: _ :: _ => rfl

/-- Settles O23: the bytes of an answered decoding are the encoding and the rest. -/
theorem encodeDecode : Obligations.EncodeDecode := by
  intro bs rest i h
  rcases bs with _ | ⟨o, bs⟩
  · cases h
  obtain ⟨hlen, rfl, rfl⟩ := decode_cons_eq_ok h
  refine ⟨decodeWords_wellFormed _ _ _, ?_⟩
  have hle := firstLength_le o
  obtain ⟨n, hn⟩ := Nat.exists_eq_add_one.2 (firstLength_pos o)
  rw [encode_decodeWords, hn, List.take_succ_cons, List.cons_append, Nat.add_sub_cancel,
    take_getD_append_drop (by omega) (by omega)]

/-! ## The table's selection -/

/-- The first-byte rows whose pattern lies in the quadrant `x`. -/
def quadrantRows (x : BitVec 2) : List TableRow := firstRows.filter fun r => fieldX r.pattern == x

/-- Every mask of the table holds the quadrant bits. -/
theorem firstRows_mask_quadrant : ∀ r ∈ firstRows, fieldX r.mask = 0b11 := by decide

theorem fieldX_pattern_of_selects {r : TableRow} {o : Byte} (hm : fieldX r.mask = 0b11) (h : r.selects o = true) :
    fieldX r.pattern = fieldX o := by
  obtain ⟨hmatch, -⟩ := Bool.and_eq_true_iff.1 h
  have hpat : o &&& r.mask = r.pattern := eq_of_beq hmatch
  calc fieldX r.pattern = fieldX o &&& fieldX r.mask := by rw [← hpat]; exact BitVec.extractLsb'_and
    _ = fieldX o := by rw [hm]; exact BitVec.and_allOnes

/-- A byte is selected by rows of its own quadrant only. -/
theorem filter_selects_eq_quadrant (o : Byte) :
    firstRows.filter (fun r => r.selects o) = (quadrantRows (fieldX o)).filter (fun r => r.selects o) := by
  rw [quadrantRows, List.filter_filter]
  refine List.filter_congr fun r hr => ?_
  cases hsel : r.selects o
  · rfl
  · simp [fieldX_pattern_of_selects (firstRows_mask_quadrant r hr) hsel]

theorem quadrantRows_selects : ∀ (x : BitVec 2) (y z : BitVec 3),
    ((quadrantRows x).filter (fun r => r.selects (byteXyz x y z))).map (fun r => r.row) =
      [(decodeFirst (byteXyz x y z) 0 0).row] := by
  decide

/-- Every first byte selects one row, the one of its entry (30_encoding.md R172, R173). -/
theorem firstRows_selects (o : Byte) :
    (firstRows.filter (fun r => r.selects o)).map (fun r => r.row) = [(decodeFirst o 0 0).row] := by
  have h := quadrantRows_selects (fieldX o) (fieldY o) (fieldZ o)
  rwa [byteXyz_fields, ← filter_selects_eq_quadrant] at h

theorem cbRows_selects : ∀ c : Byte, (cbRows.filter (fun r => r.selects c)).map (fun r => r.row) = [(decodeCb c).row] := by
  decide

/-- Settles O24: one row for each byte, which the bytes after it do not change. -/
theorem decoderFollowsTable : Obligations.DecoderFollowsTable := by
  refine ⟨fun o b1 b2 ho => ?_, fun c => firstRows_selects 0xCB, fun c _ => cbRows_selects c⟩
  rw [firstRows_selects, decodeWords_of_ne b1 b2 ho, row_decodeFirst o b1 b2]

/-! ## What the first byte fixes -/

/-- Settles O26: the length is the first byte's, by the table entry of each. -/
theorem lengthFromFirstByte : Obligations.LengthFromFirstByte := by
  intro o b1 b2
  refine ⟨length_decodeWords o b1 b2, (encode_length _).trans (length_decodeWords o b1 b2), ?listed⟩
  case listed => revert o; decide

/-! ## The illegal bytes -/

/-- Settles O27: `(illegal)` is well formed for the eleven bytes only, and its meaning is the raise alone. -/
theorem illegalBytes : Obligations.IllegalBytes := by
  refine ⟨fun o rest => ⟨fun h => ?_, fun h => ?_⟩, fun _ _ _ => rfl⟩
  · exact List.contains_iff_mem.1 (encodeDecode _ _ _ h).1
  · exact decodeEncode (.illegal o) rest (List.contains_iff_mem.2 h)

/-! ## The spec's words -/

/-- Settles O25: each word is the encoding of its instruction. -/
theorem specWords : Obligations.SpecWords :=
  ⟨decodeEncode (.jpNn 0x0637) [] rfl, decodeEncode (.ldRR .c .b) [] rfl, decodeEncode (.ldRN .a 0x42) [] rfl,
    decodeEncode (.ldRrNn .hl 0x1234) [] rfl, decodeEncode (.pop .de) [] rfl, decodeEncode (.addR .b) [] rfl,
    decodeEncode (.incRr .de) [] rfl, decodeEncode .rlca [] rfl, decodeEncode (.jpCcNn .z 0x0200) [] rfl,
    decodeEncode (.rst 5) [] rfl, decodeEncode .halt [] rfl, decodeEncode (.swap (.reg .a)) [] rfl,
    decodeEncode (.bitB 7 .atHl) [] rfl, decodeEncode (.illegal 0xDD) [] rfl⟩

end Sys2Proof.Machine

/-! SUPPORT. Fetching and decoding at PC: what the bytes there give, the fatals of decoding, and the step of a CPU that runs the
instruction (40_engine.md R191, R192, R197, R198). -/

namespace Sys2Proof.Machine

/-! ## A step that runs the instruction at PC -/

theorem State.requested_of_not_pending (s : State) (h : s.pending = false) : s.requested = none := by
  have hb : s.pendingBits = 0 := by simpa [State.pending] using h
  simp [State.requested, hb]

theorem State.awakeStep_runNext {s : State} (h : s.ime = false ∨ s.pending = false) : s.awakeStep = s.runNext := by
  unfold State.awakeStep
  rcases h with hi | hp
  · rw [hi]
  · rw [s.requested_of_not_pending hp]
    cases s.ime <;> rfl

/-- A CPU that is awake or wakes, and dispatches nothing, runs the instruction at PC (40_engine.md R191, R199). -/
theorem step_runNext {s : State} (hf : s.fatal = none) (hw : s.halted = true → s.pending = true)
    (hd : s.ime = false ∨ s.pending = false) : step s = State.runNext { s with halted := false } := by
  have hgo : ¬ (s.halted = true ∧ s.pending = false) := fun ⟨hh, hp⟩ => by simp [hw hh] at hp
  rw [step_live hf, State.liveStep, if_neg hgo]
  exact State.awakeStep_runNext hd

theorem State.runNext_of_fetch_fatal {s t : State} (h : s.fetch = .fatal t) : s.runNext = .next t := by
  rw [State.runNext, h]

/-- Once the instruction is fetched and answered, what is left of the step is its end (40_engine.md R191). -/
theorem State.runNext_of_fetch_ok {s t u : State} {i : Instr} (h : s.fetch = .ok i t) (hx : exec i t = .next u) :
    s.runNext = .next (u.endStep s.imePending) := by
  rw [State.runNext, h]
  simp only [hx]

/-- The end of a step written out: nothing after a fatal, else the commit and the iteration (40_engine.md R197, R198, R205). -/
theorem State.endStep_eq (s : State) (armed : Bool) :
    s.endStep armed =
      if s.fatal.isSome then s
      else State.iterate (if armed ∧ s.imePending then { s with ime := true, imePending := false } else s) := by
  by_cases hf : s.fatal = none
  · rw [s.endStep_live armed hf, if_neg (by simp [hf])]
    simp [State.commitIme]
  · obtain ⟨f, hf⟩ := Option.ne_none_iff_exists'.1 hf
    rw [s.endStep_fatal armed f hf, if_pos (by simp [hf])]

/-! ## The first byte -/

theorem State.excludes_iff (s : State) (i : Instr) : s.excludes i = true ↔ i.row ∈ s.unimplemented :=
  List.contains_iff_mem

theorem State.fetch_forbidden {s : State} (hz : zoneOf s.regs.pc = .forbidden) :
    s.fetch = .fatal (s.raise (.forbiddenAddress s.regs.pc .fetch)) := by
  rw [State.fetch, s.busRead_forbidden _ _ hz, Res.bind_fatal]

section FirstByte
variable {s : State} {o : Byte} (ho : s.peek s.regs.pc = some o)
include ho

/-- The row of the first byte is tested before a further byte is read (48_misc.md R376; log 24). -/
theorem State.fetch_excluded (hx : (decodeFirst o 0 0).row ∈ s.unimplemented) :
    s.fetch = .fatal (s.raise (.unknownOpcode o none s.regs.pc)) := by
  rw [State.fetch, s.busRead_of_peek _ _ _ ho, Res.bind_ok, if_pos ((s.excludes_iff _).2 hx)]

theorem State.fetch_included (hx : (decodeFirst o 0 0).row ∉ s.unimplemented) : s.fetch = s.fetchMore o := by
  rw [State.fetch, s.busRead_of_peek _ _ _ ho, Res.bind_ok, if_neg fun h => hx ((s.excludes_iff _).1 h)]

end FirstByte

/-! ## The bytes after the first -/

theorem firstLength_cb : firstLength 0xCB = 2 := rfl

theorem decodeFirst_illegal : ∀ o ∈ illegalOpcodes, decodeFirst o 0 0 = .illegal o := by decide

theorem State.checkCb_excluded {s : State} {i : Instr} (o c : Byte) (hx : i.row ∈ s.unimplemented) :
    s.checkCb i o c = .fatal (s.raise (.unknownOpcode o (some c) s.regs.pc)) :=
  if_pos ((s.excludes_iff i).2 hx)

theorem State.checkCb_included {s : State} {i : Instr} (o c : Byte) (hx : i.row ∉ s.unimplemented) :
    s.checkCb i o c = .ok i s :=
  if_neg fun h => hx ((s.excludes_iff i).1 h)

theorem State.fetchMore_cb {s : State} {c : Byte} (hc : s.peek (s.regs.pc + 1) = some c) :
    s.fetchMore 0xCB = s.checkCb (decodeCb c) 0xCB c := by
  rw [State.fetchMore, if_pos rfl, s.busRead_of_peek _ _ _ hc, Res.bind_ok]

theorem State.fetchMore_of_ne (s : State) {o : Byte} (h : o ≠ 0xCB) : s.fetchMore o = s.fetchRest o (firstLength o) :=
  if_neg h

/-- The escape byte and every other first byte that has a second one read it at the same place. -/
theorem State.fetchMore_second_forbidden {s : State} {o : Byte} (hl : 2 ≤ firstLength o)
    (hz : zoneOf (s.regs.pc + 1) = .forbidden) :
    s.fetchMore o = .fatal (s.raise (.forbiddenAddress (s.regs.pc + 1) .fetch)) := by
  have hread := s.busRead_forbidden (s.regs.pc + 1) .fetch hz
  by_cases ho : o = 0xCB
  · rw [State.fetchMore, if_pos ho, hread, Res.bind_fatal]
  · rw [s.fetchMore_of_ne ho, State.fetchRest, if_neg (by omega), hread, Res.bind_fatal]

theorem State.fetchMore_third_forbidden {s : State} {o b : Byte} (ho : o ≠ 0xCB) (hl : firstLength o = 3)
    (hb : s.peek (s.regs.pc + 1) = some b) (hz : zoneOf (s.regs.pc + 2) = .forbidden) :
    s.fetchMore o = .fatal (s.raise (.forbiddenAddress (s.regs.pc + 2) .fetch)) := by
  rw [s.fetchMore_of_ne ho, State.fetchRest, hl, if_neg (by decide), s.busRead_of_peek _ _ _ hb, Res.bind_ok,
    if_neg (by decide), s.busRead_forbidden _ _ hz, Res.bind_fatal]

/-! ## The bytes of an instruction -/

/-- The bytes from `a` on are the block's own, and are `bs`. -/
def State.Holds (s : State) (a : Word) (bs : List Byte) : Prop :=
  ∀ (k : Nat) (v : Byte), bs[k]? = some v → s.peek (a + BitVec.ofNat 16 k) = some v

theorem State.Holds.head {s : State} {a : Word} {b : Byte} {bs : List Byte} (h : s.Holds a (b :: bs)) : s.peek a = some b := by
  simpa using h 0 b rfl

theorem State.Holds.tail {s : State} {a : Word} {b : Byte} {bs : List Byte} (h : s.Holds a (b :: bs)) : s.Holds (a + 1) bs := by
  intro k v hk
  have hnext : a + 1 + BitVec.ofNat 16 k = a + BitVec.ofNat 16 (k + 1) := by
    rw [BitVec.add_assoc, BitVec.add_comm 1, BitVec.ofNat_add]
    rfl
  rw [hnext]
  exact h (k + 1) v hk

theorem State.holds_singleton {s : State} {a : Word} {b : Byte} (h : s.peek a = some b) : s.Holds a [b] := by
  intro k v hk
  obtain ⟨rfl, rfl⟩ : k = 0 ∧ v = b := by simpa [List.getElem?_singleton, eq_comm] using hk
  simpa using h

theorem State.fetchRest_of_holds {s : State} (o : Byte) {bs : List Byte} (hl : bs.length ≤ 2)
    (hb : s.Holds (s.regs.pc + 1) bs) :
    s.fetchRest o (bs.length + 1) = .ok (decodeWords o (bs.getD 0 0) (bs.getD 1 0)) s := by
  match bs, hl, hb with
  | [], _, _ => rfl
  | [b1], _, hb =>
    rw [State.fetchRest, if_neg (by simp), s.busRead_of_peek _ _ _ hb.head]
    rfl
  | [b1, b2], _, hb =>
    have h2 : s.peek (s.regs.pc + 2) = some b2 := by simpa [BitVec.add_assoc] using hb.tail.head
    rw [State.fetchRest, if_neg (by simp), s.busRead_of_peek _ _ _ hb.head, Res.bind_ok, if_neg (by simp),
      s.busRead_of_peek _ _ _ h2]
    rfl

/-- Bytes at PC that decode to an instruction of `P_IMPLEMENTED` are fetched as that instruction, and nothing changes
(40_engine.md R192). -/
theorem State.fetch_of_decode {s : State} {bs : List Byte} {i : Instr} (hd : decode bs = .ok (i, []))
    (hx : i.row ∉ s.unimplemented) (hcb : bs.head? = some 0xCB → (Instr.prefixCb 0).row ∉ s.unimplemented)
    (hb : s.Holds s.regs.pc bs) : s.fetch = .ok i s := by
  rcases bs with _ | ⟨o, bs⟩
  · cases hd
  obtain ⟨hlen, rfl, hrest⟩ := decode_cons_eq_ok hd
  have hlen' : bs.length + 1 = firstLength o := by
    have := List.drop_eq_nil_iff.1 hrest.symm
    have := firstLength_pos o
    omega
  by_cases ho : o = 0xCB
  · subst ho
    obtain ⟨c, rfl⟩ := List.length_eq_one_iff.1 (Nat.succ.inj (hlen'.trans firstLength_cb))
    rw [State.fetch_included hb.head (hcb rfl), State.fetchMore_cb hb.tail.head]
    exact State.checkCb_included _ _ hx
  · rw [decodeWords_of_ne _ _ ho, row_decodeFirst] at hx
    rw [State.fetch_included hb.head hx, s.fetchMore_of_ne ho, ← hlen']
    exact State.fetchRest_of_holds o (by have := firstLength_le o; omega) hb.tail

/-- An illegal byte of `P_IMPLEMENTED` is fetched as the row (illegal) (48_misc.md R376). -/
theorem State.fetch_illegal {s : State} {o : Byte} (ho : s.peek s.regs.pc = some o) (hill : o ∈ illegalOpcodes)
    (hx : (Instr.illegal o).row ∉ s.unimplemented) : s.fetch = .ok (.illegal o) s := by
  have hne : o ≠ 0xCB := fun h => absurd (h ▸ hill) (by decide)
  exact State.fetch_of_decode (decodeEncode (.illegal o) [] (List.contains_iff_mem.2 hill)) hx
    (fun h => absurd (Option.some.inj h) hne) (State.holds_singleton ho)

/-! ## The obligations -/

/-- Settles O51: each fatal of decoding is the one its fetch raises, but for an illegal byte of `P_IMPLEMENTED`, which is fetched
and whose meaning raises. -/
theorem decodeFatals : Obligations.DecodeFatals := by
  intro s hf hh hd
  have hrun : step s = s.runNext := by
    rw [step_runNext hf (by simp [hh]) hd, ← hh]
  have hraise : ∀ {t}, s.fetch = .fatal t → step s = .next t := fun h => hrun.trans (State.runNext_of_fetch_fatal h)
  refine ⟨fun hz => hraise (State.fetch_forbidden hz), fun o ho => ⟨fun hill => ?illegal,
    fun hx => hraise (State.fetch_excluded ho hx), fun _ _ hx hl hz => hraise ?second, fun hne _ hx hl hb hz => hraise ?third,
    fun hcb hx hz => hraise ?cbSecond, fun c hcb hx hc hxc => hraise ?cbRow⟩⟩
  case illegal =>
    by_cases hx : (decodeFirst o 0 0).row ∈ s.unimplemented
    · exact hraise (State.fetch_excluded ho hx)
    · rw [decodeFirst_illegal o hill] at hx
      rw [hrun, State.runNext_of_fetch_ok (State.fetch_illegal ho hill hx) rfl, State.endStep_fatal _ _ _ rfl]
  case second => rw [State.fetch_included ho hx, State.fetchMore_second_forbidden hl hz]
  case third =>
    obtain ⟨b, hb⟩ := Option.isSome_iff_exists.1 hb
    rw [State.fetch_included ho hx, State.fetchMore_third_forbidden hne hl hb hz]
  case cbSecond =>
    subst hcb
    rw [State.fetch_included ho hx, State.fetchMore_second_forbidden firstLength_cb.ge hz]
  case cbRow =>
    subst hcb
    rw [State.fetch_included ho hx, State.fetchMore_cb hc, State.checkCb_excluded _ _ hxc]

/-- Settles O50: the bytes at PC are fetched as the instruction they decode to, and its meaning is answered by a next state, which
the end of the step takes on. -/
theorem stepRunsDecoded : Obligations.StepRunsDecoded := by
  intro s bs i hf hw hd hx hcb hdec hb
  have hb' : State.Holds { s with halted := false } s.regs.pc bs := fun k v hk =>
    (s.peek_congr { s with halted := false } _ rfl rfl rfl rfl rfl).trans (hb k v hk)
  have hfetch : State.fetch { s with halted := false } = .ok i { s with halted := false } :=
    State.fetch_of_decode hdec hx hcb hb'
  obtain ⟨u, hu, -⟩ := exec_answered i { s with halted := false }
  rw [step_runNext hf hw hd, State.runNext_of_fetch_ok hfetch hu, hu, State.endStep_eq]
  exact apply_ite Host.Outcome.next _ _ _

end Sys2Proof.Machine

/-! SUPPORT. The 8-bit loads (41_load8.md R230 to R248): a form that only writes a register, and the loads and stores through
memory as instances of the shapes of Laws/Forms. -/

namespace Sys2Proof.Machine

/-! ## The 8-bit loads -/

/-- A form that writes `v` to one register and touches no memory: the register holds `v`, every other one is kept. -/
theorem answers_of_setR8 {i : Instr} {s : State} {dst : R8} {v : Byte} {n : Word} {m : Nat}
    (h : exec i s = ((s.advance n).setR8 dst v).done m) :
    ∃ t, Answers i s s t { s.retires n m with regs := [dst] } ∧ t.getR8 dst = v := by
  refine ⟨((s.advance n).setR8 dst v).setElapsed m,
    Answers.mk h (fun r hr => ?others) (Regs.set_f _ _ _) (Regs.set_sp _ _ _) (Regs.set_pc _ _ _) rfl rfl
      (BytesKept.onlyRegs (.self _ _) rfl), ?dst⟩
  case others =>
    rw [State.setElapsed_getR8, State.setR8_getR8_other _ _ _ _ (List.ne_of_not_mem_cons hr), State.advance_getR8]
  case dst => rw [State.setElapsed_getR8, State.setR8_getR8_same]

/-- Settles O28: both forms write one register and nothing else; for `dst = src` the byte written is the one it held. -/
theorem registerLoads : Obligations.RegisterLoads :=
  ⟨fun dst src => spells_encode (.ldRR dst src) rfl, fun dst n => spells_encode (.ldRN dst n) rfl,
    fun _ _ _ => answers_of_setR8 rfl, fun _ _ _ => answers_of_setR8 rfl⟩

/-- Settles O29: the encodings, then each load as `loadTo` at its address or as `loadStep`. -/
theorem memoryLoads : Obligations.MemoryLoads := by
  refine ⟨fun dst => spells_encode (.ldRHl dst) rfl, spells_encode .ldABc rfl, spells_encode .ldADe rfl,
    spells_encode .ldAHli rfl, spells_encode .ldAHld rfl, fun _ _ => spells_of_length3 rfl rfl rfl,
    fun n => spells_encode (.ldhAN n) rfl, spells_encode .ldhAC rfl,
    ?ldRHl, ?ldABc, ?ldADe, ?ldAHli, ?ldAHld, ?ldANn, ?ldhAN, ?ldhAC⟩
  case ldRHl => exact fun _ _ => loadForm_of (addr := State.hl) rfl rfl
  case ldABc => exact fun _ => loadForm_of (addr := fun t => t.getRR .bc) rfl rfl
  case ldADe => exact fun _ => loadForm_of (addr := fun t => t.getRR .de) rfl rfl
  case ldAHli | ldAHld => exact fun _ => loadStepForm_of rfl
  case ldANn => exact fun _ nn => loadForm_of (addr := fun _ => nn) rfl rfl
  case ldhAN => exact fun _ n => loadForm_of (addr := fun _ => topPage n) rfl (topPage_eq n)
  case ldhAC => exact fun _ => loadForm_of (addr := fun t => topPage (t.getR8 .c)) rfl (topPage_eq _)

/-- Settles O30: the encodings, then each store as `storeAt` of its byte at its address or as `storeStep`. -/
theorem memoryStores : Obligations.MemoryStores := by
  refine ⟨fun src => spells_encode (.ldHlR src) rfl, fun n => spells_encode (.ldHlN n) rfl, spells_encode .ldBcA rfl,
    spells_encode .ldDeA rfl, spells_encode .ldHliA rfl, spells_encode .ldHldA rfl,
    fun _ _ => spells_of_length3 rfl rfl rfl, fun n => spells_encode (.ldhNA n) rfl, spells_encode .ldhCA rfl,
    fun s hi => ⟨?ldHlR, ?ldHlN, ?ldBcA, ?ldDeA, ?ldHliA, ?ldHldA, ?ldNnA, ?ldhNA, ?ldhCA⟩⟩
  case ldHlR => exact fun src => storeForm_of (addr := State.hl) (val := fun t => t.getR8 src) hi rfl rfl rfl
  case ldHlN => exact fun n => storeForm_of (addr := State.hl) (val := fun _ => n) hi rfl rfl rfl
  case ldBcA => exact storeForm_of (addr := fun t => t.getRR .bc) (val := fun t => t.getR8 .a) hi rfl rfl rfl
  case ldDeA => exact storeForm_of (addr := fun t => t.getRR .de) (val := fun t => t.getR8 .a) hi rfl rfl rfl
  case ldHliA | ldHldA => exact storeStepForm_of hi rfl
  case ldNnA => exact fun nn => storeForm_of (addr := fun _ => nn) (val := fun t => t.getR8 .a) hi rfl rfl rfl
  case ldhNA =>
    exact fun n => storeForm_of (addr := fun _ => topPage n) (val := fun t => t.getR8 .a) hi rfl (topPage_eq n) rfl
  case ldhCA =>
    exact storeForm_of (addr := fun t => topPage (t.getR8 .c)) (val := fun t => t.getR8 .a) hi rfl (topPage_eq _) rfl

end Sys2Proof.Machine

/-! SUPPORT. The 16-bit loads and the stack (42_load16.md R260 to R265): an answered form by the register file it leaves, and
what a 16-bit write answers. -/

namespace Sys2Proof.Machine

/-! ## An answered form by its register file -/

/-- A form that answers with the register file `g` in the state `u` its accesses leave has the effect `e` where `g` and the
bytes of `u` do. -/
theorem answers_of_withRegs {i : Instr} {s u : State} {g : Regs} {e : Effect}
    (h : exec i s = .next ((u.withRegs g).setElapsed e.cycles)) (hr : ∀ r, r ∉ e.regs → g.get r = s.regs.get r)
    (hf : g.f = e.f) (hsp : g.sp = e.sp) (hpc : g.pc = e.pc) (hb : BytesKept s u e.stored) :
    Answers i s u ((u.withRegs g).setElapsed e.cycles) e :=
  Answers.mk h hr hf hsp hpc rfl rfl (hb.onlyRegs rfl)

/-! ## A 16-bit write -/

theorem State.write16_setPc (s : State) (x a v : Word) :
    (s.setPc x).write16 a v = (s.write16 a v).onState (fun t => t.setPc x) := by
  rw [State.write16, State.write16, State.write8_setPc]
  cases s.write8 a (loByte v) with
  | fatal _ => rfl
  | ok _ u => exact u.write8_setPc x _ _

section Write16
variable {s u w : State} {a v : Word}

theorem write16_ok (h : s.write8 a (loByte v) = .ok () u) (h' : u.write8 (a + 1) (hiByte v) = .ok () w) :
    s.write16 a v = .ok () w := by
  rw [State.write16, h, Res.bind_ok, h']

theorem write16_fatal1 (h : s.write8 a (loByte v) = .fatal u) : s.write16 a v = .fatal u := by
  rw [State.write16, h, Res.bind_fatal]

theorem write16_fatal2 (h : s.write8 a (loByte v) = .ok () u) (h' : u.write8 (a + 1) (hiByte v) = .fatal w) :
    s.write16 a v = .fatal w := by
  rw [State.write16, h, Res.bind_ok, h']

end Write16

/-- `LD (nn),SP` is the 16-bit write from the state given, then PC at the next instruction (42_load16.md R261). -/
theorem exec_ldNnSp (nn : Word) (s : State) :
    exec (.ldNnSp nn) s = ((s.write16 nn s.regs.sp).onState fun t => t.setPc (s.regs.pc + 3)).done 5 :=
  congrArg (Res.done · 5) (s.write16_setPc (s.regs.pc + 3) nn s.regs.sp)

/-! ## The 16-bit loads -/

/-- Settles O31: the encodings; the forms on registers by the register file they leave, for `LD HL,SP+e` with the sum and
the flags of `addSpE16`; `LD (nn),SP` by the outcomes of its two writes. -/
theorem pairLoads : Obligations.PairLoads := by
  refine ⟨?ldRrNnBytes, fun _ _ => spells_of_length3 rfl rfl rfl, spells_encode .ldSpHl rfl,
    fun e => spells_encode (.ldHlSpE e) rfl, fun s p nn => ?ldRrNn,
    fun s nn => ⟨fun hi hw => ?accepted, fun u hu => ?refusedLow, fun u w hu hw => ?refusedHigh⟩,
    fun s => ?ldSpHl, fun s e => ?ldHlSpE⟩
  case ldRrNnBytes => intro p _ _; cases p <;> exact spells_of_length3 rfl rfl rfl
  case ldRrNn =>
    exact ⟨_, answers_of_withRegs (u := s) (g := (s.advance 3).regs.setRR p nn) rfl ((s.advance 3).setRR_getR8_other p nn)
      (Regs.setRR_f _ p nn) (by cases p <;> rfl) (Regs.setRR_pc _ p nn) (.self _ _),
      (s.advance 3).setRR_getRR_same p nn⟩
  case accepted =>
    obtain ⟨u1, u2, h1, h2, hb⟩ := writes2 (w := hiByte s.regs.sp) hi hw
    have hr : u2.regs = s.regs := (State.write8_ok_regs h2).trans (State.write8_ok_regs h1)
    refine ⟨u1, u2, _, h1, h2,
      answers_of_withRegs (g := { s.regs with pc := s.regs.pc + 3 }) ?_ (fun _ _ => rfl) rfl rfl rfl hb⟩
    rw [exec_ldNnSp, write16_ok h1 h2, Res.onState_ok, Res.done_ok, State.setPc_eq, hr]
    rfl
  case refusedLow => rw [exec_ldNnSp, write16_fatal1 hu, Res.onState_fatal, Res.done_fatal]
  case refusedHigh => rw [exec_ldNnSp, write16_fatal2 hu hw, Res.onState_fatal, Res.done_fatal]
  case ldSpHl =>
    exact ⟨_, answers_of_withRegs (u := s) (g := { (s.advance 1).regs with sp := s.hl }) rfl (fun _ _ => rfl) rfl rfl rfl
      (.self _ _)⟩
  case ldHlSpE =>
    exact ⟨_, answers_of_withRegs (u := s)
      (g := { (s.advance 2).regs.setRR .hl (addSpE16 s.regs.sp e).1 with f := (addSpE16 s.regs.sp e).2 }) rfl
      (s.setRR_getR8_other .hl _) rfl rfl rfl (.self _ _), s.setRR_getRR_same .hl _⟩

/-! ## The stack -/

/-- `F` after a pop is the low byte's high nibble where the pair is AF (10_state.md R34). -/
theorem Regs.setQQ_f (g : Regs) (q : QQ) (v : Word) :
    (g.setQQ q v).f = if q = .af then { z := v.getLsbD 7, n := v.getLsbD 6, h := v.getLsbD 5, c := v.getLsbD 4 } else g.f := by
  cases q with
  | af => simp [Regs.setQQ, Flags.ofByte, loByte]
  | bc | de | hl => rfl

theorem State.getQQ_setQQ (s : State) (q : QQ) (v : Word) :
    (s.setQQ q v).getQQ q = if q = .af then v &&& 0xFFF0 else v := by
  split_ifs with hq
  · rw [hq, State.setQQ_af_getQQ]
  · exact s.setQQ_getQQ_same q v hq

/-- A result bound to nothing more is the result. -/
theorem Res.bind_ok_self {α : Type} (r : Res α) : r.bind .ok = r := by cases r <;> rfl

/-- Settles O32: a push of the pair, and a pop whose word is written to the pair. -/
theorem pushAndPop : Obligations.PushAndPop := by
  refine ⟨fun q => spells_encode (.push q) rfl, fun q => spells_encode (.pop q) rfl, fun s q => ?push, fun s q => ?pop⟩
  case push =>
    have h : exec (.push q) s = (((s.advance 1).push16 (s.getQQ q)).bind .ok).done 4 := by
      rw [Res.bind_ok_self, ← s.advance_getQQ 1 q]; rfl
    exact pushForm_of h fun t ht => by rw [← ht]; rfl
  case pop =>
    refine popForm_of (m := 3) (k := fun v t => .ok () (t.setQQ q v)) rfl fun v u hu hb h => ?_
    let t := (s.setSp (s.regs.sp + 2)).setPc (s.regs.pc + 1)
    have ht : exec (.pop q) s = .next ((u.withRegs (t.setQQ q v).regs).setElapsed 3) := by
      rw [h, Res.done_ok, State.setQQ_eq, State.setPc_eq, State.setSp_eq, hu]; rfl
    exact ⟨_, answers_of_withRegs ht (t.setQQ_getR8_other q v) (Regs.setQQ_f t.regs q v) (Regs.setQQ_sp t.regs q v)
      (Regs.setQQ_pc t.regs q v) hb, t.getQQ_setQQ q v⟩

end Sys2Proof.Machine

/-! SUPPORT. The 8-bit arithmetic and logic and the accumulator rotates (43_alu8.md R280 to R296, 45_rotate_shift.md R320 to
R323): the results of Machine/Flags as exact sums and differences, and what DAA makes of a decimal one. -/

namespace Sys2Proof.Machine

/-! ## Sums and differences -/

/-- `Z` of an exact sum is the sum modulo 256 being 0. -/
theorem ofNat_beq_zero (n : Nat) : (BitVec.ofNat 8 n == 0) = decide (n % 256 = 0) := by
  rw [beq_eq_decide, decide_eq_decide, ← BitVec.toNat_inj, BitVec.toNat_ofNat]
  rfl

/-- `Z` of an exact difference is the difference modulo 256 being 0. -/
theorem ofInt_beq_zero (i : Int) : (BitVec.ofInt 8 i == 0) = decide (i % 256 = 0) := by
  rw [beq_eq_decide, decide_eq_decide, ← BitVec.toNat_inj, BitVec.toNat_ofInt]
  change (i % 256).toNat = 0 ↔ i % 256 = 0
  omega

theorem ofInt_sub {w : Nat} (i j : Int) : BitVec.ofInt w (i - j) = BitVec.ofInt w i - BitVec.ofInt w j := by
  rw [Int.sub_eq_add_neg, BitVec.ofInt_add, BitVec.ofInt_neg, ← BitVec.sub_eq_add_neg]

theorem ofInt_toNat {w : Nat} (v : BitVec w) : BitVec.ofInt w v.toNat = v := by
  rw [BitVec.ofInt_natCast, BitVec.ofNat_toNat, BitVec.setWidth_eq]

theorem sub_sub_ofNat (a x : Byte) (c : Nat) :
    a - x - BitVec.ofNat 8 c = BitVec.ofInt 8 ((a.toNat : Int) - x.toNat - (c : Nat)) := by
  rw [ofInt_sub, ofInt_sub, ofInt_toNat, ofInt_toNat, BitVec.ofInt_natCast]

theorem bit01_eq_toNat (c : Bool) : bit01 c = c.toNat := by cases c <;> rfl

theorem addWith_eq (c : Nat) (a x : Byte) : addWith c a x =
    (BitVec.ofNat 8 (a.toNat + x.toNat + c),
      { z := decide ((a.toNat + x.toNat + c) % 256 = 0), n := false,
        h := decide (a.toNat % 16 + x.toNat % 16 + c > 0xF), c := decide (a.toNat + x.toNat + c > 0xFF) }) := by
  rw [addWith, ofNat_beq_zero]

theorem subWith_eq (c : Nat) (a x : Byte) : subWith c a x =
    (BitVec.ofInt 8 ((a.toNat : Int) - x.toNat - (c : Nat)),
      { z := decide (((a.toNat : Int) - x.toNat - (c : Nat)) % 256 = 0), n := true,
        h := decide (a.toNat % 16 < x.toNat % 16 + c), c := decide (a.toNat < x.toNat + c) }) := by
  rw [subWith, sub_sub_ofNat, ofInt_beq_zero]

/-- With no borrow in, as SUB and CP have it. -/
theorem subWith_zero (a x : Byte) : subWith 0 a x =
    (BitVec.ofInt 8 ((a.toNat : Int) - x.toNat),
      { z := decide (((a.toNat : Int) - x.toNat) % 256 = 0), n := true, h := decide (a.toNat % 16 < x.toNat % 16),
        c := decide (a.toNat < x.toNat) }) := by
  rw [subWith_eq, Int.natCast_zero, Int.sub_zero, Nat.add_zero, Nat.add_zero]

/-- Settles O33: the forms of ADD and ADC are the shared ALU shapes of `addWith`. -/
theorem addForms : Obligations.AddForms :=
  ⟨aluForms_of (fun src => spells_encode (.addR src) rfl) (spells_encode .addHl rfl) (fun n => spells_encode (.addN n) rfl)
      (fun _ _ => rfl) (fun _ => rfl) (fun _ _ => rfl) fun a x _ => addWith_eq 0 a x,
    aluForms_of (fun src => spells_encode (.adcR src) rfl) (spells_encode .adcHl rfl) (fun n => spells_encode (.adcN n) rfl)
      (fun _ _ => rfl) (fun _ => rfl) (fun _ _ => rfl) fun a x f => addWith_eq (bit01 f.c) a x⟩

/-- Settles O34: the forms of SUB, SBC and CP are the shared ALU shapes of `subWith`; CP keeps A. -/
theorem subForms : Obligations.SubForms :=
  ⟨aluForms_of (fun src => spells_encode (.subR src) rfl) (spells_encode .subHl rfl) (fun n => spells_encode (.subN n) rfl)
      (fun _ _ => rfl) (fun _ => rfl) (fun _ _ => rfl) fun a x _ => subWith_zero a x,
    aluForms_of (fun src => spells_encode (.sbcR src) rfl) (spells_encode .sbcHl rfl) (fun n => spells_encode (.sbcN n) rfl)
      (fun _ _ => rfl) (fun _ => rfl) (fun _ _ => rfl) fun a x f => subWith_eq (bit01 f.c) a x,
    aluForms_of (fun src => spells_encode (.cpR src) rfl) (spells_encode .cpHl rfl) (fun n => spells_encode (.cpN n) rfl)
      (fun _ _ => rfl) (fun _ => rfl) (fun _ _ => rfl) fun a x _ => congrArg (fun r => (a, r.2)) (subWith_zero a x)⟩

/-- Settles O35: the forms of AND, XOR and OR are the shared ALU shapes of the bitwise operations. -/
theorem logicForms : Obligations.LogicForms :=
  ⟨aluForms_of (fun src => spells_encode (.andR src) rfl) (spells_encode .andHl rfl) (fun n => spells_encode (.andN n) rfl)
      (fun _ _ => rfl) (fun _ => rfl) (fun _ _ => rfl) fun _ _ _ => rfl,
    aluForms_of (fun src => spells_encode (.xorR src) rfl) (spells_encode .xorHl rfl) (fun n => spells_encode (.xorN n) rfl)
      (fun _ _ => rfl) (fun _ => rfl) (fun _ _ => rfl) fun _ _ _ => rfl,
    aluForms_of (fun src => spells_encode (.orR src) rfl) (spells_encode .orHl rfl) (fun n => spells_encode (.orN n) rfl)
      (fun _ _ => rfl) (fun _ => rfl) (fun _ _ => rfl) fun _ _ _ => rfl⟩

/-! ## Increments and decrements -/

theorem inc8_eq (v : Byte) (f : Flags) : inc8 v f =
    (v + 1, { z := decide ((v.toNat + 1) % 256 = 0), n := false, h := decide (v.toNat % 16 = 0xF), c := f.c }) := by
  have hz : (v + 1 == 0) = decide ((v.toNat + 1) % 256 = 0) := by
    rw [← ofNat_beq_zero, BitVec.ofNat_add, BitVec.ofNat_toNat, BitVec.setWidth_eq]
    rfl
  rw [inc8, hz]

theorem dec8_eq (v : Byte) (f : Flags) : dec8 v f =
    (v - 1, { z := decide (v.toNat = 1), n := true, h := decide (v.toNat % 16 = 0), c := f.c }) := by
  have hz : (v - 1 == 0) = decide (v.toNat = 1) := by
    rw [beq_eq_decide, decide_eq_decide]
    bv_omega
  rw [dec8, hz]

/-- Settles O36: each form is the shared read, modify and write of its operand. -/
theorem incrementsAndDecrements : Obligations.IncrementsAndDecrements :=
  ⟨fun r => spells_encode (.incR r) rfl, spells_encode .incHl rfl, fun r => spells_encode (.decR r) rfl,
    spells_encode .decHl rfl, fun _ _ => ⟨modifyReg_of rfl inc8_eq, modifyReg_of rfl dec8_eq⟩,
    fun _ hi => ⟨modifyHl_of hi rfl inc8_eq, modifyHl_of hi rfl dec8_eq⟩⟩

/-! ## DAA by its correction -/

/-- C after DAA: it was set, or the sum exceeds 0x99 (43_alu8.md R293). -/
def daaCarry (a : Byte) (f : Flags) : Bool := f.c || (!f.n && decide (a.toNat > 0x99))

/-- DAA corrects the low digit: H was set, or the low digit of a sum exceeds 9 (43_alu8.md R293). -/
def daaLow (a : Byte) (f : Flags) : Bool := f.h || (!f.n && decide (a.toNat % 16 > 9))

/-- What DAA adds to A where `high` and `low` say which digits it corrects, or with N set subtracts from it. -/
def daaAmount (high low : Bool) : Nat := (if high then 0x60 else 0) + (if low then 0x06 else 0)

/-- A after DAA, as an exact sum or difference. -/
def daaResult (a : Byte) (f : Flags) : Int :=
  if f.n then (a.toNat : Int) - daaAmount (daaCarry a f) (daaLow a f)
  else (a.toNat : Int) + daaAmount (daaCarry a f) (daaLow a f)

/-- The corrections added one after the other are one sum. -/
theorem daa_add_digits (a : Byte) (high low : Bool) :
    (if low then (if high then a + 0x60 else a) + 0x06 else if high then a + 0x60 else a) =
      BitVec.ofInt 8 ((a.toNat : Int) + daaAmount high low) := by
  rw [BitVec.ofInt_add, ofInt_toNat, BitVec.ofInt_natCast]
  cases high <;> cases low <;> simp [daaAmount, BitVec.add_assoc]

/-- The corrections subtracted one after the other are one difference. -/
theorem daa_sub_digits (a : Byte) (high low : Bool) :
    (if low then (if high then a - 0x60 else a) - 0x06 else if high then a - 0x60 else a) =
      BitVec.ofInt 8 ((a.toNat : Int) - daaAmount high low) := by
  rw [ofInt_sub, ofInt_toNat, BitVec.ofInt_natCast]
  cases high <;> cases low <;> simp [daaAmount, BitVec.sub_sub]

/-- The correction of the high digit leaves the low one. -/
theorem daa_high_keeps_low (a : Byte) (high : Bool) :
    (if high then a + 0x60 else a).toNat % 16 = a.toNat % 16 := by
  cases high
  · rfl
  · change (a + 0x60).toNat % 16 = a.toNat % 16
    bv_omega

/-- DAA adds or subtracts one amount, told from A and `F` as they were (43_alu8.md R293). -/
theorem daa8_eq (a : Byte) (f : Flags) : daa8 a f =
    (BitVec.ofInt 8 (daaResult a f),
      { z := decide (BitVec.ofInt 8 (daaResult a f) = 0), n := f.n, h := false, c := daaCarry a f }) := by
  cases hn : f.n with
  | false =>
    have hc : daaCarry a f = (f.c || decide (a.toNat > 0x99)) := by rw [daaCarry, hn]; rfl
    have hl : daaLow a f = (f.h || decide (a.toNat % 16 > 9)) := by rw [daaLow, hn]; rfl
    rw [daa8, if_pos hn, daaResult, hn, hc, hl]
    simp only [daa_high_keeps_low, daa_add_digits]
    rfl
  | true =>
    have hc : daaCarry a f = f.c := by rw [daaCarry, hn]; exact Bool.or_false f.c
    have hl : daaLow a f = f.h := by rw [daaLow, hn]; exact Bool.or_false f.h
    rw [daa8, if_neg (by rw [hn]; decide), daaResult, hn, hc, hl]
    simp only [daa_sub_digits]
    rfl

theorem daa8_c (a : Byte) (f : Flags) : (daa8 a f).2.c = daaCarry a f := by rw [daa8_eq]

/-! ## Rotates through a carry -/

theorem toNat_getLsbD_seven (v : Byte) : (v.getLsbD 7).toNat = v.toNat / 128 := by
  have := v.isLt
  rw [BitVec.getLsbD, Nat.toNat_testBit]
  omega

theorem toNat_getLsbD_zero (v : Byte) : (v.getLsbD 0).toNat = v.toNat % 2 := by
  rw [BitVec.getLsbD, Nat.toNat_testBit]
  omega

/-- A shift left leaves bit 0 free for the bit shifted in. -/
theorem shiftLeft_or_ofBool (v : Byte) (b : Bool) :
    v <<< 1 ||| BitVec.setWidth 8 (BitVec.ofBool b) = BitVec.ofNat 8 (v.toNat * 2 + b.toNat) := by
  have hdisj : v <<< 1 &&& BitVec.setWidth 8 (BitVec.ofBool b) = 0 := by
    ext i
    rcases Nat.eq_zero_or_pos i with rfl | hi
    · simp
    · simp [hi.ne']
  rw [← BitVec.add_eq_or_of_and_eq_zero _ _ hdisj, ← BitVec.toNat_inj]
  simp only [BitVec.toNat_add, BitVec.toNat_shiftLeft, BitVec.toNat_setWidth, BitVec.toNat_ofBool, BitVec.toNat_ofNat,
    Nat.shiftLeft_eq]
  omega

/-- A shift right leaves bit 7 free for the bit shifted in. -/
theorem shiftRight_or_ofBool (v : Byte) (b : Bool) :
    v >>> 1 ||| BitVec.setWidth 8 (BitVec.ofBool b) <<< 7 = BitVec.ofNat 8 (v.toNat / 2 + 128 * b.toNat) := by
  have hdisj : v >>> 1 &&& BitVec.setWidth 8 (BitVec.ofBool b) <<< 7 = 0 := by
    ext i hi
    rcases Nat.lt_or_ge i 7 with h7 | h7
    · simp [h7]
    · simp [show i = 7 by omega]
  rw [← BitVec.add_eq_or_of_and_eq_zero _ _ hdisj, ← BitVec.toNat_inj]
  simp only [BitVec.toNat_add, BitVec.toNat_ushiftRight, BitVec.toNat_shiftLeft, BitVec.toNat_setWidth, BitVec.toNat_ofBool,
    BitVec.toNat_ofNat, Nat.shiftLeft_eq, Nat.shiftRight_eq_div_pow]
  omega

theorem rlc8_eq (v : Byte) (f : Flags) : rlc8 v f =
    (BitVec.ofNat 8 (v.toNat * 2 + v.toNat / 128),
      shiftFlags (BitVec.ofNat 8 (v.toNat * 2 + v.toNat / 128)) (v.getLsbD 7)) := by
  rw [rlc8, shiftLeft_or_ofBool, toNat_getLsbD_seven]

theorem rrc8_eq (v : Byte) (f : Flags) : rrc8 v f =
    (BitVec.ofNat 8 (v.toNat / 2 + 128 * (v.toNat % 2)),
      shiftFlags (BitVec.ofNat 8 (v.toNat / 2 + 128 * (v.toNat % 2))) (v.getLsbD 0)) := by
  rw [rrc8, shiftRight_or_ofBool, toNat_getLsbD_zero]

theorem rl8_eq (v : Byte) (f : Flags) : rl8 v f =
    (BitVec.ofNat 8 (v.toNat * 2 + f.c.toNat), shiftFlags (BitVec.ofNat 8 (v.toNat * 2 + f.c.toNat)) (v.getLsbD 7)) := by
  rw [rl8, shiftLeft_or_ofBool]

theorem rr8_eq (v : Byte) (f : Flags) : rr8 v f =
    (BitVec.ofNat 8 (v.toNat / 2 + 128 * f.c.toNat),
      shiftFlags (BitVec.ofNat 8 (v.toNat / 2 + 128 * f.c.toNat)) (v.getLsbD 0)) := by
  rw [rr8, shiftRight_or_ofBool]

/-- Settles O37: each is an operation on A alone, by the equation of its operation. -/
theorem accumulatorForms : Obligations.AccumulatorForms :=
  ⟨accForm_of (spells_encode .daa rfl) (fun _ => rfl) daa8_eq,
    accForm_of (spells_encode .cpl rfl) (fun _ => rfl) fun _ f =>
      congrArg (fun r => (r, { f with n := true, h := true })) BitVec.xor_allOnes.symm,
    accForm_of (op := fun a f => (a, scfFlags f)) (spells_encode .scf rfl) (fun _ => rfl) fun _ _ => rfl,
    accForm_of (op := fun a f => (a, ccfFlags f)) (spells_encode .ccf rfl) (fun _ => rfl) fun _ _ => rfl,
    accForm_of (spells_encode .rlca rfl) (fun _ => rfl) fun v f => congrArg clearZ (rlc8_eq v f),
    accForm_of (spells_encode .rrca rfl) (fun _ => rfl) fun v f => congrArg clearZ (rrc8_eq v f),
    accForm_of (spells_encode .rla rfl) (fun _ => rfl) fun v f => congrArg clearZ (rl8_eq v f),
    accForm_of (spells_encode .rra rfl) (fun _ => rfl) fun v f => congrArg clearZ (rr8_eq v f)⟩

/-! ## DAA of a decimal sum and difference -/

section Decimal
variable (c : Nat) (a x : Byte)

/-- DAA corrects the high digit where the exact sum exceeds 0x99, whether or not the byte carried. -/
theorem daaCarry_addWith :
    daaCarry (addWith c a x).1 (addWith c a x).2 = decide (a.toNat + x.toNat + c > 0x99) := by
  rw [addWith_eq, daaCarry, BitVec.toNat_ofNat, Bool.eq_iff_iff]
  simp only [Bool.not_false, Bool.true_and, Bool.or_eq_true, decide_eq_true_eq]
  omega

/-- DAA corrects the low digit where the exact sum of the low digits exceeds 9, whether or not it carried. -/
theorem daaLow_addWith (hc : c ≤ 1) :
    daaLow (addWith c a x).1 (addWith c a x).2 = decide (a.toNat % 16 + x.toNat % 16 + c > 9) := by
  rw [addWith_eq, daaLow, BitVec.toNat_ofNat, Bool.eq_iff_iff]
  simp only [Bool.not_false, Bool.true_and, Bool.or_eq_true, decide_eq_true_eq]
  omega

theorem daa8_addWith_toNat (hc : c ≤ 1) : (daa8 (addWith c a x).1 (addWith c a x).2).1.toNat =
    (a.toNat + x.toNat + c +
      daaAmount (decide (a.toNat + x.toNat + c > 0x99)) (decide (a.toNat % 16 + x.toNat % 16 + c > 9))) % 256 := by
  rw [daa8_eq, daaResult, daaCarry_addWith, daaLow_addWith c a x hc, addWith_eq, BitVec.toNat_ofInt]
  simp only [Bool.false_eq_true, if_false, BitVec.toNat_ofNat]
  omega

theorem daaCarry_subWith : daaCarry (subWith c a x).1 (subWith c a x).2 = decide (a.toNat < x.toNat + c) := by
  rw [subWith_eq]
  exact Bool.or_false _

theorem daaLow_subWith :
    daaLow (subWith c a x).1 (subWith c a x).2 = decide (a.toNat % 16 < x.toNat % 16 + c) := by
  rw [subWith_eq]
  exact Bool.or_false _

/-- After a difference DAA corrects exactly the digits that borrowed. -/
theorem daa8_subWith_toNat : ((daa8 (subWith c a x).1 (subWith c a x).2).1.toNat : Int) =
    ((a.toNat : Int) - x.toNat - (c : Nat) -
      daaAmount (decide (a.toNat < x.toNat + c)) (decide (a.toNat % 16 < x.toNat % 16 + c))) % 256 := by
  rw [daa8_eq, daaResult, daaCarry_subWith, daaLow_subWith, subWith_eq, BitVec.toNat_ofInt]
  simp only [if_true, BitVec.toNat_ofInt]
  omega

variable (hc : c ≤ 1) (ha : a.toNat % 16 ≤ 9) (ha' : a.toNat / 16 ≤ 9) (hx : x.toNat % 16 ≤ 9) (hx' : x.toNat / 16 ≤ 9)
include hc ha ha' hx hx'

/-- The corrected sum of packed decimal bytes is the decimal sum, the hundred in C. -/
theorem daa8_addWith_decimal :
    let s := daa8 (addWith c a x).1 (addWith c a x).2
    (s.1.toNat % 16 ≤ 9 ∧ s.1.toNat / 16 ≤ 9) ∧
      10 * (s.1.toNat / 16) + s.1.toNat % 16 + 100 * s.2.c.toNat =
        10 * (a.toNat / 16) + a.toNat % 16 + (10 * (x.toNat / 16) + x.toNat % 16) + c := by
  intro s
  have hs : s.1.toNat = _ := daa8_addWith_toNat c a x hc
  have hcarry : s.2.c = _ := (daa8_c _ _).trans (daaCarry_addWith c a x)
  rw [hs, hcarry]
  simp only [daaAmount, decide_eq_true_eq, Bool.toNat, Bool.cond_decide]
  split_ifs <;> omega

/-- The corrected difference of packed decimal bytes is the decimal difference, the hundred borrowed in C. -/
theorem daa8_subWith_decimal :
    let d := daa8 (subWith c a x).1 (subWith c a x).2
    (d.1.toNat % 16 ≤ 9 ∧ d.1.toNat / 16 ≤ 9) ∧
      10 * (d.1.toNat / 16) + d.1.toNat % 16 + (10 * (x.toNat / 16) + x.toNat % 16) + c =
        10 * (a.toNat / 16) + a.toNat % 16 + 100 * d.2.c.toNat := by
  intro d
  have hd : (d.1.toNat : Int) = _ := daa8_subWith_toNat c a x
  have hborrow : d.2.c = _ := (daa8_c _ _).trans (daaCarry_subWith c a x)
  rw [hborrow]
  simp only [daaAmount, decide_eq_true_eq, Bool.toNat, Bool.cond_decide] at hd ⊢
  split_ifs at hd ⊢ <;> omega

end Decimal

/-- Settles O38: the digits DAA corrects after ADC and SBC are those that passed 9 or borrowed. -/
theorem decimalAdjust : Obligations.DecimalAdjust := by
  intro a x f ha ha' hx hx'
  have hc : bit01 f.c ≤ 1 := by rw [bit01_eq_toNat]; exact Bool.toNat_le f.c
  obtain ⟨hsum, hs⟩ := daa8_addWith_decimal (bit01 f.c) a x hc ha ha' hx hx'
  obtain ⟨hdif, hd⟩ := daa8_subWith_decimal (bit01 f.c) a x hc ha ha' hx hx'
  rw [← bit01_eq_toNat]
  exact ⟨hsum, hdif, hs, hd⟩

end Sys2Proof.Machine

/-! SUPPORT. The 16-bit arithmetic (44_alu16.md R310 to R313): a form that writes one pair, SP among the pairs. -/

namespace Sys2Proof.Machine

/-! ## Forms that write a pair -/

/-- A form that writes `v` to one pair and touches no memory: the pair holds `v`, and SP is kept unless it is that pair. -/
theorem answers_of_setRR {i : Instr} {s : State} {p : RR} {v x : Word} {n : Word} {m : Nat}
    (h : exec i s = ((s.advance n).setRR p v).done m) (hx : p = .sp → v = x) :
    ∃ t, Answers i s s t { s.retires n m with regs := p.halves, sp := if p = .sp then x else s.regs.sp } ∧ t.getRR p = v := by
  have hsp : ((s.advance n).regs.setRR p v).sp = if p = .sp then x else s.regs.sp := by
    split_ifs with hp
    · rw [← hx hp, hp]; rfl
    · exact Regs.setRR_sp _ p v hp
  exact ⟨_, answers_of_withRegs (u := s) (g := (s.advance n).regs.setRR p v) h ((s.advance n).setRR_getR8_other p v)
    (Regs.setRR_f _ p v) hsp (Regs.setRR_pc _ p v) (.self _ _), (s.advance n).setRR_getRR_same p v⟩

/-! ## The 16-bit arithmetic -/

/-- Settles O39: INC and DEC write one pair; ADD HL,rr writes HL and the flags of `addHl16`, and ADD SP,e writes SP and the
flags of `addSpE16`. -/
theorem wordArithmetic : Obligations.WordArithmetic := by
  refine ⟨fun p => spells_encode (.addHlRr p) rfl, fun p => spells_encode (.incRr p) rfl,
    fun p => spells_encode (.decRr p) rfl, fun e => spells_encode (.addSpE e) rfl,
    fun s p => ?addHlRr, fun s p => ?incRr, fun s p => ?decRr, fun s e => ?addSpE⟩
  case addHlRr =>
    let r := addHl16 s.hl (s.getRR p) s.regs.f
    exact ⟨_, answers_of_withRegs (u := s) (g := { (s.advance 1).regs.setRR .hl r.1 with f := r.2 }) rfl
      (s.setRR_getR8_other .hl r.1) rfl rfl rfl (.self _ _), s.setRR_getRR_same .hl r.1⟩
  case incRr | decRr => exact answers_of_setRR rfl (by rintro rfl; rfl)
  case addSpE =>
    let r := addSpE16 s.regs.sp e
    exact ⟨_, answers_of_withRegs (u := s) (g := { (s.advance 2).regs with sp := r.1, f := r.2 }) rfl (fun _ _ => rfl)
      rfl rfl rfl (.self _ _)⟩

end Sys2Proof.Machine

/-! SUPPORT. The CB rotates and shifts (45_rotate_shift.md R324 to R332): the operations of SLA, SRA, SWAP and SRL told in
arithmetic, as those of the four rotates are above, and the shape the eight share. -/

namespace Sys2Proof.Machine

/-! ## Shifts and SWAP -/

theorem sla8_eq (v : Byte) (f : Flags) : sla8 v f =
    (BitVec.ofNat 8 (v.toNat * 2), shiftFlags (BitVec.ofNat 8 (v.toNat * 2)) (v.getLsbD 7)) := by
  have hr : v <<< 1 = BitVec.ofNat 8 (v.toNat * 2) := by
    rw [← BitVec.toNat_inj]
    simp [Nat.shiftLeft_eq]
  rw [sla8, hr]

theorem srl8_eq (v : Byte) (f : Flags) : srl8 v f =
    (BitVec.ofNat 8 (v.toNat / 2), shiftFlags (BitVec.ofNat 8 (v.toNat / 2)) (v.getLsbD 0)) := by
  have hr : v >>> 1 = BitVec.ofNat 8 (v.toNat / 2) := by bv_omega
  rw [srl8, hr]

/-- Bit 7 kept in place is bit 7 shifted in from the left. -/
theorem and_0x80_eq (v : Byte) : v &&& (0x80 : Byte) = BitVec.setWidth 8 (BitVec.ofBool (v.getLsbD 7)) <<< 7 := by
  have hand : v &&& 0x80 = if v.getLsbD 7 then BitVec.twoPow 8 7 else 0 := BitVec.and_twoPow v 7
  rw [hand]
  cases v.getLsbD 7 <;> rfl

theorem sra8_eq (v : Byte) (f : Flags) : sra8 v f =
    (BitVec.ofNat 8 (v.toNat / 2 + 128 * (v.toNat / 128)),
      shiftFlags (BitVec.ofNat 8 (v.toNat / 2 + 128 * (v.toNat / 128))) (v.getLsbD 0)) := by
  rw [sra8, and_0x80_eq, shiftRight_or_ofBool, toNat_getLsbD_seven]

/-- The nibbles exchanged do not overlap. -/
theorem shiftLeft_or_shiftRight_four (v : Byte) :
    v <<< 4 ||| v >>> 4 = BitVec.ofNat 8 (v.toNat % 16 * 16 + v.toNat / 16) := by
  have hdisj : v <<< 4 &&& v >>> 4 = 0 := by
    ext i hi
    rcases Nat.lt_or_ge i 4 with h4 | h4
    · simp [h4]
    · simp [BitVec.getLsbD_of_ge v (4 + i) (by omega)]
  rw [← BitVec.add_eq_or_of_and_eq_zero _ _ hdisj, ← BitVec.toNat_inj]
  simp only [BitVec.toNat_add, BitVec.toNat_shiftLeft, BitVec.toNat_ushiftRight, BitVec.toNat_ofNat, Nat.shiftLeft_eq,
    Nat.shiftRight_eq_div_pow]
  omega

theorem swap8_eq (v : Byte) (f : Flags) : swap8 v f =
    (BitVec.ofNat 8 (v.toNat % 16 * 16 + v.toNat / 16),
      shiftFlags (BitVec.ofNat 8 (v.toNat % 16 * 16 + v.toNat / 16)) false) := by
  rw [swap8, shiftLeft_or_shiftRight_four]

/-! ## The eight forms -/

/-- A form of the group `CB 00yyyzzz` whose meaning writes back what `op` makes of its operand, flags by `shiftFlags`. -/
theorem shiftForms_of {y : BitVec 3} {i : Opnd8 → Instr} {op : Byte → Flags → Byte × Flags} {res : Byte → Bool → Byte × Bool}
    (hop : ∀ v f, op v f = ((res v f.c).1, shiftFlags (res v f.c).1 (res v f.c).2))
    (hwf : ∀ o, (i o).WellFormed := by exact fun _ => rfl)
    (henc : ∀ o, encode (i o) = [0xCB, (0b00#2 ++ y ++ o.field : BitVec 8)] := by exact fun _ => rfl)
    (h : ∀ o s, exec (i o) s = cbModify op o s := by exact fun _ _ => rfl) : ShiftForms y i res :=
  ⟨fun o => henc o ▸ spells_encode (i o) (hwf o), cbForms_of h hop⟩

/-- Settles O40: each writes its operand back, by the equation of its operation. -/
theorem rotatesAndShifts : Obligations.RotatesAndShifts :=
  ⟨shiftForms_of rlc8_eq, shiftForms_of rrc8_eq, shiftForms_of rl8_eq, shiftForms_of rr8_eq, shiftForms_of sla8_eq,
    shiftForms_of sra8_eq, shiftForms_of swap8_eq, shiftForms_of srl8_eq⟩

end Sys2Proof.Machine

/-! SUPPORT. The single bits (46_bit.md R340 to R342): BIT reads its operand and writes only the flags; RES and SET write their
operand back with the bit told as a power of two. -/

namespace Sys2Proof.Machine

/-! ## BIT -/

/-- BIT on a register leaves the register file with the flags and PC written. -/
theorem answers_bitB_reg (s : State) (b : BitVec 3) (r : R8) :
    ∃ t, Answers (.bitB b (.reg r)) s s t { s.retires 2 2 with f := bitFlags b (s.getR8 r) s.regs.f } := by
  have hop : (s.advance 2).getR8 r = s.getR8 r := s.advance_getR8 2 r
  have h : exec (.bitB b (.reg r)) s =
      .next ((s.withRegs { (s.advance 2).regs with f := bitFlags b (s.getR8 r) s.regs.f }).setElapsed 2) := by
    rw [← hop]; rfl
  exact ⟨_, answers_of_withRegs h (fun _ _ => rfl) rfl rfl rfl (.self _ _)⟩

/-- `BIT b,(HL)` is the read from the state given, then PC at the next instruction and the flags of the byte (46_bit.md R340). -/
theorem exec_bitB_atHl (s : State) (b : BitVec 3) :
    exec (.bitB b .atHl) s = (((s.read8 s.hl).onState fun t => t.setPc (s.regs.pc + 2)).bind
      fun v t => .ok () (t.setF (bitFlags b v t.regs.f))).done 3 :=
  congrArg (fun r : Res Byte => (r.bind fun v t => .ok () (t.setF (bitFlags b v t.regs.f))).done 3)
    (s.read8_setPc (s.regs.pc + 2) s.hl)

theorem answers_bitB_atHl (s : State) (b : BitVec 3) (hr : Readable s s.hl) :
    ∃ v u t, s.read8 s.hl = .ok v u ∧
      Answers (.bitB b .atHl) s u t { s.retires 2 3 with f := bitFlags b v s.regs.f } := by
  obtain ⟨v, u, hu⟩ := s.read8_of_readable _ hr
  have hreg : u.regs = s.regs := State.read8_ok_regs hu
  have h : exec (.bitB b .atHl) s =
      .next ((u.withRegs { (s.advance 2).regs with f := bitFlags b v s.regs.f }).setElapsed 3) := by
    rw [exec_bitB_atHl, hu, Res.onState_ok, Res.bind_ok, Res.done_ok, State.setPc_eq, hreg]
    rfl
  exact ⟨v, u, _, hu, answers_of_withRegs h (fun _ _ => rfl) rfl rfl rfl (.read hu)⟩

theorem exec_bitB_atHl_fatal {s u : State} (b : BitVec 3) (hu : s.read8 s.hl = .fatal u) :
    exec (.bitB b .atHl) s = .next (u.setPc (s.regs.pc + 2)) := by
  rw [exec_bitB_atHl, hu, Res.onState_fatal, Res.bind_fatal, Res.done_fatal]

/-! ## RES and SET -/

/-- The byte whose only set bit is bit `n`. -/
theorem one_shiftLeft_eq_ofNat (n : Nat) : 1#8 <<< n = BitVec.ofNat 8 (2 ^ n) :=
  congrArg (BitVec.ofNat 8) (Nat.one_shiftLeft n)

theorem res8_eq (b : BitVec 3) (v : Byte) : res8 b v = v &&& ~~~BitVec.ofNat 8 (2 ^ b.toNat) := by
  rw [res8, one_shiftLeft_eq_ofNat]

theorem set8_eq (b : BitVec 3) (v : Byte) : set8 b v = v ||| BitVec.ofNat 8 (2 ^ b.toNat) := by
  rw [set8, one_shiftLeft_eq_ofNat]

/-- Settles O41: the encodings; BIT on its operand read, or refused at `(HL)`; RES and SET as the shared read, modify and write
with the flags kept. -/
theorem singleBits : Obligations.SingleBits :=
  ⟨fun b o => spells_encode (.bitB b o) rfl, fun b o => spells_encode (.resB b o) rfl, fun b o => spells_encode (.setB b o) rfl,
    answers_bitB_reg, fun s b => ⟨answers_bitB_atHl s b, fun _ => exec_bitB_atHl_fatal b⟩,
    fun b => cbForms_of (op := fun v f => (res8 b v, f)) (fun _ _ => rfl) fun v f => congrArg (·, f) (res8_eq b v),
    fun b => cbForms_of (op := fun v f => (set8 b v, f)) (fun _ _ => rfl) fun v f => congrArg (·, f) (set8_eq b v)⟩

end Sys2Proof.Machine

/-! SUPPORT. Control transfer (47_control.md R350 to R361): the forms that write nothing but PC, the calls as pushes and the
returns as pops, and a RET after its CALL. -/

namespace Sys2Proof.Machine

/-! ## Forms that write only PC -/

/-- A form that leaves `pc` in PC and touches nothing else. -/
theorem answers_of_setPc {i : Instr} {s : State} {pc n : Word} {m : Nat} (h : exec i s = ((s.advance n).setPc pc).done m) :
    ∃ t, Answers i s s t { s.retires n m with pc := pc } :=
  ⟨_, answers_of_withRegs (u := s) (g := { s.regs with pc := pc }) h (fun _ _ => rfl) rfl rfl rfl (.self _ _)⟩

/-- A form that goes on at the next instruction and touches nothing else. -/
theorem answers_of_advance {i : Instr} {s : State} {n : Word} {m : Nat} (h : exec i s = (s.advance n).done m) :
    ∃ t, Answers i s s t (s.retires n m) :=
  ⟨_, answers_of_withRegs (u := s) (g := (s.advance n).regs) h (fun _ _ => rfl) rfl rfl rfl (.self _ _)⟩

/-- The condition is evaluated on the flags (47_control.md R350). -/
theorem condHolds_iff (f : Flags) :
    (condHolds .nz f = true ↔ f.z = false) ∧ (condHolds .z f = true ↔ f.z = true) ∧
    (condHolds .nc f = true ↔ f.c = false) ∧ (condHolds .c f = true ↔ f.c = true) := by
  simp [condHolds]

/-- Settles O42: the conditions by their flags, the encodings, and each jump by the PC it leaves. -/
theorem jumps : Obligations.Jumps := by
  refine ⟨condHolds_iff, rfl, rfl, rfl, rfl, fun _ _ => spells_of_length3 rfl rfl rfl, ?jpCcNnBytes, spells_encode .jpHl rfl,
    fun e => spells_encode (.jrE e) rfl, fun cc e => spells_encode (.jrCcE cc e) rfl,
    ?jpNn, ?jpCcNn, ?jpHl, ?jrE, ?jrCcE⟩
  case jpCcNnBytes => intro cc _ _; cases cc <;> exact spells_of_length3 rfl rfl rfl
  case jpNn | jrE => exact fun _ _ => answers_of_setPc rfl
  case jpHl => exact fun _ => answers_of_setPc rfl
  case jpCcNn | jrCcE =>
    exact fun _ _ _ =>
      ⟨fun hc => answers_of_setPc (if_pos hc), fun hc => answers_of_advance (if_neg (ne_true_of_eq_false hc))⟩

/-! ## Calls -/

theorem rstTarget_eq (t : BitVec 3) : rstTarget t = BitVec.ofNat 16 (t.toNat * 8) := by
  revert t; decide

/-- A form that calls `target` pushes the address of the next instruction and leaves `target` in PC (47_control.md R356). -/
theorem pushForm_of_callTo {i : Instr} {s : State} {target n : Word} {m : Nat}
    (h : exec i s = ((s.advance n).callTo target).done m) : PushForm i s (s.regs.pc + n) target n m :=
  pushForm_of (k := fun _ t => .ok () (t.setPc target)) h fun _ _ => rfl

/-- Settles O43: the encodings, then each call as `callTo` its target; one not taken only goes on. -/
theorem calls : Obligations.Calls := by
  refine ⟨fun _ _ => spells_of_length3 rfl rfl rfl, ?callCcNnBytes, fun t => spells_encode (.rst t) rfl,
    ?callNn, ?callCcNn, ?rst⟩
  case callCcNnBytes => intro cc _ _; cases cc <;> exact spells_of_length3 rfl rfl rfl
  case callNn => exact fun _ _ => pushForm_of_callTo rfl
  case callCcNn =>
    exact fun _ _ _ =>
      ⟨fun hc => pushForm_of_callTo (if_pos hc), fun hc => answers_of_advance (if_neg (ne_true_of_eq_false hc))⟩
  case rst => exact fun _ t => rstTarget_eq t ▸ pushForm_of_callTo rfl

/-! ## Returns -/

theorem Res.bind_assoc {α β γ : Type} (r : Res α) (k : α → State → Res β) (l : β → State → Res γ) :
    (r.bind k).bind l = r.bind fun v t => (k v t).bind l := by
  cases r <;> rfl

/-- A form that pops PC and then does `fin` to the state, which leaves the register file and the bytes alone. -/
theorem popForm_of_popPc {i : Instr} {s : State} {m : Nat} {fin : State → State}
    (h : exec i s = ((s.advance 1).pop16.bind fun v t => .ok () (fin (t.setPc v))).done m)
    (hregs : ∀ (t : State) (g : Regs), fin (t.withRegs g) = (fin t).withRegs g) (hbytes : ∀ t, BytesKept t (fin t) []) :
    PopForm i s 1 fun v u => ∃ t, Answers i s (fin u) t { s.retires 1 m with sp := s.regs.sp + 2, pc := v } :=
  popForm_of h fun v u hu hb hpop => by
    let g : Regs := { s.regs with sp := s.regs.sp + 2, pc := v }
    have hnext : exec i s = .next (((fin u).withRegs g).setElapsed m) := by
      rw [hpop, Res.done_ok, ← hregs u g]
      simp only [State.setPc_eq, State.setSp_eq, State.withRegs_withRegs, State.withRegs_regs, hu, g]
    exact ⟨_, answers_of_withRegs hnext (fun _ _ => rfl) rfl rfl rfl (hb.trans (hbytes u))⟩

/-- RET and RET cc taken: a pop of PC and nothing more (47_control.md R358, R359). -/
theorem popForm_of_return {i : Instr} {s : State} {m : Nat} (h : exec i s = (s.advance 1).popPc.done m) :
    PopForm i s 1 fun v u => ∃ t, Answers i s u t { s.retires 1 m with sp := s.regs.sp + 2, pc := v } :=
  popForm_of_popPc (fin := id) h (fun _ _ => rfl) fun t => .self t []

/-- RETI pops PC before it touches IME and IME_PENDING, so a refused pop leaves both (47_control.md R360). -/
theorem exec_reti (s : State) : exec .reti s = ((s.advance 1).pop16.bind fun v t =>
    .ok () { t.setPc v with ime := true, imePending := false }).done 4 :=
  congrArg (Res.done · 4) (Res.bind_assoc _ _ _)

/-- The control bits are not on the bus. -/
theorem BytesKept.controlBits (s : State) (ime imePending : Bool) :
    BytesKept s { s with ime := ime, imePending := imePending } [] :=
  ⟨fun b _ _ => State.peek_congr _ _ b rfl rfl rfl rfl rfl, rfl, fun _ => rfl⟩

/-- Settles O44: each is a pop of PC; RETI then sets the two control bits, and a RET cc not taken only goes on. -/
theorem returns : Obligations.Returns := by
  refine ⟨spells_encode .ret rfl, fun cc => spells_encode (.retCc cc) rfl, spells_encode .reti rfl, ?ret, ?retCc, ?reti⟩
  case ret => exact fun _ => popForm_of_return rfl
  case retCc =>
    exact fun _ _ =>
      ⟨fun hc => popForm_of_return (if_pos hc), fun hc => answers_of_advance (if_neg (ne_true_of_eq_false hc))⟩
  case reti =>
    exact fun s => popForm_of_popPc (fin := fun t => { t with ime := true, imePending := false }) (exec_reti s)
      (fun _ _ => rfl) fun t => .controlBits t true false

/-! ## A RET after its CALL -/

/-- A CALL with its stack in the arrays stores the address of the next instruction there and goes to the target
(47_control.md R356). -/
theorem exec_callNn_array (s : State) (nn : Word) (ha : IsArray (s.regs.sp - 1)) (hb : IsArray (s.regs.sp - 2)) :
    exec (.callNn nn) s = .next ((((s.advance 3).afterPush (s.regs.pc + 3)).setPc nn).setElapsed 6) :=
  congrArg (fun r : Res Unit => (r.bind fun _ t => .ok () (t.setPc nn)).done 6) ((s.advance 3).push16_array _ ha hb)

/-- A RET goes to the word its stack shows, with SP two higher (47_control.md R358). -/
theorem exec_ret_of_peek {s : State} {lo hi : Byte} (h : s.peek s.regs.sp = some lo)
    (h' : s.peek (s.regs.sp + 1) = some hi) :
    exec .ret s = .next ((((s.advance 1).setSp (s.regs.sp + 2)).setPc (wordOf hi lo)).setElapsed 4) := by
  rw [← State.peek_withRegs s (s.advance 1).regs] at h h'
  exact congrArg (fun r : Res Word => (r.bind fun v t => .ok () (t.setPc v)).done 4) (State.pop16_of_peek h h')

/-- Settles O45: the CALL leaves the two bytes of the next address at `sp - 1` and `sp - 2`, and the RET puts them together
again. -/
theorem returnUndoesCall : Obligations.ReturnUndoesCall := by
  intro s t u v nn ha hb hcall husp hhigh hlow hret
  have hnext : s.regs.sp - 2 + 1 = s.regs.sp - 1 := by bv_omega
  have hback : s.regs.sp - 2 + 2 = s.regs.sp := by bv_omega
  rw [exec_callNn_array s nn ha hb] at hcall
  cases hcall
  replace husp : u.regs.sp = s.regs.sp - 2 := husp
  have hlo : u.peek u.regs.sp = some (loByte (s.regs.pc + 3)) := by
    rw [husp, hlow, State.peek_setElapsed, State.setPc_eq, State.peek_withRegs]
    exact (s.advance 3).peek_afterPush_low _ hb
  have hhi : u.peek (u.regs.sp + 1) = some (hiByte (s.regs.pc + 3)) := by
    rw [husp, hnext, hhigh, State.peek_setElapsed, State.setPc_eq, State.peek_withRegs]
    exact (s.advance 3).peek_afterPush_high _ ha
  rw [exec_ret_of_peek hlo hhi, wordOf_hi_lo, husp, hback] at hret
  cases hret
  exact ⟨rfl, rfl, rfl⟩

end Sys2Proof.Machine

/-! SUPPORT. Control of the CPU (48_misc.md R370 to R374, 40_engine.md R197, R199): the forms that write nothing but PC and a
control bit, the commit of the delayed enable, the halted step and the wake, and STOP. -/

namespace Sys2Proof.Machine

/-! ## Forms that write a control bit -/

/-- A form of one byte and one M-cycle that only writes control bits. -/
theorem answers_of_control {i : Instr} {s : State} {ime imePending halted : Bool}
    (h : exec i s = State.done { s.advance 1 with ime := ime, imePending := imePending, halted := halted } 1) :
    ∃ t, Answers i s { s with ime := ime, imePending := imePending, halted := halted } t (s.retires 1 1) :=
  ⟨_, answers_of_withRegs (g := (s.advance 1).regs) h (fun _ _ => rfl) rfl rfl rfl
    ⟨fun b _ _ => State.peek_congr _ _ b rfl rfl rfl rfl rfl, rfl, fun _ => rfl⟩⟩

/-! ## The end of a step on the control bits -/

@[simp] theorem State.iterate_ime (s : State) : s.iterate.ime = s.ime := by rw [s.iterate_state]
@[simp] theorem State.iterate_imePending (s : State) : s.iterate.imePending = s.imePending := by rw [s.iterate_state]

theorem State.commitIme_enables {s : State} (h : s.imePending = true) :
    s.commitIme true = { s with ime := true, imePending := false } :=
  if_pos h

theorem State.commitIme_idle {s : State} {armed : Bool} (h : armed = false ∨ s.imePending = false) :
    s.commitIme armed = s := by
  refine if_neg ?_
  rcases h with h | h <;> simp [h]

/-- The end of a step that was not armed is the iteration of the loop alone. -/
theorem State.endStep_unarmed {s : State} (h : s.fatal = none) : s.endStep false = s.iterate := by
  rw [s.endStep_live false h, State.commitIme_idle (.inl rfl)]

/-- A CPU that is awake and dispatches nothing runs the instruction at PC. -/
theorem step_runNext_awake {s : State} (hf : s.fatal = none) (hh : s.halted = false)
    (hd : s.ime = false ∨ s.pending = false) : step s = s.runNext := by
  rw [step_runNext hf (by simp [hh]) hd, ← hh]

/-- Settles O46: the three forms by the control bits they write, and the commit at the end of a step armed or not. -/
theorem nopDiEi : Obligations.NopDiEi := by
  refine ⟨spells_encode .nop rfl, spells_encode .di rfl, spells_encode .ei rfl, fun _ => answers_of_advance rfl,
    fun _ => answers_of_control rfl, fun _ => answers_of_control rfl, ?commit⟩
  case commit =>
    intro s t u i hf hh hd hfetch hx hu
    have hstep : step s = .next (u.commitIme s.imePending).iterate := by
      rw [step_runNext_awake hf hh hd, State.runNext_of_fetch_ok hfetch hx, State.endStep_live _ _ hu]
    refine ⟨_, hstep, fun harmed hpend => ?enabled, fun hidle => ?idle⟩
    case enabled =>
      rw [State.iterate_ime, State.iterate_imePending, harmed, State.commitIme_enables hpend]
      exact ⟨rfl, rfl⟩
    case idle =>
      rw [State.iterate_ime, State.iterate_imePending, State.commitIme_idle hidle]
      exact ⟨rfl, rfl⟩

/-! ## HALT and the wake -/

theorem State.pending_iff (s : State) : s.pending = true ↔ s.ie &&& s.ifl ≠ 0 := bne_iff_ne

theorem State.pending_eq_false_iff (s : State) : s.pending = false ↔ s.ie &&& s.ifl = 0 := bne_eq_false_iff_eq

/-- HALT halts unless IME is clear and a request is pending (48_misc.md R371). -/
theorem exec_halt_halts {s : State} (h : s.ime = true ∨ s.pending = false) :
    exec .halt s = State.done { s.advance 1 with halted := true } 1 := by
  have hgo : ¬ ((s.advance 1).ime = false ∧ (s.advance 1).pending = true) := by
    rintro ⟨hi, hp⟩
    rw [State.advance_ime] at hi
    replace hp : s.pending = true := hp
    simp [hi, hp] at h
  exact if_neg hgo

theorem exec_halt_refuses {s : State} (hi : s.ime = false) (hp : s.pending = true) :
    exec .halt s = .next ((s.advance 1).raise (.haltBug s.regs.pc)) :=
  if_pos ⟨hi, hp⟩

/-- A halted step with nothing pending changes nothing, returns 1, and the loop goes on (40_engine.md R199). -/
theorem step_halted_idle {s : State} (hf : s.fatal = none) (hh : s.halted = true) (hp : s.pending = false) :
    step s = .next (s.setElapsed 1).iterate := by
  rw [step_live hf, State.liveStep, if_pos ⟨hh, hp⟩, State.haltedStep,
    State.endStep_unarmed (s := s.setElapsed 1) hf]

/-- With a request pending a CPU goes on awake, whether it was halted or not (40_engine.md R199). -/
theorem step_pending {s : State} (hf : s.fatal = none) (hp : s.pending = true) :
    step s = State.awakeStep { s with halted := false } := by
  rw [step_live hf, State.liveStep, if_neg (by simp [hp])]

/-- Settles O47: HALT by its test of IME and the pending requests, and the step of a halted CPU by the pending requests. -/
theorem haltAndWake : Obligations.HaltAndWake := by
  refine ⟨spells_encode .halt rfl, fun s h => ?halts, fun s hi hp => ?refuses, fun s hf hh hp => ?idle,
    fun s hf _ hp => ?wakes⟩
  case halts => exact answers_of_control (exec_halt_halts (h.imp_right s.pending_eq_false_iff.2))
  case refuses => exact exec_halt_refuses hi (s.pending_iff.2 hp)
  case idle => exact step_halted_idle hf hh (s.pending_eq_false_iff.2 hp)
  case wakes =>
    have hp' : s.pending = true := s.pending_iff.2 hp
    rw [step_pending hf hp', step_pending (s := { s with halted := false }) hf hp']

/-! ## STOP -/

theorem State.holds_cons {s : State} {a : Word} {b : Byte} {bs : List Byte} (hb : s.peek a = some b)
    (hbs : s.Holds (a + 1) bs) : s.Holds a (b :: bs) := by
  rintro (_ | k) v hk
  · cases hk
    rwa [BitVec.add_zero]
  · have hnext : a + BitVec.ofNat 16 (k + 1) = a + 1 + BitVec.ofNat 16 k := by
      rw [BitVec.add_assoc, BitVec.add_comm 1, BitVec.ofNat_add]
      rfl
    rw [hnext]
    exact hbs k v hk

/-- Both bytes of STOP are fetched before it raises (48_misc.md R372). -/
theorem State.fetch_stop {s : State} {x : Byte} (hrows : s.unimplemented = []) (ho : s.peek s.regs.pc = some 0x10)
    (hx : s.peek (s.regs.pc + 1) = some x) : s.fetch = .ok (.stop x) s :=
  State.fetch_of_decode (decodeEncode (.stop x) [] rfl) (hrows ▸ List.not_mem_nil) (fun _ => hrows ▸ List.not_mem_nil)
    (State.holds_cons ho (State.holds_singleton hx))

/-- Settles O48: the meaning always raises; a step fetches both bytes, and a forbidden second one raises in the fetch. -/
theorem stopRefuses : Obligations.StopRefuses := by
  refine ⟨fun x => spells_encode (.stop x) rfl, fun _ _ => rfl, fun s hf hh hd hrows ho => ?_⟩
  have hd' : s.ime = false ∨ s.pending = false := hd.imp_right s.pending_eq_false_iff.2
  have hrun : step s = s.runNext := step_runNext_awake hf hh hd'
  refine ⟨fun ⟨x, hx⟩ => ?both, fun hz => ?forbidden⟩
  case both =>
    rw [hrun, State.runNext_of_fetch_ok (State.fetch_stop hrows ho hx) rfl, State.endStep_fatal _ _ _ rfl]
    rfl
  case forbidden =>
    obtain ⟨-, -, hsecond, -⟩ := (decodeFatals s hf hh hd').2 0x10 ho
    exact hsecond (by decide) (by decide) (hrows ▸ List.not_mem_nil) (by decide) hz

end Sys2Proof.Machine

/-! SUPPORT. The escape byte (48_misc.md R375, 30_encoding.md R166): a CB row is BIT or writes its operand back, and what either
answers on a register and on `(HL)` in the plain arrays. -/

namespace Sys2Proof.Machine

/-- The CB row of `c` is BIT where the quadrant is 01, and else a form that writes its operand back (30_encoding.md R166). -/
theorem decodeCb_cases (c : Byte) :
    (fieldX c = 0b01 ∧ decodeCb c = .bitB (fieldY c) (opnd8Of (fieldZ c))) ∨
    (fieldX c ≠ 0b01 ∧ ∃ op : Byte → Flags → Byte × Flags, ∀ s, exec (decodeCb c) s = cbModify op (opnd8Of (fieldZ c)) s) := by
  by_cases hx : fieldX c = 0b01#2
  · exact .inl ⟨hx, if_pos hx⟩
  · refine .inr ⟨hx, ?_⟩
    simp only [decodeCb, if_neg hx]
    split_ifs <;> exact ⟨_, fun _ => rfl⟩

/-- The constructor of the row PREFIX_CB has the meaning of the CB row (48_misc.md R375; log 11). -/
theorem exec_prefixCb (s : State) (c : Byte) : exec (.prefixCb c) s = exec (decodeCb c) s := by
  simp only [decodeCb, apply_ite (exec · s)]
  rfl

theorem Answers.of_exec_eq {i j : Instr} {s u t : State} {e : Effect} (h : exec i s = exec j s) (ha : Answers j s u t e) :
    Answers i s u t e :=
  ⟨h.trans ha.1, ha.2⟩

/-- More registers may be named as changed, and more addresses as stored to, than an instruction changes. -/
theorem Answers.weaken {i : Instr} {s u t : State} {e : Effect} (regs : List R8) (stored : List Word) (he : e.regs = [])
    (hs : e.stored = []) (ha : Answers i s u t e) : Answers i s u t { e with regs := regs, stored := stored } := by
  obtain ⟨hx, hregs, hf, hsp, hpc, hm, honly, hkept⟩ := ha
  rw [he] at hregs
  rw [hs] at hkept
  exact Answers.mk hx (fun r _ => hregs r List.not_mem_nil) hf hsp hpc hm honly (hkept.trans (.self t stored))

theorem BytesKept.storeMem (s : State) (a : Word) (v : Byte) : BytesKept s (s.storeMem a v) [a] :=
  ⟨fun b hb _ => s.peek_storeMem_other a b v (List.ne_of_not_mem_cons hb), rfl, fun _ => rfl⟩

/-- A form that writes back at `(HL)` in the plain arrays stores one byte and completes. -/
theorem answers_cbModify_array {i : Instr} {s : State} {op : Byte → Flags → Byte × Flags}
    (h : exec i s = cbModify op .atHl s) (ha : IsArray s.hl) :
    ∃ v t f, Answers i s (s.storeMem s.hl v) t { s.retires 2 4 with f := f, stored := [s.hl] } := by
  let r := op (memRead s.mem s.hl.toNat) s.regs.f
  have hx : exec i s =
      .next (((s.storeMem s.hl r.1).withRegs { (s.advance 2).regs with f := r.2 }).setElapsed 4) := by
    rw [h, cbModify, modify_atHl_ok (s.busRead_array _ _ ha) (s.busWrite_array _ _ ha)]
    rfl
  exact ⟨r.1, _, r.2, answers_of_withRegs hx (fun _ _ => rfl) rfl rfl rfl (.storeMem s _ _)⟩

/-- Settles O49: the CB map is total, the constructor's meaning is the row's, and the row completes on a register and on
`(HL)` in the plain arrays, as BIT or as a form that writes back. -/
theorem prefixPair : Obligations.PrefixPair := by
  refine ⟨spells_cb, exec_prefixCb, fun s c r hr => ?reg, fun s c ho ha => ?atHl⟩
  case reg =>
    rcases decodeCb_cases c with ⟨-, hbit⟩ | ⟨-, op, hop⟩
    · obtain ⟨t, ht⟩ := answers_bitB_reg s (fieldY c) r
      rw [← hr, ← hbit] at ht
      exact ⟨t, _, (ht.weaken [r] [] rfl rfl).of_exec_eq (exec_prefixCb s c)⟩
    · have hx : exec (.prefixCb c) s = ((s.advance 2).modify op (.reg r)).done 2 := by
        rw [exec_prefixCb, hop, hr]
        rfl
      obtain ⟨t, ht, -⟩ : ModifyReg (.prefixCb c) s r op 2 2 := modifyReg_of hx fun _ _ => rfl
      exact ⟨t, _, ht⟩
  case atHl =>
    rcases decodeCb_cases c with ⟨hx, hbit⟩ | ⟨hx, op, hop⟩
    · rw [if_pos hx]
      have hread : s.read8 s.hl = .ok (memRead s.mem s.hl.toNat) s := s.busRead_array _ _ ha
      obtain ⟨v, u, t, hu, ht⟩ := answers_bitB_atHl s (fieldY c) (State.readable_of_read8 hread)
      obtain ⟨-, rfl⟩ := Res.ok.inj (hread.symm.trans hu)
      rw [← ho, ← hbit] at ht
      exact ⟨s, t, _, (ht.weaken [] [s.hl] rfl rfl).of_exec_eq (exec_prefixCb s c), rfl⟩
    · rw [if_neg hx]
      obtain ⟨v, t, f, ht⟩ := answers_cbModify_array ((exec_prefixCb s c).trans (ho ▸ hop s)) ha
      exact ⟨_, t, f, ht, rfl⟩

end Sys2Proof.Machine

/-! SUPPORT. The ways a step ends: raised, with nothing advanced, or with a count and an iteration of the loop (40_engine.md
R190, R195, R198, R205, 60_exceptions.md R400). -/

namespace Sys2Proof.Machine

@[simp] theorem State.iterate_fatal (s : State) : s.iterate.fatal = s.fatal := by rw [s.iterate_state]
@[simp] theorem State.iterate_elapsed (s : State) : s.iterate.elapsed = s.elapsed := by rw [s.iterate_state]

@[simp] theorem State.commitIme_fatal (s : State) (b : Bool) : (s.commitIme b).fatal = s.fatal := by
  rw [s.commitIme_state b]
@[simp] theorem State.commitIme_elapsed (s : State) (b : Bool) : (s.commitIme b).elapsed = s.elapsed := by
  rw [s.commitIme_state b]
@[simp] theorem State.commitIme_timer (s : State) (b : Bool) : (s.commitIme b).timer = s.timer := by
  rw [s.commitIme_state b]
@[simp] theorem State.commitIme_agents (s : State) (b : Bool) : (s.commitIme b).agents = s.agents := by
  rw [s.commitIme_state b]

/-- The end of a step never changes FATAL or the count. -/
@[simp] theorem State.endStep_fatal_eq (s : State) (b : Bool) : (s.endStep b).fatal = s.fatal := by
  rcases s.endStep_cases b with he | he <;> rw [he]
  simp

@[simp] theorem State.endStep_elapsed (s : State) (b : Bool) : (s.endStep b).elapsed = s.elapsed := by
  rcases s.endStep_cases b with he | he <;> rw [he]
  simp

/-- What the CPU's part of a step never touches (40_engine.md R205). -/
theorem CpuOutcome.kept {s u : State} (h : CpuOutcome s u) : u.agents = s.agents ∧ u.tickEnded = s.tickEnded := by
  obtain ⟨q, hmoves, -⟩ := h
  obtain ⟨-, -, -, hagents, hended⟩ := hmoves.kept
  exact ⟨hagents, hended⟩

theorem CpuOutcome.div {s u : State} (h : CpuOutcome s u) : u.timer.div = s.timer.div ∨ u.timer.div = 0 := by
  obtain ⟨q, hmoves, -⟩ := h
  exact hmoves.div

/-- From a state with no fatal the CPU returns a count exactly where it raises nothing. -/
theorem CpuOutcome.count {s u : State} (h : CpuOutcome s u) (hf : s.fatal = none) :
    (u.fatal = none ∧ ∃ m, u.elapsed = some m ∧ 1 ≤ m ∧ m ≤ 6) ∨ ((∃ f, u.fatal = some f) ∧ u.elapsed = none) := by
  obtain ⟨q, -, ⟨hu, hm⟩ | hraised⟩ := h
  · exact .inl ⟨hu.trans hf, hm⟩
  · exact .inr hraised

theorem step_terminal {s : State} {f : FatalRecord} (h : s.fatal = some f) : step s = .fault (.terminal f) := by
  unfold step
  rw [h]

/-- Settles O52: the two ways the CPU's part of a step comes out, and the end of the step, which is idle after a raise. -/
theorem fatalIsTerminal : Obligations.FatalIsTerminal := by
  refine ⟨fun s f => step_terminal, fun s t f h ht => ?raised, fun s t h ht => ?counted⟩
  case raised =>
    obtain ⟨hf, u, b, hu, rfl⟩ := step_cases h
    have hterminal := step_terminal ht
    rw [State.endStep_fatal_eq] at ht
    rcases hu.count hf with ⟨hnone, -⟩ | ⟨-, hm⟩
    · cases hnone.symm.trans ht
    · rw [u.endStep_fatal b f ht] at hterminal ⊢
      exact ⟨hf, hm, hu.kept.1, hu.kept.2, hu.div, hterminal⟩
  case counted =>
    obtain ⟨hf, u, b, hu, rfl⟩ := step_cases h
    rw [State.endStep_fatal_eq] at ht
    rw [State.endStep_elapsed]
    rcases hu.count hf with ⟨-, hm⟩ | ⟨⟨f, hraised⟩, -⟩
    · exact hm
    · cases ht.symm.trans hraised

end Sys2Proof.Machine

/-! SUPPORT. Interrupts: the requested source as the least pending bit, and the dispatch that takes it, its push accepted or
refused (60_exceptions.md R410 to R422). -/

namespace Sys2Proof.Machine

/-! ## The requested source -/

/-- The requested source is the one whose bit is set with no lower bit set (60_exceptions.md R415). -/
theorem State.requested_least {s : State} {i : Source} (h : s.requested = some i) :
    s.pendingBits.getLsbD i.bit = true ∧ ∀ j, j < i.bit → s.pendingBits.getLsbD j = false := by
  unfold State.requested at h
  -- The branch of each source holds its own bit's test and the failed tests of the lower bits.
  split_ifs at h <;> cases h
  all_goals
    refine ⟨‹_›, fun j hj => ?_⟩
    simp only [Source.bit] at hj
    interval_cases j <;> exact Bool.eq_false_of_not_eq_true ‹_›

theorem State.pending_of_requested {s : State} {i : Source} (h : s.requested = some i) : s.pending = true := by
  by_contra hp
  rw [s.requested_of_not_pending (Bool.eq_false_of_not_eq_true hp)] at h
  cases h

theorem State.requested_eq_none_iff (s : State) : s.requested = none ↔ s.pending = false := by
  refine ⟨fun h => Bool.eq_false_of_not_eq_true fun hp => ?_, s.requested_of_not_pending⟩
  obtain ⟨i, hi⟩ := s.requested_of_pending hp
  cases h.symm.trans hi

/-- Settles O53: pending is `IE & IF` being nonzero, and the source requested is the least bit of it. -/
theorem leastPending : Obligations.LeastPending :=
  ⟨State.pending_iff, fun s => s.requested_eq_none_iff.trans s.pending_eq_false_iff, fun _ _ h => State.requested_least h,
    rfl, rfl, rfl, rfl, rfl⟩

/-! ## The dispatch -/

theorem Source.vector_eq (i : Source) : i.vector = BitVec.ofNat 16 (0x0040 + 8 * i.bit) := by cases i <;> rfl

/-- The state a dispatch pushes PC from: the request acknowledged, IME and IME_PENDING cleared (60_exceptions.md R420). -/
def State.acknowledged (s : State) (i : Source) : State :=
  { s with ime := false, imePending := false, ifl := s.ifl &&& ~~~(1#5 <<< i.bit) }

section Push
variable {s u u1 u2 : State} {i : Source}

theorem State.takeInterrupt_ok (h1 : (s.acknowledged i).write8 (s.regs.sp - 1) (hiByte s.regs.pc) = .ok () u1)
    (h2 : u1.write8 (s.regs.sp - 2) (loByte s.regs.pc) = .ok () u2) :
    s.takeInterrupt i = ((u2.setSp (s.regs.sp - 2)).setPc i.vector).setElapsed 5 :=
  congrArg (fun r : Res Unit => (r.bind fun _ t => .ok () (t.setPc i.vector)).settle 5)
    (push16_ok (s := s.acknowledged i) h1 h2)

theorem State.takeInterrupt_refused1 (h : (s.acknowledged i).write8 (s.regs.sp - 1) (hiByte s.regs.pc) = .fatal u) :
    s.takeInterrupt i = u.setSp (s.regs.sp - 1) :=
  congrArg (fun r : Res Unit => (r.bind fun _ t => .ok () (t.setPc i.vector)).settle 5)
    (push16_fatal1 (s := s.acknowledged i) h)

theorem State.takeInterrupt_refused2 (h1 : (s.acknowledged i).write8 (s.regs.sp - 1) (hiByte s.regs.pc) = .ok () u1)
    (h2 : u1.write8 (s.regs.sp - 2) (loByte s.regs.pc) = .fatal u2) :
    s.takeInterrupt i = u2.setSp (s.regs.sp - 2) :=
  congrArg (fun r : Res Unit => (r.bind fun _ t => .ok () (t.setPc i.vector)).settle 5)
    (push16_fatal2 (s := s.acknowledged i) h1 h2)

end Push

theorem State.write8_ok_fatal {s u : State} {a : Word} {v : Byte} (h : s.write8 a v = .ok () u) : u.fatal = s.fatal :=
  (s.busWrite_ok u a v h).1

theorem State.write8_fatal_raises {s u : State} {a : Word} {v : Byte} (h : s.write8 a v = .fatal u) :
    ∃ f, u.fatal = some f := by
  have hs := s.busWrite_sound a v
  rw [show s.busWrite a v = .fatal u from h] at hs
  exact hs.2.1

/-- With IME set and a source requested a step is its dispatch and the end of the step (60_exceptions.md R417, R420). -/
theorem step_takes {s : State} {i : Source} (hf : s.fatal = none) (hi : s.ime = true) (hr : s.requested = some i) :
    step s = .next ((State.takeInterrupt { s with halted := false } i).endStep false) := by
  rw [step_pending hf (State.pending_of_requested hr)]
  exact State.awakeStep_dispatch (s := { s with halted := false }) hi hr

/-- Settles O54: the dispatch by the outcomes of its two writes, and the next instruction where IME is clear. -/
theorem dispatch : Obligations.Dispatch := by
  intro s i hf hr s0 a b
  refine ⟨fun hi => ⟨fun u1 u2 h1 h2 => ?accepted, fun u h => ?refusedHigh, fun u1 u2 h1 h2 => ?refusedLow⟩,
    fun hi => step_runNext hf (fun _ => State.pending_of_requested hr) (.inl hi)⟩
  case accepted =>
    have hlive : (((u2.setSp b).setPc i.vector).setElapsed 5).fatal = none :=
      (State.write8_ok_fatal h2).trans ((State.write8_ok_fatal h1).trans hf)
    have hregs : u2.regs = s.regs := (State.write8_ok_regs h2).trans (State.write8_ok_regs (s := s0) h1)
    rw [step_takes hf hi hr, State.takeInterrupt_ok (s := { s with halted := false }) h1 h2]
    refine congrArg Host.Outcome.next ((State.endStep_unarmed hlive).trans (congrArg State.iterate ?_))
    rw [← Source.vector_eq, ← hregs]
    rfl
  case refusedHigh =>
    obtain ⟨f, hu⟩ := State.write8_fatal_raises h
    rw [step_takes hf hi hr, State.takeInterrupt_refused1 (s := { s with halted := false }) h]
    exact congrArg Host.Outcome.next ((u.setSp a).endStep_fatal false f hu)
  case refusedLow =>
    obtain ⟨f, hu⟩ := State.write8_fatal_raises h2
    rw [step_takes hf hi hr, State.takeInterrupt_refused2 (s := { s with halted := false }) h1 h2]
    exact congrArg Host.Outcome.next ((u2.setSp b).endStep_fatal false f hu)

end Sys2Proof.Machine

/-! SUPPORT. The timer: one tick by its edge, and the edges met in a number of ticks (60_exceptions.md R430 to R433). -/

namespace Sys2Proof.Machine

/-! ## One tick -/

/-- `SEL(TAC[1:0])` as the number of a bit (60_exceptions.md R431). -/
theorem Timer.selected_eq (t : Timer) :
    t.selected = if t.tac.toNat % 4 = 0 then 9 else if t.tac.toNat % 4 = 1 then 3
      else if t.tac.toNat % 4 = 2 then 5 else 7 := by
  have hall : ∀ c : BitVec 3, timerBit (c.setWidth 2) = if c.toNat % 4 = 0 then 9 else if c.toNat % 4 = 1 then 3
      else if c.toNat % 4 = 2 then 5 else 7 := by decide
  exact hall t.tac

theorem Timer.enabled_iff (t : Timer) : t.enabled = true ↔ 4 ≤ t.tac.toNat := by
  have hall : ∀ c : BitVec 3, c.getLsbD 2 = true ↔ 4 ≤ c.toNat := by decide
  exact hall t.tac

theorem Timer.edge_iff (t : Timer) :
    t.edge = true ↔ 4 ≤ t.tac.toNat ∧ t.div.getLsbD t.selected = true ∧ (t.div + 1).getLsbD t.selected = false := by
  rw [← t.enabled_iff]
  simp [Timer.edge, and_assoc]

theorem succ_eq_zero_iff (v : Byte) : (v + 1 == 0) = true ↔ v = 0xFF := by
  rw [beq_iff_eq]
  constructor <;> intro h <;> bv_omega

section Tick
variable {s : State}

/-- Without an edge a tick leaves TIMA and IF (60_exceptions.md R430). -/
theorem State.timerTick_no_edge (h : ¬ s.timer.edge = true) :
    s.timerTick.timer.tima = s.timer.tima ∧ s.timerTick.ifl = s.ifl := by
  simp [State.timerTick, Timer.tick, Timer.overflows, h]

/-- An edge counts TIMA up, below 0xFF without a request (60_exceptions.md R430). -/
theorem State.timerTick_edge (h : s.timer.edge = true) (hn : s.timer.tima ≠ 0xFF) :
    s.timerTick.timer.tima = s.timer.tima + 1 ∧ s.timerTick.ifl = s.ifl := by
  have hwrap : (s.timer.tima + 1 == 0) = false := Bool.eq_false_of_not_eq_true (mt (succ_eq_zero_iff _).1 hn)
  simp only [State.timerTick, Timer.tick, Timer.overflows, h, hwrap, Bool.and_false, ite_true, Bool.false_eq_true, ite_false,
    and_self]

/-- An edge at 0xFF reloads TIMA from TMA and requests the interrupt (60_exceptions.md R432). -/
theorem State.timerTick_overflow (h : s.timer.edge = true) (hn : s.timer.tima = 0xFF) :
    s.timerTick.timer.tima = s.timer.tma ∧ s.timerTick.ifl = s.ifl ||| Source.timer.mask := by
  have hwrap : (s.timer.tima + 1 == 0) = true := (succ_eq_zero_iff _).2 hn
  simp only [State.timerTick, Timer.tick, Timer.overflows, h, hwrap, Bool.and_true, ite_true, and_self]

end Tick

/-! ## A number of ticks -/

theorem State.timerTicks_add (m n : Nat) (s : State) :
    State.timerTicks (m + n) s = State.timerTicks n (State.timerTicks m s) := by
  induction m generalizing s with
  | zero => rw [Nat.zero_add]; rfl
  | succ m ih => rw [Nat.succ_add, State.timerTicks, ih]; rfl

theorem State.timerTicks_tac (n : Nat) (s : State) : (State.timerTicks n s).timer.tac = s.timer.tac := by
  induction n generalizing s with
  | zero => rfl
  | succ n ih => exact ih s.timerTick

/-- A disabled timer has no edge, so TIMA stays (60_exceptions.md R433). -/
theorem State.timerTicks_tima_disabled (n : Nat) {s : State} (h : s.timer.tac.getLsbD 2 = false) :
    (State.timerTicks n s).timer.tima = s.timer.tima := by
  induction n generalizing s with
  | zero => rfl
  | succ n ih =>
    have hedge : ¬ s.timer.edge = true := by
      simp only [Timer.edge, Timer.enabled, h, Bool.false_and, Bool.false_eq_true, not_false_eq_true]
    exact (ih (s := s.timerTick) h).trans (State.timerTick_no_edge hedge).1

/-! ## Sixteen ticks at TAC = 0b101 -/

/-- Bit 3 falls where the low four bits of the counter wrap. -/
theorem getLsbD_three_falls_iff (d : Word) :
    (d.getLsbD 3 = true ∧ (d + 1).getLsbD 3 = false) ↔ d.toNat % 16 = 15 := by
  simp only [BitVec.getLsbD, Nat.testBit_eq_decide_div_mod_eq, decide_eq_true_eq, decide_eq_false_iff_not, BitVec.toNat_add,
    BitVec.reduceToNat]
  omega

/-- At TAC = 0b101 the counter's edges are one in sixteen ticks (60_exceptions.md R431). -/
theorem Timer.edge_iff_of_tac {t : Timer} (h : t.tac = 0b101) : t.edge = true ↔ t.div.toNat % 16 = 15 := by
  have hsel : t.selected = 3 := by rw [t.selected_eq, h]; rfl
  rw [t.edge_iff, hsel, getLsbD_three_falls_iff, h]
  exact and_iff_right (by decide)

theorem State.timerTicks_div_mod (n : Nat) (s : State) :
    (State.timerTicks n s).timer.div.toNat % 16 = (s.timer.div.toNat + n) % 16 := by
  rw [State.timerTicks_div, BitVec.toNat_add, BitVec.toNat_ofNat]
  omega

/-- Ticks that stop short of the wrap of the low four bits leave TIMA. -/
theorem State.timerTicks_tima_short (n : Nat) {s : State} (h : s.timer.tac = 0b101) (hn : s.timer.div.toNat % 16 + n ≤ 15) :
    (State.timerTicks n s).timer.tima = s.timer.tima := by
  induction n generalizing s with
  | zero => rfl
  | succ n ih =>
    have hedge : ¬ s.timer.edge = true := by rw [Timer.edge_iff_of_tac h]; omega
    have hdiv := State.timerTicks_div_mod 1 s
    refine (ih (s := s.timerTick) h ?_).trans (State.timerTick_no_edge hedge).1
    change s.timerTick.timer.div.toNat % 16 = _ at hdiv
    omega

/-- Sixteen ticks are those before the one wrap of the low four bits, the tick that wraps them, and those after it. -/
theorem State.timerTicks_sixteen_tima {s : State} (h : s.timer.tac = 0b101) (hn : s.timer.tima ≠ 0xFF) :
    (State.timerTicks 16 s).timer.tima = s.timer.tima + 1 := by
  have hlt : s.timer.div.toNat % 16 < 16 := Nat.mod_lt _ (by decide)
  let before := 15 - s.timer.div.toNat % 16
  let after := s.timer.div.toNat % 16
  let u := State.timerTicks before s
  have hsplit : State.timerTicks 16 s = State.timerTicks after u.timerTick := by
    rw [show 16 = before + (1 + after) by omega, State.timerTicks_add, State.timerTicks_add]
    rfl
  have hu : u.timer.tima = s.timer.tima := State.timerTicks_tima_short before h (by omega)
  have htac : u.timer.tac = 0b101 := (State.timerTicks_tac before s).trans h
  have hdiv : u.timer.div.toNat % 16 = 15 := by rw [State.timerTicks_div_mod]; omega
  have hwrapped : u.timerTick.timer.div.toNat % 16 = 0 := (State.timerTicks_div_mod 1 u).trans (by omega)
  calc (State.timerTicks 16 s).timer.tima
      = u.timerTick.timer.tima := by
        rw [hsplit]
        exact State.timerTicks_tima_short after htac (by omega)
    _ = s.timer.tima + 1 := by
        rw [← hu] at hn ⊢
        exact (State.timerTick_edge ((Timer.edge_iff_of_tac htac).2 hdiv) hn).1

/-- Settles O55: a tick by its edge and the wrap of TIMA, sixteen ticks around their one edge, and the disabled timer. -/
theorem timerTick : Obligations.TimerTick := by
  refine ⟨fun s => ?tick, fun s h hn => ⟨State.timerTicks_sixteen_tima h hn, fun h0 => ?eight⟩,
    fun s n h => ⟨State.timerTicks_tima_disabled n h, State.timerTicks_div n s⟩⟩
  case tick =>
    intro n falls
    have hfalls : s.timer.edge = true ↔ falls := by rw [s.timer.edge_iff, s.timer.selected_eq]
    rw [← hfalls]
    exact ⟨rfl, rfl, rfl, State.timerTick_no_edge, State.timerTick_edge, State.timerTick_overflow, rfl⟩
  case eight => exact State.timerTicks_tima_short 8 h (by omega)

end Sys2Proof.Machine

/-! SUPPORT. The iteration of the master step loop: the agents' requests beside the timer's, the bytes it keeps, and the end of a
Tick; and a Tick as the shortest run that ends (40_engine.md R205, R208, R210, 60_exceptions.md R412, R442). -/

namespace Sys2Proof.Machine

/-! ## The requests of an iteration -/

/-- The bits of IF the agents set in an iteration, each within the mask of 60_exceptions.md R442. -/
def AgentTurn.requests (t : AgentTurn) : BitVec 5 :=
  (t.dmaIrq &&& agentIrqMask) ||| (t.audioIrq &&& agentIrqMask) ||| (t.videoIrq &&& agentIrqMask) |||
    (t.collabIrq &&& agentIrqMask)

/-- No agent requests the timer's interrupt (60_exceptions.md R442). -/
theorem AgentTurn.requests_timer (t : AgentTurn) : t.requests.getLsbD 2 = false := by
  have hmask : agentIrqMask.getLsbD 2 = false := rfl
  simp only [AgentTurn.requests, BitVec.getLsbD_or, BitVec.getLsbD_and, hmask, Bool.and_false, Bool.or_false]

/-- The ticks neither see nor clear bits of IF that were set before them. -/
theorem State.timerTicks_ifl_or (n : Nat) {s t : State} (m : BitVec 5) (ht : t.timer = s.timer) (hi : t.ifl = s.ifl ||| m) :
    (State.timerTicks n t).ifl = (State.timerTicks n s).ifl ||| m := by
  induction n generalizing s t with
  | zero => exact hi
  | succ n ih =>
    refine ih (s := s.timerTick) (t := t.timerTick) (congrArg Timer.tick ht) ?_
    simp only [State.timerTick, ht, hi]
    split_ifs
    · ac_rfl
    · rfl

/-- The ticks clear no bit of IF (60_exceptions.md R412). -/
theorem State.timerTicks_ifl_set (n : Nat) {s : State} {j : Nat} (h : s.ifl.getLsbD j = true) :
    (State.timerTicks n s).ifl.getLsbD j = true := by
  induction n generalizing s with
  | zero => exact h
  | succ n ih =>
    refine ih (s := s.timerTick) ?_
    simp only [State.timerTick]
    split_ifs
    · rw [BitVec.getLsbD_or, h, Bool.true_or]
    · exact h

/-- IF after an iteration is as the ticks leave it, with the agents' requests set. -/
theorem State.iterate_ifl (s : State) :
    s.iterate.ifl = (State.timerTicks s.tCycles s).ifl ||| s.agentTurn.requests := by
  let t := s.agentTurn
  have hticks := State.timerTicks_ifl_or s.tCycles (s := s) (t := s.dmaAdvance t) (t.dmaIrq &&& agentIrqMask) rfl rfl
  calc s.iterate.ifl
      = (State.timerTicks s.tCycles (s.dmaAdvance t)).ifl ||| (t.audioIrq &&& agentIrqMask) |||
          (t.videoIrq &&& agentIrqMask) ||| (t.collabIrq &&& agentIrqMask) := rfl
    _ = (State.timerTicks s.tCycles s).ifl ||| t.requests := by
        rw [hticks, AgentTurn.requests]
        ac_rfl

/-! ## The bytes of an iteration -/

theorem State.iterate_mem (s : State) : s.iterate.mem = oamWrites s.mem s.agentTurn.dmaOam := by rw [s.iterate_state]

@[simp] theorem State.iterate_cart (s : State) : s.iterate.cart = s.cart := by rw [s.iterate_state]
@[simp] theorem State.iterate_ie (s : State) : s.iterate.ie = s.ie := by rw [s.iterate_state]

/-- An iteration keeps every byte outside OAM and the I/O zone (60_exceptions.md R442). -/
theorem State.peek_iterate (s : State) {b : Word} (hoam : zoneOf b ≠ .oam) (hio : zoneOf b ≠ .io) :
    s.iterate.peek b = s.peek b := by
  have hmem : memRead s.iterate.mem b.toNat = memRead s.mem b.toNat := by
    rw [ne_eq, zoneOf_eq_oam] at hoam
    rw [s.iterate_mem, memRead_oamWrites_other _ _ _ (by omega)]
  unfold State.peek
  rw [hmem, s.iterate_cart, s.iterate_ie]
  cases hz : zoneOf b
  case io => exact absurd hz hio
  all_goals rfl

/-! ## The end of a Tick -/

theorem State.agentTurn_congr {s t : State} (h : t.agents = s.agents) : t.agentTurn = s.agentTurn := by
  unfold State.agentTurn
  rw [h]

/-- A step that raises nothing ends its Tick exactly where the video signals a frame in its iteration (40_engine.md R208). -/
theorem step_tickEnded {s t : State} (h : step s = .next t) (ht : t.fatal = none) : t.tickEnded = s.agentTurn.frameReady := by
  obtain ⟨-, u, b, hu, rfl⟩ := step_cases h
  rw [State.endStep_fatal_eq] at ht
  rw [u.endStep_live b ht, State.iterate_tickEnded,
    State.agentTurn_congr ((u.commitIme_agents b).trans hu.kept.1)]

/-- The Tick returns in this state: the frame was signalled, or a fatal raised (40_engine.md R208, R210). -/
def State.EndsTick (t : State) : Prop := t.tickEnded = true ∨ t.fatal.isSome = true

theorem State.not_endsTick_iff (t : State) : ¬ t.EndsTick ↔ t.tickEnded = false ∧ t.fatal = none := by
  simp [State.EndsTick]

/-- A run of at most `n` steps from `s` ends the Tick in `t`, and no shorter one ends it. -/
def FirstEnd (n : Nat) (s t : State) : Prop :=
  ∃ k, k < n ∧ core.run (k + 1) s = .next t ∧ t.EndsTick ∧
    ∀ j, j < k → ∃ u : State, core.run (j + 1) s = .next u ∧ u.tickEnded = false ∧ u.fatal = none

section FirstEnd
variable {n : Nat} {s t v : State}

theorem core_run_of_step (h : step s = .next v) (k : Nat) : core.run (k + 1) s = core.run k v := by
  rw [core_run_succ, h]

/-- A run that answers a next state begins with a step. -/
theorem FirstEnd.step (h : FirstEnd n s t) : ∃ u, step s = .next u := by
  obtain ⟨k, -, hrun, -⟩ := h
  rw [core_run_succ] at hrun
  cases hs : Machine.step s with
  | next u => exact ⟨u, rfl⟩
  | fault r => rw [hs] at hrun; cases hrun
  | refused r => rw [hs] at hrun; cases hrun

theorem firstEnd_iff_of_ends (h : step s = .next v) (hv : v.EndsTick) : FirstEnd (n + 1) s t ↔ v = t := by
  constructor
  · rintro ⟨k, -, hrun, -, hbefore⟩
    rcases k with _ | k
    · rw [core_run_of_step h] at hrun
      exact Host.Outcome.next.inj hrun
    · obtain ⟨u, hu, hlive⟩ := hbefore 0 k.succ_pos
      rw [core_run_of_step h] at hu
      cases hu
      exact absurd hv (v.not_endsTick_iff.2 hlive)
  · rintro rfl
    exact ⟨0, n.succ_pos, core_run_of_step h 0, hv, fun j hj => absurd hj j.not_lt_zero⟩

theorem firstEnd_iff_of_goes_on (h : step s = .next v) (hv : ¬ v.EndsTick) : FirstEnd (n + 1) s t ↔ FirstEnd n v t := by
  constructor
  · rintro ⟨k, hk, hrun, ht, hbefore⟩
    rw [core_run_of_step h] at hrun
    rcases k with _ | k
    · cases hrun
      exact absurd ht hv
    · refine ⟨k, by omega, hrun, ht, fun j hj => ?_⟩
      obtain ⟨u, hu, hlive⟩ := hbefore (j + 1) (by omega)
      rw [core_run_of_step h] at hu
      exact ⟨u, hu, hlive⟩
  · rintro ⟨k, hk, hrun, ht, hbefore⟩
    refine ⟨k + 1, by omega, (core_run_of_step h _).trans hrun, ht, fun j hj => ?_⟩
    rcases j with _ | j
    · exact ⟨v, core_run_of_step h 0, v.not_endsTick_iff.1 hv⟩
    · obtain ⟨u, hu, hlive⟩ := hbefore j (by omega)
      exact ⟨u, (core_run_of_step h _).trans hu, hlive⟩

end FirstEnd

/-- A bounded Tick is the shortest run that ends it (40_engine.md R210; log 9). -/
theorem tick_eq_iff_firstEnd (n : Nat) (s t : State) : tick n s = some (.next t) ↔ FirstEnd n s t := by
  induction n generalizing s with
  | zero => exact ⟨nofun, fun ⟨k, hk, _⟩ => absurd hk k.not_lt_zero⟩
  | succ n ih =>
    unfold tick
    cases hs : step s with
    | next v =>
      by_cases hv : v.EndsTick
      · rw [firstEnd_iff_of_ends hs hv]
        simp only [if_pos (show v.tickEnded = true ∨ v.fatal.isSome = true from hv), Option.some.injEq,
          Host.Outcome.next.injEq]
      · rw [firstEnd_iff_of_goes_on hs hv, ← ih]
        simp only [if_neg (show ¬ (v.tickEnded = true ∨ v.fatal.isSome = true) from hv)]
    | fault r => exact ⟨nofun, fun h => by obtain ⟨u, hu⟩ := h.step; cases hs.symm.trans hu⟩
    | refused r => exact ⟨nofun, fun h => by obtain ⟨u, hu⟩ := h.step; cases hs.symm.trans hu⟩

/-- Settles O56: the frame of an iteration with its requests beside the timer's, the step's end of its Tick, and a Tick as the
shortest run that ends. -/
theorem iterationAndTick : Obligations.IterationAndTick := by
  refine ⟨fun s => ⟨?frame, fun b => s.peek_iterate, s.iterate_timer, fun j hj => ?kept, ?timerBit⟩,
    fun s t h ht => ⟨fun ha => ?quiet, fun a rest ha => ?turn⟩, tick_eq_iff_firstEnd⟩
  case frame =>
    rw [s.iterate_mem, s.iterate_tickEnded]
    exact s.iterate_state
  case kept => rw [s.iterate_ifl, BitVec.getLsbD_or, State.timerTicks_ifl_set _ hj, Bool.true_or]
  case timerBit => rw [s.iterate_ifl, BitVec.getLsbD_or, AgentTurn.requests_timer, Bool.or_false]
  case quiet =>
    rw [step_tickEnded h ht, State.agentTurn, ha]
    rfl
  case turn => rw [step_tickEnded h ht, State.agentTurn, ha]

end Sys2Proof.Machine

/-! SUPPORT. The state after reset (70_reset_and_hazards.md R460 to R465): a fresh controller and what its windows read, and the
reset state as a constructed block. -/

namespace Sys2Proof.Machine

/-! ## A fresh controller -/

/-- The MBC1 registers after construction (70_reset_and_hazards.md R465). -/
def Mbc1.initial : Mbc1 where
  ramEn := false
  romb := 0
  bank2 := 0
  mode := 0

theorem controllerOf_initial {v : Byte} {c : Controller} (h : controllerOf v = some c) :
    c = .romOnly ∨ c = .mbc1 .initial := by
  unfold controllerOf at h
  split_ifs at h <;> cases h
  · exact .inl rfl
  · exact .inr rfl

/-- The low window of a fresh MBC1 reads bank 0 (70_reset_and_hazards.md R465). -/
theorem Mbc1.initial_lowOffset {n a : Nat} (h : a < n) : Mbc1.initial.lowOffset n a = a := by
  rw [Mbc1.lowOffset_eq]
  exact (congrArg (· % n) (Nat.zero_add a)).trans (Nat.mod_eq_of_lt h)

/-- The switchable window of a fresh MBC1 reads bank 1 (70_reset_and_hazards.md R465). -/
theorem Mbc1.initial_highOffset {n a : Nat} (h : 0x4000 ≤ a) (h' : a ≤ 0x7FFF) (hn : a < n) :
    Mbc1.initial.highOffset n a = a := by
  have hbank : Mbc1.initial.highBank = 1 := rfl
  rw [Mbc1.highOffset_eq _ _ _ h h', hbank, Nat.one_mul, Nat.add_sub_cancel' h, Nat.mod_eq_of_lt hn]

/-- Under either fresh controller the ROM windows read the image at the address itself. -/
theorem Cart.read_rom_initial {k : Cart} {a : Word} (hk : k.ctl = .romOnly ∨ k.ctl = .mbc1 .initial)
    (hn : 0x8000 ≤ k.romBytes) (ha : a.toNat ≤ 0x7FFF) : k.read a = .ok (memRead k.rom a.toNat) := by
  have hin : a.toNat < k.romBytes := by omega
  rcases hk with hk | hk
  · exact Cart.read_romOnly_inside hk hin
  · rcases Nat.lt_or_ge a.toNat 0x4000 with hlow | hhigh
    · rw [Cart.read_mbc1_low hk (by omega), Mbc1.initial_lowOffset hin]
    · rw [Cart.read_mbc1_high hk hhigh ha, Mbc1.initial_highOffset hhigh ha hin]

theorem State.peek_cart (s : State) {a : Word} (h : IsCart a) : s.peek a = (s.cart.read a).toOption := by
  unfold State.peek
  rcases h with h | h <;> rw [h]

/-- Every legal ROM holds banks 0 and 1 (20_memory.md R125). -/
theorem romBytesOf_two_banks {v : Byte} {n : Nat} (h : romBytesOf v = some n) : 0x8000 ≤ n := by
  have hall : ∀ n ∈ [0x8000, 0x10000, 0x20000, 0x40000, 0x80000, 0x100000, 0x200000, 0x400000, 0x800000], 0x8000 ≤ n := by
    decide
  exact hall n (romBytesOf_legal h)

/-! ## The obligations -/

/-- Settles O4: construction starts from the reset state, with the header's controller fresh, whose windows read banks 0 and 1
and no RAM. -/
theorem constructedState : Obligations.ConstructedState := by
  intro p s h
  obtain ⟨k, log, hk, rfl⟩ := construct_cases h
  obtain ⟨hctl, hrb, -, hrom, -⟩ := buildCart_cases hk
  have hfresh := controllerOf_initial hctl
  refine ⟨rfl, rfl, rfl, rfl, rfl, rfl, rfl, rfl, fun m hm => ?mbc1, fun a ha => ?rom⟩
  case mbc1 =>
    replace hm : k.ctl = .mbc1 m := hm
    obtain rfl : m = .initial := by
      rw [hm] at hfresh
      exact Controller.mbc1.inj (hfresh.resolve_left nofun)
    refine ⟨rfl, fun a ha => ?_⟩
    rw [State.peek_cart _ (.inr ha)]
    exact congrArg Except.toOption (Cart.read_mbc1_ram_off hm ((zoneOf_eq_cartRam a).1 ha).1 (.inl rfl))
  case rom =>
    have ha' : a.toNat ≤ 0x7FFF := (zoneOf_eq_rom a).1 ha
    have hn : 0x8000 ≤ k.romBytes := romBytesOf_two_banks hrb
    have hbyte : memRead k.rom a.toNat = p.rom.at a.toNat := by
      rw [hrom, p.rom.memRead_cells _ _ (by omega)]
    rw [State.peek_cart _ (.inl ha), ← hbyte]
    exact congrArg Except.toOption (Cart.read_rom_initial hfresh hn ha')

/-- Settles O3: the fields of the reset state. -/
theorem resetRegisters : Obligations.ResetRegisters :=
  ⟨rfl, rfl, rfl, rfl, rfl, rfl, rfl, rfl, rfl, rfl, rfl, rfl, rfl, rfl, rfl, rfl, rfl, rfl, rfl, rfl⟩

/-- Settles O7: the construction evaluates to the reset state, so it meets the invariant every constructed block does. -/
theorem resetIsConstructed : Obligations.ResetIsConstructed := by
  refine ⟨?built, constructedInv _ State.reset ?built⟩
  rfl

end Sys2Proof.Machine

/-! SUPPORT. DIVCNT through a whole step: the CPU's part clears it where it stores to DIV, and the iteration counts four ticks an
M-cycle (40_engine.md R206, R207, 60_exceptions.md R435, 70_reset_and_hazards.md R481). -/

namespace Sys2Proof.Machine

/-! ## The addresses the CPU's step stores to -/

section Stores
variable {s : State}

theorem State.stepStores_halted (hh : s.halted = true) (hp : s.pending = false) : s.stepStores = [] := if_pos ⟨hh, hp⟩

theorem State.stepStores_dispatch (hi : s.ime = true) (hp : s.pending = true) : s.stepStores = s.pushSlots := by
  rw [State.stepStores, if_neg (by simp [hp]), if_pos ⟨hi, hp⟩]

theorem State.stepStores_runNext {i : Instr} {v : State} (hw : s.halted = true → s.pending = true)
    (hd : s.ime = false ∨ s.pending = false) (h : State.fetch { s with halted := false } = .ok i v) :
    s.stepStores = instrStores i v := by
  have hgo : ¬ (s.halted = true ∧ s.pending = false) := fun ⟨hh, hp⟩ => by simp [hw hh] at hp
  have hnone : ¬ (s.ime = true ∧ s.pending = true) := by
    rintro ⟨hi, hp⟩
    simp [hi, hp] at hd
  rw [State.stepStores, if_neg hgo, if_neg hnone, h]

end Stores

/-! ## DIVCNT before the iteration -/

/-- Where the instruction at PC returns a count, DIVCNT is as its stores leave it; decoding stores nothing. -/
theorem State.runNext_div {s t : State} (h : s.runNext = .next t) :
    ∃ (u : State) (b : Bool), t = u.endStep b ∧
      (u.elapsed ≠ none → ∃ i v, s.fetch = .ok i v ∧ u.timer.div = divAfter (instrStores i v) s.timer.div) := by
  have hsound := s.fetch_sound
  have hfetched := s.fetch_div
  cases hf : s.fetch with
  | fatal v =>
    rw [hf] at hsound
    obtain ⟨-, ⟨f, hv⟩, hm⟩ := hsound
    rw [State.runNext_of_fetch_fatal hf] at h
    obtain rfl := Host.Outcome.next.inj h
    exact ⟨v, false, (v.endStep_fatal false f hv).symm, fun hn => absurd hm hn⟩
  | ok i v =>
    rw [hf, Res.Div, divAfter_nil] at hfetched
    obtain ⟨u, hu, -⟩ := exec_answered i v
    rw [State.runNext_of_fetch_ok hf hu] at h
    cases h
    exact ⟨u, _, rfl, fun hn => ⟨i, v, rfl, hfetched ▸ exec_div i v u hu hn⟩⟩

/-- A step is its CPU's part, which leaves DIVCNT as the addresses it stores to do, and its end. -/
theorem step_div_cases {s t : State} (h : step s = .next t) :
    ∃ (u : State) (b : Bool), t = u.endStep b ∧ (u.elapsed ≠ none → u.timer.div = divAfter s.stepStores s.timer.div) := by
  obtain ⟨hf, -⟩ := step_cases h
  by_cases hidle : s.halted = true ∧ s.pending = false
  · obtain ⟨hh, hp⟩ := hidle
    refine ⟨s.setElapsed 1, false, step_halted hh hp h, fun _ => ?_⟩
    rw [State.stepStores_halted hh hp, divAfter_nil]
    rfl
  by_cases hdispatch : s.ime = true ∧ s.pending = true
  · obtain ⟨hi, hp⟩ := hdispatch
    obtain ⟨i, ht⟩ := step_dispatch hi hp h
    rw [State.stepStores_dispatch hi hp]
    exact ⟨_, false, ht, fun hn => State.takeInterrupt_div { s with halted := false } i hn⟩
  · have hw : s.halted = true → s.pending = true := fun hh => by simpa [hh] using hidle
    have hd : s.ime = false ∨ s.pending = false := by simpa [imp_iff_not_or] using hdispatch
    rw [step_runNext hf hw hd] at h
    obtain ⟨u, b, ht, hdiv⟩ := State.runNext_div h
    refine ⟨u, b, ht, fun hn => ?_⟩
    obtain ⟨i, v, hfetch, hu⟩ := hdiv hn
    rw [State.stepStores_runNext hw hd hfetch]
    exact hu

/-! ## The iteration -/

/-- A step that returns a count raised nothing (40_engine.md R198). -/
theorem step_fatal_eq_none {s t : State} {m : Nat} (h : step s = .next t) (hm : t.elapsed = some m) : t.fatal = none := by
  obtain ⟨hf, u, b, hu, rfl⟩ := step_cases h
  rw [State.endStep_elapsed] at hm
  rw [State.endStep_fatal_eq]
  rcases hu.count hf with ⟨hlive, -⟩ | ⟨-, hnone⟩
  · exact hlive
  · cases hnone.symm.trans hm

/-- The end of a step of `m` M-cycles counts DIVCNT `4 m` on (40_engine.md R206, R207). -/
theorem State.endStep_div {s : State} {m : Nat} (b : Bool) (hf : s.fatal = none) (hm : s.elapsed = some m) :
    (s.endStep b).timer.div = s.timer.div + BitVec.ofNat 16 (4 * m) := by
  rw [s.endStep_live b hf, State.iterate_div, State.commitIme_timer, State.commitIme_elapsed, hm, Option.getD_some]

/-- Settles O57: DIVCNT before the iteration is 0 or the old value by the addresses stored to, and the iteration adds `4 m`. -/
theorem divAdvance : Obligations.DivAdvance := by
  intro s t m h hm
  have hf := step_fatal_eq_none h hm
  obtain ⟨u, b, rfl, hu⟩ := step_div_cases h
  rw [State.endStep_fatal_eq] at hf
  rw [State.endStep_elapsed] at hm
  rw [State.endStep_div b hf hm, hu (by simp [hm]), divAfter]
  exact ⟨fun hin => by rw [if_pos hin]; exact BitVec.zero_add _, fun hout => by rw [if_neg hout]⟩

end Sys2Proof.Machine
